-- ==== Sys2Proof/Word.lean ====
section
/-! DEFINITION. The two widths the spec gives a value as bits: a byte, and the 16-bit word of a coordinate, a
`DeviceState` size or offset, a character code and a pixel code (00_scope.md R11, R16; 10_state.md R21). -/

namespace Sys2Proof

/-- A byte, an integer in 0..255 (00_scope.md R11). -/
abbrev Byte := BitVec 8

/-- A 16-bit value. -/
abbrev Word := BitVec 16

end Sys2Proof
end

