-- ==== Sys2Proof/Config.lean ====
section
/-! DEFINITION. The configuration record `CFG` of 00_scope.md R7 as plain data, its well-formedness (R7 and the
`INIT_TABLE` skeleton of 41_protocol.md R163), and the free values the spec leaves open.

DESIGN CHOICE (log 1): a machine's `CFG` is a field of its State, so a statement about every state is a statement about
every `CFG`. -/

namespace Sys2Proof

/-- A colour: three 8-bit channels (00_scope.md R16). -/
structure Colour where
  r : Byte
  g : Byte
  b : Byte
deriving DecidableEq, Repr

/-- The 24 LCD commands the block emits, by name (30_encoding.md R104). -/
inductive WireCmd
  | swreset | slpout | noron | invoff | invon | dispoff | dispon | caset | raset | ramwr | madctl | colmod
  | frmctr1 | frmctr2 | frmctr3 | invctr | pwctr1 | pwctr2 | pwctr3 | pwctr4 | pwctr5 | vmctr1 | gmctrp1 | gmctrn1
deriving DecidableEq, Repr

/-- The 24 commands in the order of 30_encoding.md R104. -/
def WireCmd.all : List WireCmd :=
  [.swreset, .slpout, .noron, .invoff, .invon, .dispoff, .dispon, .caset, .raset, .ramwr, .madctl, .colmod,
   .frmctr1, .frmctr2, .frmctr3, .invctr, .pwctr1, .pwctr2, .pwctr3, .pwctr4, .pwctr5, .vmctr1, .gmctrp1, .gmctrn1]

/-- The 24 command codes `CMD_*`, each OPEN (00_scope.md R7, 30_encoding.md R104). -/
structure CommandCodes where
  swreset : Byte
  slpout  : Byte
  noron   : Byte
  invoff  : Byte
  invon   : Byte
  dispoff : Byte
  dispon  : Byte
  caset   : Byte
  raset   : Byte
  ramwr   : Byte
  madctl  : Byte
  colmod  : Byte
  frmctr1 : Byte
  frmctr2 : Byte
  frmctr3 : Byte
  invctr  : Byte
  pwctr1  : Byte
  pwctr2  : Byte
  pwctr3  : Byte
  pwctr4  : Byte
  pwctr5  : Byte
  vmctr1  : Byte
  gmctrp1 : Byte
  gmctrn1 : Byte
deriving DecidableEq, Repr

/-- The code of a command (30_encoding.md R104). -/
def CommandCodes.code (k : CommandCodes) : WireCmd → Byte
  | .swreset => k.swreset
  | .slpout  => k.slpout
  | .noron   => k.noron
  | .invoff  => k.invoff
  | .invon   => k.invon
  | .dispoff => k.dispoff
  | .dispon  => k.dispon
  | .caset   => k.caset
  | .raset   => k.raset
  | .ramwr   => k.ramwr
  | .madctl  => k.madctl
  | .colmod  => k.colmod
  | .frmctr1 => k.frmctr1
  | .frmctr2 => k.frmctr2
  | .frmctr3 => k.frmctr3
  | .invctr  => k.invctr
  | .pwctr1  => k.pwctr1
  | .pwctr2  => k.pwctr2
  | .pwctr3  => k.pwctr3
  | .pwctr4  => k.pwctr4
  | .pwctr5  => k.pwctr5
  | .vmctr1  => k.vmctr1
  | .gmctrp1 => k.gmctrp1
  | .gmctrn1 => k.gmctrn1

/-- One of the "four fixed (MADCTL byte, colstart, rowstart, dimension-swap) tuples" (00_scope.md R7). -/
structure RotTuple where
  madctl   : Byte
  colstart : Word
  rowstart : Word
  swap     : Bool
deriving DecidableEq, Repr

/-- One entry `(cmd, data, delay)` of `INIT_TABLE` (00_scope.md R7). -/
structure InitEntry where
  cmd   : Byte
  data  : List Byte
  delay : Nat
deriving DecidableEq, Repr

/-- The configuration record `CFG` (00_scope.md R7): read-only straps, fixed before power-on (10_state.md R30).
`COORD_BITS` is the width of `Word`. `FONT_DIR_BASE`, an "integer" in R7, is a natural number (DESIGN CHOICE, log 21). -/
structure Cfg where
  w0          : Word
  h0          : Word
  hasRst      : Bool
  hasBl       : Bool
  rot0        : RotTuple
  rot1        : RotTuple
  rot2        : RotTuple
  rot3        : RotTuple
  codes       : CommandCodes
  colmod16bpp : Byte
  initTable   : List InitEntry
  tRstLow     : Nat
  tRstHigh    : Nat
  fontDirBase : Nat
  defaultBg   : Colour
  defaultFg   : Colour
deriving DecidableEq, Repr

/-- `CMD_<name>`. -/
def Cfg.code (c : Cfg) (k : WireCmd) : Byte := c.codes.code k

/-- `ROT[r]`. -/
def Cfg.rot (c : Cfg) (r : BitVec 2) : RotTuple :=
  match r.toNat with
  | 0 => c.rot0
  | 1 => c.rot1
  | 2 => c.rot2
  | _ => c.rot3

/-- One `ROT` tuple meets 00_scope.md R7: `swap` is "r is odd", and every window bound fits 16 bits. -/
def Cfg.rotOk (c : Cfg) (r : BitVec 2) : Bool :=
  ((c.rot r).swap == decide (r.toNat % 2 = 1)) &&
  decide ((c.rot r).colstart.toNat + max c.w0.toNat c.h0.toNat - 1 ≤ 65535) &&
  decide ((c.rot r).rowstart.toNat + max c.w0.toNat c.h0.toNat - 1 ≤ 65535)

/-- A start and an end bound as the four bytes of a window's data frame, high byte first (41_protocol.md R163
entries 16 and 17). -/
def boundBytes (lo hi : Nat) : List Byte :=
  [BitVec.ofNat 8 (lo / 256), BitVec.ofNat 8 (lo % 256), BitVec.ofNat 8 (hi / 256), BitVec.ofNat 8 (hi % 256)]

/-- Entries 1 to 12 of the `INIT_TABLE` skeleton (41_protocol.md R163): the command, and the data where it is fixed. -/
def Cfg.initHead : List (WireCmd × Option (List Byte)) :=
  [(.swreset, some []), (.slpout, some []), (.frmctr1, none), (.frmctr2, none), (.frmctr3, none), (.invctr, none),
   (.pwctr1, none), (.pwctr2, none), (.pwctr3, none), (.pwctr4, none), (.pwctr5, none), (.vmctr1, none)]

/-- The optional entries 13 and 14 (41_protocol.md R163). -/
def Cfg.initGamma : List (WireCmd × Option (List Byte)) := [(.gmctrp1, none), (.gmctrn1, none)]

/-- Entries 15 to 20 (41_protocol.md R163), the full-panel bounds with the rotation-0 offsets. -/
def Cfg.initTail (c : Cfg) : List (WireCmd × Option (List Byte)) :=
  [(.colmod, some [c.colmod16bpp]),
   (.caset, some (boundBytes c.rot0.colstart.toNat (c.rot0.colstart.toNat + c.w0.toNat - 1))),
   (.raset, some (boundBytes c.rot0.rowstart.toNat (c.rot0.rowstart.toNat + c.h0.toNat - 1))),
   (.invon, some []), (.noron, some []), (.dispon, some [])]

/-- The skeleton of 41_protocol.md R163. `gamma` says whether the optional entries stand in it. -/
def Cfg.initSkeleton (c : Cfg) (gamma : Bool) : List (WireCmd × Option (List Byte)) :=
  Cfg.initHead ++ (if gamma then Cfg.initGamma else []) ++ c.initTail

/-- A table has exactly the entries of a skeleton, in order. -/
def Cfg.tableMatches (c : Cfg) : List InitEntry → List (WireCmd × Option (List Byte)) → Bool
  | [], [] => true
  | e :: es, (k, d) :: ks => (e.cmd == c.code k) && (d == none || d == some e.data) && c.tableMatches es ks
  | _, _ => false

/-- `INIT_TABLE` is admissible (41_protocol.md R163). -/
def Cfg.initOk (c : Cfg) : Bool :=
  c.tableMatches c.initTable (c.initSkeleton true) || c.tableMatches c.initTable (c.initSkeleton false)

/-- The constraints a `CFG` must satisfy (00_scope.md R7, 41_protocol.md R163; 93 U14). No rule bounds
`FONT_DIR_BASE`, and neither does this (log 21). -/
def Cfg.wf (c : Cfg) : Bool :=
  decide (1 ≤ c.w0.toNat) && decide (c.w0.toNat ≤ 32767) && decide (1 ≤ c.h0.toNat) && decide (c.h0.toNat ≤ 32767) &&
  (c.rotOk 0 && c.rotOk 1 && c.rotOk 2 && c.rotOk 3) &&
  decide (WireCmd.all.map c.code).Nodup && c.initOk && (c.defaultBg == ⟨0, 0, 0⟩)

/-- FREE VALUE (log 7): the `n`-th 16-bit value the observer has no value for (a window bound after a software or
hardware reset, 45_wire_observer.md R302, R303). Nothing constrains it. -/
opaque Config.freeWord : Nat → Word

/-- FREE VALUE (log 7): the observer's rotation byte after a software reset (45_wire_observer.md R303). -/
opaque Config.freeByte : Nat → Byte

/-- FREE VALUE (log 7): the observer's `inv` and `disp` after a software reset (45_wire_observer.md R303). -/
opaque Config.freeBit : Nat → Bool

/-- A pixel code as its two bytes, high then low (00_scope.md R16, 20_memory.md R62). -/
structure PixelCode where
  hi : Byte
  lo : Byte
deriving DecidableEq, Repr

/-- A DynamicTextArea `TA = (w, h, buf)` (44_text.md R262). -/
structure TextArea where
  w   : Nat
  h   : Nat
  buf : List Byte
deriving DecidableEq, Repr

/-- FREE VALUE (log 16): byte `k` of a text area's buffer that ends before it; 44_text.md R262 gives a buffer two bytes
for every pixel of its area. -/
opaque Config.areaByte : TextArea → Nat → Byte

/-- FREE VALUE (log 16): byte `k` of the buffer TAGROW answers for a new width or height below the old one, where
44_text.md R263 states no pixel. -/
opaque Config.tagrowByte : TextArea → Nat → Nat → PixelCode → Nat → Byte

/-- FREE VALUE (log 8): the two bytes `be16` answers for a value outside 0..65535, where 00_scope.md R14 states none. -/
opaque Config.be16Other : Int → Byte × Byte

end Sys2Proof
end

