-- ==== Sys2Proof/Machine/TestConfig.lean ====
section
/-! DEFINITION. Test configuration T1 of 00_scope.md R8, with the command codes of 30_encoding.md R104 and the table of
41_protocol.md R164. Its values are PRESUMED: the spec marks them as general knowledge (93 G1 to G3), "an
illustration", "not a claim about the repository or about any panel". Only `State.reset` uses it (DESIGN CHOICE,
log 1). -/

namespace Sys2Proof

/-- The default codes of 30_encoding.md R104. PRESUMED (93 G1). -/
def CommandCodes.gk : CommandCodes where
  swreset := 0x01
  slpout  := 0x11
  noron   := 0x13
  invoff  := 0x20
  invon   := 0x21
  dispoff := 0x28
  dispon  := 0x29
  caset   := 0x2A
  raset   := 0x2B
  ramwr   := 0x2C
  madctl  := 0x36
  colmod  := 0x3A
  frmctr1 := 0xB1
  frmctr2 := 0xB2
  frmctr3 := 0xB3
  invctr  := 0xB4
  pwctr1  := 0xC0
  pwctr2  := 0xC1
  pwctr3  := 0xC2
  pwctr4  := 0xC3
  pwctr5  := 0xC4
  vmctr1  := 0xC5
  gmctrp1 := 0xE0
  gmctrn1 := 0xE1

/-- `INIT_TABLE` of T1 (41_protocol.md R164). PRESUMED (93 G3). -/
def t1InitTable : List InitEntry :=
  [⟨0x01, [], 150⟩, ⟨0x11, [], 500⟩, ⟨0xB1, [0x01, 0x2C, 0x2D], 0⟩, ⟨0xB2, [0x01, 0x2C, 0x2D], 0⟩,
   ⟨0xB3, [0x01, 0x2C, 0x2D, 0x01, 0x2C, 0x2D], 0⟩, ⟨0xB4, [0x07], 0⟩] ++
  [⟨0xC0, [0xA2, 0x02, 0x84], 0⟩, ⟨0xC1, [0xC5], 0⟩, ⟨0xC2, [0x0A, 0x00], 0⟩, ⟨0xC3, [0x8A, 0x2A], 0⟩,
   ⟨0xC4, [0x8A, 0xEE], 0⟩, ⟨0xC5, [0x0E], 0⟩] ++
  [⟨0xE0, [0x02, 0x1C, 0x07, 0x12, 0x37, 0x32, 0x29, 0x2D, 0x29, 0x25, 0x2B, 0x39, 0x00, 0x01, 0x03, 0x10], 0⟩,
   ⟨0xE1, [0x03, 0x1D, 0x07, 0x06, 0x2E, 0x2C, 0x29, 0x2D, 0x2E, 0x2E, 0x37, 0x3F, 0x00, 0x00, 0x02, 0x10], 0⟩] ++
  [⟨0x3A, [0x05], 0⟩, ⟨0x2A, [0x00, 0x1A, 0x00, 0x69], 0⟩, ⟨0x2B, [0x00, 0x01, 0x00, 0xA0], 0⟩, ⟨0x21, [], 0⟩,
   ⟨0x13, [], 10⟩, ⟨0x29, [], 100⟩]

/-- Test configuration T1 (00_scope.md R8). PRESUMED (93 G1 to G3). -/
def Cfg.t1 : Cfg where
  w0          := 80
  h0          := 160
  hasRst      := true
  hasBl       := true
  rot0        := ⟨0xC8, 26, 1, false⟩
  rot1        := ⟨0xA8, 1, 26, true⟩
  rot2        := ⟨0x08, 26, 1, false⟩
  rot3        := ⟨0x68, 1, 26, true⟩
  codes       := CommandCodes.gk
  colmod16bpp := 0x05
  initTable   := t1InitTable
  tRstLow     := 50
  tRstHigh    := 50
  fontDirBase := 7
  defaultBg   := ⟨0, 0, 0⟩
  defaultFg   := ⟨255, 255, 255⟩

end Sys2Proof
end

