-- ==== Sys2Proof/Syntax.lean ====
section
/-! DEFINITION. The operations as data: one constructor of `Instr` per row of `spec/opcode_table.json`, and the record
types their operands have. Operand values a rule calls illegal (a rotation of 4, a boolean of 2) are kept as they
stand in the descriptor, since such an operation exists and ends with `InvalidArgument` (30_encoding.md R107 b). -/

namespace Sys2Proof

/-- A rectangle in logical coordinates, of mathematical integers (43_shapes.md R230). -/
structure Rect where
  x : Int
  y : Int
  w : Int
  h : Int
deriving DecidableEq, Repr

/-- A resolved font header `(first, last, gh)` (44_text.md R251). -/
structure FontHdr where
  first : Word
  last  : Word
  gh    : Byte
deriving DecidableEq, Repr

/-- An alignment (30_encoding.md R102). -/
inductive Align
  | none | left | center | right
deriving DecidableEq, Repr

/-- The operations of 30_encoding.md R101 (host, query, micro) and the wire commands of R104. -/
inductive Instr
  /-- CONSTRUCT r (41_protocol.md R161). -/
  | construct (r : Byte)
  /-- RESET (41_protocol.md R162). -/
  | reset
  /-- ON (41_protocol.md R173). -/
  | turnOn
  /-- OFF (41_protocol.md R175). -/
  | turnOff
  /-- SETROT r (41_protocol.md R167). -/
  | setrot (r : Byte)
  /-- SETBL on (41_protocol.md R172). -/
  | setbl (v : Byte)
  /-- SETINV on (41_protocol.md R174). -/
  | setinv (v : Byte)
  /-- CLEAR (43_shapes.md R229). -/
  | clear
  /-- FILLSCREEN color (43_shapes.md R228). -/
  | fillscreen (c : Colour)
  /-- FILLRECT x, y, w, h, color (43_shapes.md R220). -/
  | fillrect (x y w h : Word) (c : Colour)
  /-- DRAWPIXEL x, y, color (43_shapes.md R222). -/
  | drawpixel (x y : Word) (c : Colour)
  /-- DRAWLINE x, y, length, color (43_shapes.md R224). -/
  | drawline (x y len : Word) (c : Colour)
  /-- DRAWIMAGE x, y, w, h, IMG; `ILEN` is the length of `img` (43_shapes.md R226). -/
  | drawimage (x y w h : Word) (img : List Byte)
  /-- DRAWTEXT with the fields of `OP_TEXT`; an operand whose flag bit is 0 is absent (44_text.md R270). -/
  | drawtext (flags : Byte) (x y w h : Word) (align : Byte) (fg bg : Colour) (txt : List Word) (font : List Byte)
  /-- MEASURE TXT, FONT (44_text.md R254). -/
  | measure (txt : List Word) (font : List Byte)
  /-- ENCODE color (42_codec.md R200). -/
  | encodeColour (c : Colour)
  /-- DECODE hi, lo (42_codec.md R201). -/
  | decodeCode (hi lo : Byte)
  /-- SENDCMD code (40_transport.md R141). -/
  | sendcmd (code : Byte)
  /-- SENDDATA bytes (40_transport.md R142). -/
  | senddata (bytes : List Byte)
  /-- RSTPULSE (40_transport.md R144). -/
  | rstpulse
  /-- BLSET v (40_transport.md R145). -/
  | blset (v : Bool)
  /-- DELAY n (40_transport.md R146). -/
  | delay (n : Nat)
  /-- SETWIN x0, y0, x1, y1 (41_protocol.md R169). -/
  | setwin (x0 y0 x1 y1 : Int)
  /-- STREAM buf (41_protocol.md R171). -/
  | stream (buf : List Byte)
  /-- WRITEWIN x, y, w, h, buf (41_protocol.md R170). -/
  | writewin (x y w h : Int) (buf : List Byte)
  /-- EDGE x, y, w, h (43_shapes.md R211). -/
  | edge (x y w h : Int)
  /-- STRICT x, y, w, h (43_shapes.md R212). -/
  | strict (x y w h : Int)
  /-- SOLID w, h, color (43_shapes.md R214). -/
  | solid (w h : Nat) (c : Colour)
  /-- FONTHDR FONT (44_text.md R251). -/
  | fonthdr (font : List Byte)
  /-- DIRENT FONT, hdr, code (44_text.md R253). -/
  | dirent (font : List Byte) (hdr : FontHdr) (code : Word)
  /-- TEXTWIDTH TXT, FONT, hdr (44_text.md R252). -/
  | textwidth (txt : List Word) (font : List Byte) (hdr : FontHdr)
  /-- TAALLOC w, h, bg16 (44_text.md R262). -/
  | taalloc (w h : Nat) (bg : PixelCode)
  /-- TAGROW TA, nw, nh, bg16 (44_text.md R263). -/
  | tagrow (ta : TextArea) (nw nh : Nat) (bg : PixelCode)
  /-- PLACE TA, cx, cy, gw, gh, gbase, fg16, bg16, with the `FONT` space it reads (44_text.md R264). -/
  | place (ta : TextArea) (cx cy gw gh gbase : Nat) (fg bg : PixelCode) (font : List Byte)
  /-- software-reset, no data. -/
  | cmdSwreset
  /-- sleep-out, no data. -/
  | cmdSlpout
  /-- normal-display-on, no data. -/
  | cmdNoron
  /-- display-inversion-off, no data. -/
  | cmdInvoff
  /-- display-inversion-on, no data. -/
  | cmdInvon
  /-- display-off, no data. -/
  | cmdDispoff
  /-- display-on, no data. -/
  | cmdDispon
  /-- column-address-set, four data bytes: the bounds in panel coordinates. -/
  | cmdCaset (x0 x1 : Word)
  /-- row-address-set, four data bytes: the bounds in panel coordinates. -/
  | cmdRaset (y0 y1 : Word)
  /-- memory-write, then the pixel stream. -/
  | cmdRamwr (pixels : List Byte)
  /-- rotation/mirror-control, one data byte. -/
  | cmdMadctl (b : Byte)
  /-- color-mode, the one data byte `COLMOD_16BPP`. -/
  | cmdColmod
  /-- frame-rate 1 of 3, `INIT_TABLE` bytes. -/
  | cmdFrmctr1 (data : List Byte)
  /-- frame-rate 2 of 3, `INIT_TABLE` bytes. -/
  | cmdFrmctr2 (data : List Byte)
  /-- frame-rate 3 of 3, `INIT_TABLE` bytes. -/
  | cmdFrmctr3 (data : List Byte)
  /-- display-inversion-ctrl, `INIT_TABLE` bytes. -/
  | cmdInvctr (data : List Byte)
  /-- power-ctrl 1 of 5, `INIT_TABLE` bytes. -/
  | cmdPwctr1 (data : List Byte)
  /-- power-ctrl 2 of 5, `INIT_TABLE` bytes. -/
  | cmdPwctr2 (data : List Byte)
  /-- power-ctrl 3 of 5, `INIT_TABLE` bytes. -/
  | cmdPwctr3 (data : List Byte)
  /-- power-ctrl 4 of 5, `INIT_TABLE` bytes. -/
  | cmdPwctr4 (data : List Byte)
  /-- power-ctrl 5 of 5, `INIT_TABLE` bytes. -/
  | cmdPwctr5 (data : List Byte)
  /-- VCOM-ctrl, `INIT_TABLE` bytes. -/
  | cmdVmctr1 (data : List Byte)
  /-- gamma table, positive, `INIT_TABLE` bytes. -/
  | cmdGmctrp1 (data : List Byte)
  /-- gamma table, negative, `INIT_TABLE` bytes. -/
  | cmdGmctrn1 (data : List Byte)
deriving DecidableEq, Repr

/-- The operation has a descriptor the host can present: a host operation or a query (30_encoding.md R101). -/
def Instr.isHost : Instr → Bool
  | .construct _ | .reset | .turnOn | .turnOff | .setrot _ | .setbl _ | .setinv _ | .clear | .fillscreen _ => true
  | .fillrect _ _ _ _ _ | .drawpixel _ _ _ | .drawline _ _ _ _ | .drawimage _ _ _ _ _ => true
  | .drawtext _ _ _ _ _ _ _ _ _ _ | .measure _ _ | .encodeColour _ | .decodeCode _ _ => true
  | .sendcmd _ | .senddata _ | .rstpulse | .blset _ | .delay _ | .setwin _ _ _ _ | .stream _ => false
  | .writewin _ _ _ _ _ | .edge _ _ _ _ | .strict _ _ _ _ | .solid _ _ _ | .fonthdr _ | .dirent _ _ _ => false
  | .textwidth _ _ _ | .taalloc _ _ _ | .tagrow _ _ _ _ | .place _ _ _ _ _ _ _ _ _ => false
  | .cmdSwreset | .cmdSlpout | .cmdNoron | .cmdInvoff | .cmdInvon | .cmdDispoff | .cmdDispon => false
  | .cmdCaset _ _ | .cmdRaset _ _ | .cmdRamwr _ | .cmdMadctl _ | .cmdColmod => false
  | .cmdFrmctr1 _ | .cmdFrmctr2 _ | .cmdFrmctr3 _ | .cmdInvctr _ => false
  | .cmdPwctr1 _ | .cmdPwctr2 _ | .cmdPwctr3 _ | .cmdPwctr4 _ | .cmdPwctr5 _ => false
  | .cmdVmctr1 _ | .cmdGmctrp1 _ | .cmdGmctrn1 _ => false

/-- The operation is a wire command (30_encoding.md R104). -/
def Instr.isWire : Instr → Bool
  | .construct _ | .reset | .turnOn | .turnOff | .setrot _ | .setbl _ | .setinv _ | .clear | .fillscreen _ => false
  | .fillrect _ _ _ _ _ | .drawpixel _ _ _ | .drawline _ _ _ _ | .drawimage _ _ _ _ _ => false
  | .drawtext _ _ _ _ _ _ _ _ _ _ | .measure _ _ | .encodeColour _ | .decodeCode _ _ => false
  | .sendcmd _ | .senddata _ | .rstpulse | .blset _ | .delay _ | .setwin _ _ _ _ | .stream _ => false
  | .writewin _ _ _ _ _ | .edge _ _ _ _ | .strict _ _ _ _ | .solid _ _ _ | .fonthdr _ | .dirent _ _ _ => false
  | .textwidth _ _ _ | .taalloc _ _ _ | .tagrow _ _ _ _ | .place _ _ _ _ _ _ _ _ _ => false
  | .cmdSwreset | .cmdSlpout | .cmdNoron | .cmdInvoff | .cmdInvon | .cmdDispoff | .cmdDispon => true
  | .cmdCaset _ _ | .cmdRaset _ _ | .cmdRamwr _ | .cmdMadctl _ | .cmdColmod => true
  | .cmdFrmctr1 _ | .cmdFrmctr2 _ | .cmdFrmctr3 _ | .cmdInvctr _ => true
  | .cmdPwctr1 _ | .cmdPwctr2 _ | .cmdPwctr3 _ | .cmdPwctr4 _ | .cmdPwctr5 _ => true
  | .cmdVmctr1 _ | .cmdGmctrp1 _ | .cmdGmctrn1 _ => true

end Sys2Proof
end

