-- ==== Sys2Proof/Machine/State.lean ====
section
/-! DEFINITION. The machine's state as plain data: the engine's registers (10_state.md R20), the wire trace, the host
port, the inputs of a step (10_state.md R36) and the reference observer (45_wire_observer.md R301); the values at
power-on (10_state.md R38); and the reasons a step may stop. -/

namespace Sys2Proof.Machine

/-- The four states of the protocol state register (10_state.md R28). -/
inductive Fsm
  | uninitialized | resetting | initializing | ready
deriving DecidableEq, Repr

/-- The status an operation ends with (60_exceptions.md R320). -/
inductive Status
  | ok | invalidArgument | fontError | glyphError | transportError
deriving DecidableEq, Repr

/-- The errors a rule raises before its first `emit` (00_scope.md R15, 60_exceptions.md R326). -/
inductive Raise
  | invalidArgument | fontError | glyphError
deriving DecidableEq, Repr

/-- A wire event (40_transport.md R140). A level is true for 1. -/
inductive WireEvent
  | sel
  | desel
  | dc (v : Bool)
  | tx (b : Byte)
  | rst (v : Bool)
  | bl (v : Bool)
  | delay (n : Nat)
deriving DecidableEq, Repr

/-- The transport's answer to one `emit` (00_scope.md R9, R15). -/
inductive Answer
  | done | failed
deriving DecidableEq, Repr

/-- The value an operation returns beside its status: for a query, to the host (00_scope.md R10); for a
micro-operation, to the rule that calls it (R15; DESIGN CHOICE, log 10). -/
inductive Result
  | none
  | width (n : Nat)
  | code (p : PixelCode)
  | colour (c : Colour)
  | rect (r : Rect)
  | bytes (bs : List Byte)
  | header (h : FontHdr)
  | glyph (gw gbase : Nat)
  | area (ta : TextArea)
deriving DecidableEq, Repr

/-- What the host receives when an operation ends (00_scope.md R10). -/
structure Completion where
  status : Status
  result : Result
deriving DecidableEq, Repr

/-- The DeviceState register file `DS` (10_state.md R21). -/
structure DeviceState where
  width     : Word
  height    : Word
  colstart  : Word
  rowstart  : Word
  rotation  : BitVec 2
  inversion : Bool
deriving DecidableEq, Repr

/-- The four output line registers (10_state.md R31). A level is true for 1. -/
structure Lines where
  cs  : Bool
  dc  : Bool
  rst : Bool
  bl  : Bool
deriving DecidableEq, Repr

/-- Bytes by address, in one canonical form: addresses strictly rising. An unlisted address holds no value, so no
entry repeats what an unlisted address reads as. -/
abbrev Memory := List Host.Cell

/-- The reference observer of the panel side (45_wire_observer.md R301). `gram` is the frame memory, two bytes a cell
(log 20); `freeCount` is the model's own count of the free values drawn (log 7). -/
structure Panel where
  lastcmd   : Option Byte
  params    : List Byte
  xs        : Word
  xe        : Word
  ys        : Word
  ye        : Word
  armed     : Bool
  px        : Word
  py        : Word
  half      : Option Byte
  gram      : Memory
  inv       : Bool
  disp      : Bool
  madctl    : Byte
  freeCount : Nat
deriving DecidableEq, Repr

/-- The state of the machine.

* `cfg`: the straps (10_state.md R30), read only (log 1).
* `ds`, `fsm`, `lines`: the engine's persistent state (10_state.md R20).
* `trace`: the wire trace since power-on, oldest event first (00_scope.md R10).
* `faulted`: the mark a `TransportError` leaves (10_state.md R32, 60_exceptions.md R329; log 12).
* `completion`: what the host received last (00_scope.md R10; log 9).
* `port`: the descriptor bytes the host presents, the next first (00_scope.md R10; log 2).
* `answers`: the transport's coming answers, the next first; an empty queue answers *done* (00_scope.md R9; log 4).
* `panel`: the reference observer (45_wire_observer.md R301; log 13). -/
structure State where
  cfg        : Cfg
  ds         : DeviceState
  fsm        : Fsm
  lines      : Lines
  trace      : List WireEvent
  faulted    : Bool
  completion : Option Completion
  port       : List Byte
  answers    : List Answer
  panel      : Panel
deriving DecidableEq, Repr

/-- No rule of the spec stops the machine with a fault: the error statuses are next states (60_exceptions.md R331), and
a `TransportError` is the sticky mark `faulted` (R329; log 12). -/
inductive Fault
deriving DecidableEq, Repr

/-- Why the machine gives an operation no meaning. All are safe: nothing is claimed of what the block would do. -/
inductive Refusal
  /-- Raised by no meaning: an instruction without a meaning, by its mnemonic. -/
  | notModelled (mnemonic : String)
  /-- Raised by every host operation but RESET, CONSTRUCT and the queries while `fsm` is not `Ready` (41_protocol.md
  R160, 93 U5). Safe. -/
  | notReady
  /-- Raised by the fetch for an opcode byte that 30_encoding.md R101 does not list (R107 a, 93 U8). Safe. -/
  | reservedOpcode (b : Byte)
  /-- Raised by the fetch for a descriptor shorter than its format needs (30_encoding.md R107 a, 93 U8). Safe. -/
  | shortDescriptor
deriving DecidableEq, Repr

/-- `DS` at power-on (10_state.md R38). -/
def DeviceState.powerOn (c : Cfg) : DeviceState where
  width     := c.w0
  height    := c.h0
  colstart  := c.rot0.colstart
  rowstart  := c.rot0.rowstart
  rotation  := 0
  inversion := false

/-- The lines at power-on: `CS` released (10_state.md R38); the other three DESIGN CHOICE 0 (log 5). -/
def Lines.powerOn : Lines where
  cs  := true
  dc  := false
  rst := false
  bl  := false

/-- The observer at power-on (45_wire_observer.md R301): `lastcmd` none, not armed, frame memory empty; every other
field DESIGN CHOICE zero or empty (log 6, log 7). -/
def Panel.powerOn : Panel where
  lastcmd   := none
  params    := []
  xs        := 0
  xe        := 0
  ys        := 0
  ye        := 0
  armed     := false
  px        := 0
  py        := 0
  half      := none
  gram      := []
  inv       := false
  disp      := false
  madctl    := 0
  freeCount := 0

/-- Power-on with configuration `c` (10_state.md R38, 70_reset_and_hazards.md R360). -/
def State.powerOn (c : Cfg) : State where
  cfg        := c
  ds         := DeviceState.powerOn c
  fsm        := .uninitialized
  lines      := Lines.powerOn
  trace      := []
  faulted    := false
  completion := none
  port       := []
  answers    := []
  panel      := Panel.powerOn

/-- The machine right after power-on, with test configuration T1 (DESIGN CHOICE, log 1). -/
def State.reset : State := State.powerOn Cfg.t1

end Sys2Proof.Machine
end

