-- ==== Sys2Proof/Machine/Flags.lean ====
section
/-! DEFINITION. The block's one stored flag is `DS.inversion`; it has no condition codes (10_state.md R32). Beside it:
the status codes the host receives (60_exceptions.md R320), and the mark a `TransportError` leaves (R329). -/

namespace Sys2Proof.Machine

/-- The numeric code of a status (60_exceptions.md R320). -/
def Status.code : Status → Nat
  | .ok              => 0
  | .invalidArgument => 1
  | .fontError       => 2
  | .glyphError      => 3
  | .transportError  => 4

/-- The status a raised error ends the operation with (60_exceptions.md R320). -/
def Raise.status : Raise → Status
  | .invalidArgument => .invalidArgument
  | .fontError       => .fontError
  | .glyphError      => .glyphError

/-- `DS.inversion <- v` (10_state.md R25). -/
def State.setInversion (s : State) (v : Bool) : State := { s with ds := { s.ds with inversion := v } }

/-- The mark of a faulted run (10_state.md R32, 60_exceptions.md R329). -/
def State.setFaulted (s : State) (v : Bool) : State := { s with faulted := v }

end Sys2Proof.Machine
end

