-- ==== Sys2Proof/Machine/Memory.lean ====
section
/-! DEFINITION. Byte memory in canonical form, and the two kinds of memory of the block: a host space read by address
(00_scope.md R14, 20_memory.md R60, R61) and the observer's frame memory of 16-bit codes by panel coordinate
(45_wire_observer.md R301). -/

namespace Sys2Proof.Machine

/-- The byte at an address; none where nothing has been written (45_wire_observer.md R301, 93 U11). -/
def Memory.read : Memory → Nat → Option Byte
  | [], _ => none
  | (k, b) :: m, a => if a = k then some b else Memory.read m a

/-- The memory with one byte written, in canonical form. -/
def Memory.write : Memory → Nat → Byte → Memory
  | [], a, b => [(a, b)]
  | (k, v) :: m, a, b =>
    if a < k then (a, b) :: (k, v) :: m
    else if a = k then (a, b) :: m
    else (k, v) :: Memory.write m a b

/-- Every address of the list is above `a`, and they rise strictly. -/
def Memory.risesFrom : Nat → Memory → Bool
  | _, [] => true
  | a, (k, _) :: m => decide (a < k) && Memory.risesFrom k m

/-- The canonical form: addresses strictly rising. (No unlisted address reads as a value, so no entry repeats one.) -/
def Memory.wf : Memory → Bool
  | [] => true
  | (k, _) :: m => Memory.risesFrom k m

/-- Where the high byte of the pixel at panel coordinates `(X, Y)` stands; the low byte follows it (log 20). -/
def frameAddr (x y : Nat) : Nat := 2 * (65536 * y + x)

/-- `GRAM[(X, Y)]` (45_wire_observer.md R301). -/
def Memory.pixel (m : Memory) (x y : Word) : Option PixelCode :=
  match m.read (frameAddr x.toNat y.toNat), m.read (frameAddr x.toNat y.toNat + 1) with
  | some hi, some lo => some ⟨hi, lo⟩
  | _, _ => none

/-- `GRAM[(X, Y)] <- code` (45_wire_observer.md R304). -/
def Memory.setPixel (m : Memory) (x y : Word) (p : PixelCode) : Memory :=
  Memory.write (Memory.write m (frameAddr x.toNat y.toNat) p.hi) (frameAddr x.toNat y.toNat + 1) p.lo

/-- `MemRead(FONT, a, 1)`: `FontError` outside the space (20_memory.md R61). -/
def fontRead (font : List Byte) (a : Nat) : Except Raise Byte :=
  match font[a]? with
  | some b => .ok b
  | none => .error .fontError

end Sys2Proof.Machine
end

