-- ==== Sys2Proof/WellFormed.lean ====
section
/-! DEFINITION. Which terms of `Instr` are well formed: a list fits the length field the descriptor gives it
(30_encoding.md R102), and a micro-operation's operands meet the precondition its rule states as far as the operands
alone decide it. -/

namespace Sys2Proof

/-- A text area holds two bytes for each of its pixels (44_text.md R262). That its height is at least 1 is asked of
TAALLOC's operand only (log 16). -/
def TextArea.wf (ta : TextArea) : Bool := ta.buf.length == 2 * ta.w * ta.h

/-- The check, constructor by constructor. -/
def Instr.wf : Instr → Bool
  | .construct _ | .reset | .turnOn | .turnOff | .setrot _ | .setbl _ | .setinv _ | .clear | .fillscreen _ => true
  | .fillrect _ _ _ _ _ | .drawpixel _ _ _ | .drawline _ _ _ _ | .encodeColour _ | .decodeCode _ _ => true
  | .drawimage _ _ _ _ img => decide (img.length < 2 ^ 32)
  | .drawtext _ _ _ _ _ _ _ _ txt font => decide (txt.length < 2 ^ 16) && decide (font.length < 2 ^ 32)
  | .measure txt font => decide (txt.length < 2 ^ 16) && decide (font.length < 2 ^ 32)
  | .sendcmd _ | .rstpulse | .blset _ | .delay _ => true
  | .senddata bytes => decide (1 ≤ bytes.length)
  | .setwin x0 y0 x1 y1 => decide (0 ≤ x0 ∧ x0 ≤ x1) && decide (0 ≤ y0 ∧ y0 ≤ y1)
  | .stream buf => decide (2 ≤ buf.length) && decide (buf.length % 2 = 0)
  | .writewin x y w h buf => decide (0 ≤ x ∧ 0 ≤ y) && decide (1 ≤ w ∧ 1 ≤ h) && decide ((buf.length : Int) = 2 * w * h)
  | .edge _ _ _ _ | .strict _ _ _ _ => true
  | .solid w h _ => decide (1 ≤ w ∧ 1 ≤ h)
  | .fonthdr _ | .dirent _ _ _ | .textwidth _ _ _ => true
  | .taalloc _ h _ => decide (1 ≤ h)
  | .tagrow ta nw nh _ => ta.wf && decide (ta.w ≤ nw ∧ ta.h ≤ nh)
  | .place ta _ _ _ _ _ _ _ _ => ta.wf
  | .cmdSwreset | .cmdSlpout | .cmdNoron | .cmdInvoff | .cmdInvon | .cmdDispoff | .cmdDispon => true
  | .cmdCaset _ _ | .cmdRaset _ _ | .cmdMadctl _ | .cmdColmod => true
  | .cmdRamwr pixels => decide (pixels.length % 2 = 0)
  | .cmdFrmctr1 _ | .cmdFrmctr2 _ | .cmdFrmctr3 _ | .cmdInvctr _ => true
  | .cmdPwctr1 _ | .cmdPwctr2 _ | .cmdPwctr3 _ | .cmdPwctr4 _ | .cmdPwctr5 _ => true
  | .cmdVmctr1 _ | .cmdGmctrp1 _ | .cmdGmctrn1 _ => true

end Sys2Proof
end

