-- ==== Sys2Proof/Decode.lean ====
section
/-! DEFINITION. The two encodings of 30_encoding.md R100: host descriptors (R101 to R103), with the decoder and then
the encoder; and wire commands (R104, R110, R111), likewise. Decoding is total: what spells no operation is rejected
by name (R107, R108). The micro-operations have no encoding (R101) and no decoder produces one. -/

namespace Sys2Proof

/-! ## Fields -/

/-- `le16(b0, b1)` (00_scope.md R14). -/
def le16 (b0 b1 : Byte) : Word := b0.setWidth 16 ||| (b1.setWidth 16 <<< 8)

/-- The low byte of a 16-bit value. -/
def lowByte (v : Word) : Byte := v.setWidth 8

/-- The high byte of a 16-bit value. -/
def highByte (v : Word) : Byte := (v >>> 8).setWidth 8

/-- An unsigned little-endian 32-bit length field (30_encoding.md R102). -/
def le32 (b0 b1 b2 b3 : Byte) : Nat := b0.toNat + 256 * b1.toNat + 65536 * b2.toNat + 16777216 * b3.toNat

/-- A length as two little-endian bytes (30_encoding.md R102). -/
def nat16Bytes (n : Nat) : List Byte := [BitVec.ofNat 8 n, BitVec.ofNat 8 (n / 256)]

/-- A length as four little-endian bytes (30_encoding.md R102). -/
def nat32Bytes (n : Nat) : List Byte :=
  [BitVec.ofNat 8 n, BitVec.ofNat 8 (n / 256), BitVec.ofNat 8 (n / 65536), BitVec.ofNat 8 (n / 16777216)]

/-- A 16-bit operand as two little-endian bytes (30_encoding.md R102). -/
def wordBytes (v : Word) : List Byte := [lowByte v, highByte v]

/-- A colour as its three bytes (30_encoding.md R102). -/
def colourBytes (c : Colour) : List Byte := [c.r, c.g, c.b]

/-- Character codes, two little-endian bytes each (30_encoding.md R102). -/
def codesBytes (txt : List Word) : List Byte := txt.flatMap wordBytes

/-- The next `n` bytes and what follows them, if there are that many. -/
def takeBytes (n : Nat) (bs : List Byte) : Option (List Byte × List Byte) :=
  if n ≤ bs.length then some (bs.take n, bs.drop n) else none

/-- The next `n` character codes and what follows them, if there are that many. -/
def takeCodes : Nat → List Byte → Option (List Word × List Byte)
  | 0, bs => some ([], bs)
  | n + 1, b0 :: b1 :: bs =>
    match takeCodes n bs with
    | some (ws, rest) => some (le16 b0 b1 :: ws, rest)
    | none => none
  | _ + 1, _ => none

/-! ## Host descriptors -/

/-- The 17 operations that have an opcode (30_encoding.md R101). -/
inductive HostOp
  | construct | reset | turnOn | turnOff | setrot | setbl | setinv | clear | fillscreen | fillrect | drawpixel
  | drawline | drawimage | drawtext | measure | encodeColour | decodeCode
deriving DecidableEq, Repr

/-- The opcode byte (30_encoding.md R101). -/
def HostOp.opcode : HostOp → Byte
  | .construct    => 0x00
  | .reset        => 0x01
  | .turnOn       => 0x02
  | .turnOff      => 0x03
  | .setrot       => 0x04
  | .setbl        => 0x05
  | .setinv       => 0x06
  | .clear        => 0x10
  | .fillscreen   => 0x11
  | .fillrect     => 0x12
  | .drawpixel    => 0x13
  | .drawline     => 0x14
  | .drawimage    => 0x15
  | .drawtext     => 0x16
  | .measure      => 0x17
  | .encodeColour => 0x18
  | .decodeCode   => 0x19

/-- The operations in the order of 30_encoding.md R101. -/
def HostOp.all : List HostOp :=
  [.construct, .reset, .turnOn, .turnOff, .setrot, .setbl, .setinv, .clear, .fillscreen, .fillrect, .drawpixel,
   .drawline, .drawimage, .drawtext, .measure, .encodeColour, .decodeCode]

/-- The operation of an opcode byte; every other byte is reserved (30_encoding.md R101, R107). -/
def hostOpOf (b : Byte) : Option HostOp := HostOp.all.find? (fun k => k.opcode == b)

/-- Why a descriptor spells no operation (30_encoding.md R107 a). -/
inductive DecodeError
  /-- No byte was presented. -/
  | noByte
  /-- The opcode byte is reserved. -/
  | reservedOpcode (b : Byte)
  /-- The descriptor is shorter than its format requires. -/
  | shortDescriptor
deriving DecidableEq, Repr

/-- `OP_IMG` after its opcode byte (30_encoding.md R103). -/
def decodeImage : List Byte → Option (Instr × List Byte)
  | x0 :: x1 :: y0 :: y1 :: w0 :: w1 :: h0 :: h1 :: n0 :: n1 :: n2 :: n3 :: bs =>
    match takeBytes (le32 n0 n1 n2 n3) bs with
    | some (img, rest) => some (.drawimage (le16 x0 x1) (le16 y0 y1) (le16 w0 w1) (le16 h0 h1) img, rest)
    | none => none
  | _ => none

/-- The text and the font that end `OP_TEXT` and `OP_MEAS` (30_encoding.md R103). -/
def takeTextFont (tlen flen : Nat) (bs : List Byte) : Option (List Word × List Byte × List Byte) :=
  match takeCodes tlen bs with
  | some (txt, bs') =>
    match takeBytes flen bs' with
    | some (font, rest) => some (txt, font, rest)
    | none => none
  | none => none

/-- `OP_TEXT` after its opcode byte (30_encoding.md R103). -/
def decodeText : List Byte → Option (Instr × List Byte)
  | fl :: x0 :: x1 :: y0 :: y1 :: w0 :: w1 :: h0 :: h1 :: al :: fr :: fg :: fb :: br :: bg :: bb ::
      t0 :: t1 :: n0 :: n1 :: n2 :: n3 :: bs =>
    match takeTextFont (le16 t0 t1).toNat (le32 n0 n1 n2 n3) bs with
    | some (txt, font, rest) =>
      some (.drawtext fl (le16 x0 x1) (le16 y0 y1) (le16 w0 w1) (le16 h0 h1) al ⟨fr, fg, fb⟩ ⟨br, bg, bb⟩ txt font, rest)
    | none => none
  | _ => none

/-- `OP_MEAS` after its opcode byte (30_encoding.md R103). -/
def decodeMeasure : List Byte → Option (Instr × List Byte)
  | t0 :: t1 :: n0 :: n1 :: n2 :: n3 :: bs =>
    match takeTextFont (le16 t0 t1).toNat (le32 n0 n1 n2 n3) bs with
    | some (txt, font, rest) => some (.measure txt font, rest)
    | none => none
  | _ => none

/-- The fields of a descriptor after its opcode byte, by format (30_encoding.md R103), with the bytes that follow the
descriptor. -/
def decodeFields : HostOp → List Byte → Option (Instr × List Byte)
  | .reset, bs => some (.reset, bs)
  | .turnOn, bs => some (.turnOn, bs)
  | .turnOff, bs => some (.turnOff, bs)
  | .clear, bs => some (.clear, bs)
  | .construct, r :: bs => some (.construct r, bs)
  | .setrot, r :: bs => some (.setrot r, bs)
  | .setbl, v :: bs => some (.setbl v, bs)
  | .setinv, v :: bs => some (.setinv v, bs)
  | .fillscreen, r :: g :: b :: bs => some (.fillscreen ⟨r, g, b⟩, bs)
  | .encodeColour, r :: g :: b :: bs => some (.encodeColour ⟨r, g, b⟩, bs)
  | .decodeCode, hi :: lo :: bs => some (.decodeCode hi lo, bs)
  | .drawpixel, x0 :: x1 :: y0 :: y1 :: r :: g :: b :: bs =>
    some (.drawpixel (le16 x0 x1) (le16 y0 y1) ⟨r, g, b⟩, bs)
  | .drawline, x0 :: x1 :: y0 :: y1 :: l0 :: l1 :: r :: g :: b :: bs =>
    some (.drawline (le16 x0 x1) (le16 y0 y1) (le16 l0 l1) ⟨r, g, b⟩, bs)
  | .fillrect, x0 :: x1 :: y0 :: y1 :: w0 :: w1 :: h0 :: h1 :: r :: g :: b :: bs =>
    some (.fillrect (le16 x0 x1) (le16 y0 y1) (le16 w0 w1) (le16 h0 h1) ⟨r, g, b⟩, bs)
  | .drawimage, bs => decodeImage bs
  | .drawtext, bs => decodeText bs
  | .measure, bs => decodeMeasure bs
  | .construct, [] | .setrot, [] | .setbl, [] | .setinv, [] => none
  | .fillscreen, _ | .encodeColour, _ | .decodeCode, _ | .drawpixel, _ | .drawline, _ | .fillrect, _ => none

/-- One descriptor off the front of the bytes presented (30_encoding.md R101, R103, R107). -/
def decode : List Byte → Except DecodeError (Instr × List Byte)
  | [] => .error .noByte
  | b :: bs =>
    match hostOpOf b with
    | none => .error (.reservedOpcode b)
    | some k =>
      match decodeFields k bs with
      | some r => .ok r
      | none => .error .shortDescriptor

/-- The descriptor of an operation (30_encoding.md R103); none for what has no descriptor. -/
def encode : Instr → Option (List Byte)
  | .construct r => some [HostOp.opcode .construct, r]
  | .reset => some [HostOp.opcode .reset]
  | .turnOn => some [HostOp.opcode .turnOn]
  | .turnOff => some [HostOp.opcode .turnOff]
  | .setrot r => some [HostOp.opcode .setrot, r]
  | .setbl v => some [HostOp.opcode .setbl, v]
  | .setinv v => some [HostOp.opcode .setinv, v]
  | .clear => some [HostOp.opcode .clear]
  | .fillscreen c => some (HostOp.opcode .fillscreen :: colourBytes c)
  | .fillrect x y w h c =>
    some (HostOp.opcode .fillrect :: (wordBytes x ++ wordBytes y ++ wordBytes w ++ wordBytes h ++ colourBytes c))
  | .drawpixel x y c => some (HostOp.opcode .drawpixel :: (wordBytes x ++ wordBytes y ++ colourBytes c))
  | .drawline x y len c =>
    some (HostOp.opcode .drawline :: (wordBytes x ++ wordBytes y ++ wordBytes len ++ colourBytes c))
  | .drawimage x y w h img =>
    some (HostOp.opcode .drawimage ::
      (wordBytes x ++ wordBytes y ++ wordBytes w ++ wordBytes h ++ nat32Bytes img.length ++ img))
  | .drawtext fl x y w h al fg bg txt font =>
    some (HostOp.opcode .drawtext :: fl ::
      (wordBytes x ++ wordBytes y ++ wordBytes w ++ wordBytes h ++ [al] ++ colourBytes fg ++ colourBytes bg ++
       nat16Bytes txt.length ++ nat32Bytes font.length ++ codesBytes txt ++ font))
  | .measure txt font =>
    some (HostOp.opcode .measure :: (nat16Bytes txt.length ++ nat32Bytes font.length ++ codesBytes txt ++ font))
  | .encodeColour c => some (HostOp.opcode .encodeColour :: colourBytes c)
  | .decodeCode hi lo => some [HostOp.opcode .decodeCode, hi, lo]
  | .sendcmd _ | .senddata _ | .rstpulse | .blset _ | .delay _ | .setwin _ _ _ _ | .stream _ => none
  | .writewin _ _ _ _ _ | .edge _ _ _ _ | .strict _ _ _ _ | .solid _ _ _ | .fonthdr _ | .dirent _ _ _ => none
  | .textwidth _ _ _ | .taalloc _ _ _ | .tagrow _ _ _ _ | .place _ _ _ _ _ _ _ _ _ => none
  | .cmdSwreset | .cmdSlpout | .cmdNoron | .cmdInvoff | .cmdInvon | .cmdDispoff | .cmdDispon => none
  | .cmdCaset _ _ | .cmdRaset _ _ | .cmdRamwr _ | .cmdMadctl _ | .cmdColmod => none
  | .cmdFrmctr1 _ | .cmdFrmctr2 _ | .cmdFrmctr3 _ | .cmdInvctr _ => none
  | .cmdPwctr1 _ | .cmdPwctr2 _ | .cmdPwctr3 _ | .cmdPwctr4 _ | .cmdPwctr5 _ => none
  | .cmdVmctr1 _ | .cmdGmctrp1 _ | .cmdGmctrn1 _ => none

/-- The total length of the descriptor an operation has (the last column of 30_encoding.md R103). -/
def descriptorLength : Instr → Nat
  | .reset | .turnOn | .turnOff | .clear => 1
  | .construct _ | .setrot _ | .setbl _ | .setinv _ => 2
  | .decodeCode _ _ => 3
  | .fillscreen _ | .encodeColour _ => 4
  | .drawpixel _ _ _ => 8
  | .drawline _ _ _ _ => 10
  | .fillrect _ _ _ _ _ => 12
  | .drawimage _ _ _ _ img => 13 + img.length
  | .drawtext _ _ _ _ _ _ _ _ txt font => 23 + 2 * txt.length + font.length
  | .measure txt font => 7 + 2 * txt.length + font.length
  | .sendcmd _ | .senddata _ | .rstpulse | .blset _ | .delay _ | .setwin _ _ _ _ | .stream _ => 0
  | .writewin _ _ _ _ _ | .edge _ _ _ _ | .strict _ _ _ _ | .solid _ _ _ | .fonthdr _ | .dirent _ _ _ => 0
  | .textwidth _ _ _ | .taalloc _ _ _ | .tagrow _ _ _ _ | .place _ _ _ _ _ _ _ _ _ => 0
  | .cmdSwreset | .cmdSlpout | .cmdNoron | .cmdInvoff | .cmdInvon | .cmdDispoff | .cmdDispon => 0
  | .cmdCaset _ _ | .cmdRaset _ _ | .cmdRamwr _ | .cmdMadctl _ | .cmdColmod => 0
  | .cmdFrmctr1 _ | .cmdFrmctr2 _ | .cmdFrmctr3 _ | .cmdInvctr _ => 0
  | .cmdPwctr1 _ | .cmdPwctr2 _ | .cmdPwctr3 _ | .cmdPwctr4 _ | .cmdPwctr5 _ => 0
  | .cmdVmctr1 _ | .cmdGmctrp1 _ | .cmdGmctrn1 _ => 0

/-! ## Words numbered as the opcode table numbers them -/

/-- The first `n` bytes of a number, the least significant first. -/
def numberBytes : Nat → Nat → List Byte
  | 0, _ => []
  | n + 1, w => BitVec.ofNat 8 w :: numberBytes n (w / 256)

/-- The length of the longest descriptor whose length fields are zero (`OP_TEXT`, 30_encoding.md R103). -/
def longestHeader : Nat := 23

/-- The bytes of the instruction the table gives `nbits` bits `w`, with zeros up to the longest header, so that a word
with fewer bytes than its format gets operands of zero (DESIGN CHOICE, log 24). -/
def tableBytes (nbits w : Nat) : List Byte :=
  numberBytes (nbits / 8) w ++ List.replicate (longestHeader - nbits / 8) 0

/-- What the host decoder reads from an instruction whose bits are `w`, completed with zeros where it is shorter than its
format, which as bytes would be refused (30_encoding.md R107; DESIGN CHOICE, log 24). A wire command's byte is no host
opcode unless 30_encoding.md R101 lists it, and is then that host operation (R107): wire commands are read by
`decodeWire`. -/
def decodeTableWord (nbits w : Nat) : Option Instr :=
  match decode (tableBytes nbits w) with
  | .ok (i, _) => some i
  | .error _ => none

/-! ## Wire commands -/

/-- Why a command byte and its data bytes are no command of 30_encoding.md R104. -/
inductive WireError
  /-- No byte. -/
  | noByte
  /-- The code is none of the 24 of the configuration (30_encoding.md R108). -/
  | unknownCode (b : Byte)
  /-- The data bytes are not those R104 gives the command. -/
  | wrongData (k : WireCmd)
deriving DecidableEq, Repr

/-- The command a code stands for in a configuration (30_encoding.md R104). -/
def wireCmdOf (c : Cfg) (b : Byte) : Option WireCmd := WireCmd.all.find? (fun k => c.code k == b)

/-- A command with its data bytes, in the form 30_encoding.md R104 and R111 give it. A rotation byte may be any byte, and
the data of a table command and of memory-write any bytes, none included (DESIGN CHOICE, log 11). -/
def wireInstr (c : Cfg) : WireCmd → List Byte → Option Instr
  | .swreset, [] => some .cmdSwreset
  | .slpout, [] => some .cmdSlpout
  | .noron, [] => some .cmdNoron
  | .invoff, [] => some .cmdInvoff
  | .invon, [] => some .cmdInvon
  | .dispoff, [] => some .cmdDispoff
  | .dispon, [] => some .cmdDispon
  | .caset, [a, b, d, e] => some (.cmdCaset (le16 b a) (le16 e d))
  | .raset, [a, b, d, e] => some (.cmdRaset (le16 b a) (le16 e d))
  | .ramwr, bs => some (.cmdRamwr bs)
  | .madctl, [b] => some (.cmdMadctl b)
  | .colmod, [b] => if b = c.colmod16bpp then some .cmdColmod else none
  | .frmctr1, bs => some (.cmdFrmctr1 bs)
  | .frmctr2, bs => some (.cmdFrmctr2 bs)
  | .frmctr3, bs => some (.cmdFrmctr3 bs)
  | .invctr, bs => some (.cmdInvctr bs)
  | .pwctr1, bs => some (.cmdPwctr1 bs)
  | .pwctr2, bs => some (.cmdPwctr2 bs)
  | .pwctr3, bs => some (.cmdPwctr3 bs)
  | .pwctr4, bs => some (.cmdPwctr4 bs)
  | .pwctr5, bs => some (.cmdPwctr5 bs)
  | .vmctr1, bs => some (.cmdVmctr1 bs)
  | .gmctrp1, bs => some (.cmdGmctrp1 bs)
  | .gmctrn1, bs => some (.cmdGmctrn1 bs)
  | .swreset, _ | .slpout, _ | .noron, _ | .invoff, _ | .invon, _ | .dispoff, _ | .dispon, _ => none
  | .caset, _ | .raset, _ | .madctl, _ | .colmod, _ => none

/-- A command byte and the data bytes of the frame after it, read as a command of 30_encoding.md R104. -/
def decodeWire (c : Cfg) : List Byte → Except WireError Instr
  | [] => .error .noByte
  | b :: bs =>
    match wireCmdOf c b with
    | none => .error (.unknownCode b)
    | some k =>
      match wireInstr c k bs with
      | some i => .ok i
      | none => .error (.wrongData k)

/-- `be16` of a 16-bit value (00_scope.md R14). -/
def be16Bytes (v : Word) : List Byte := [highByte v, lowByte v]

/-- A wire command's name and its data bytes (30_encoding.md R104, R111); none for what is no wire command. -/
def wireParts (c : Cfg) : Instr → Option (WireCmd × List Byte)
  | .cmdSwreset => some (.swreset, [])
  | .cmdSlpout => some (.slpout, [])
  | .cmdNoron => some (.noron, [])
  | .cmdInvoff => some (.invoff, [])
  | .cmdInvon => some (.invon, [])
  | .cmdDispoff => some (.dispoff, [])
  | .cmdDispon => some (.dispon, [])
  | .cmdCaset x0 x1 => some (.caset, be16Bytes x0 ++ be16Bytes x1)
  | .cmdRaset y0 y1 => some (.raset, be16Bytes y0 ++ be16Bytes y1)
  | .cmdRamwr pixels => some (.ramwr, pixels)
  | .cmdMadctl b => some (.madctl, [b])
  | .cmdColmod => some (.colmod, [c.colmod16bpp])
  | .cmdFrmctr1 data => some (.frmctr1, data)
  | .cmdFrmctr2 data => some (.frmctr2, data)
  | .cmdFrmctr3 data => some (.frmctr3, data)
  | .cmdInvctr data => some (.invctr, data)
  | .cmdPwctr1 data => some (.pwctr1, data)
  | .cmdPwctr2 data => some (.pwctr2, data)
  | .cmdPwctr3 data => some (.pwctr3, data)
  | .cmdPwctr4 data => some (.pwctr4, data)
  | .cmdPwctr5 data => some (.pwctr5, data)
  | .cmdVmctr1 data => some (.vmctr1, data)
  | .cmdGmctrp1 data => some (.gmctrp1, data)
  | .cmdGmctrn1 data => some (.gmctrn1, data)
  | .construct _ | .reset | .turnOn | .turnOff | .setrot _ | .setbl _ | .setinv _ | .clear | .fillscreen _ => none
  | .fillrect _ _ _ _ _ | .drawpixel _ _ _ | .drawline _ _ _ _ | .drawimage _ _ _ _ _ => none
  | .drawtext _ _ _ _ _ _ _ _ _ _ | .measure _ _ | .encodeColour _ | .decodeCode _ _ => none
  | .sendcmd _ | .senddata _ | .rstpulse | .blset _ | .delay _ | .setwin _ _ _ _ | .stream _ => none
  | .writewin _ _ _ _ _ | .edge _ _ _ _ | .strict _ _ _ _ | .solid _ _ _ | .fonthdr _ | .dirent _ _ _ => none
  | .textwidth _ _ _ | .taalloc _ _ _ | .tagrow _ _ _ _ | .place _ _ _ _ _ _ _ _ _ => none

/-- The command byte and the data bytes of a wire command. -/
def encodeWire (c : Cfg) (i : Instr) : Option (List Byte) :=
  match wireParts c i with
  | some (k, data) => some (c.code k :: data)
  | none => none

end Sys2Proof
end

