-- ==== Sys2Proof/Machine/Operands.lean ====
section
/-! DEFINITION. Operand forms: how the fields of a descriptor become the values the rules use (30_encoding.md R102), the
byte splits of 00_scope.md R14, and register access by index (00_scope.md R13). -/

namespace Sys2Proof.Machine

/-- A coordinate or dimension: the 16 bits as two's complement, then a mathematical integer (30_encoding.md R102). -/
def coord (v : Word) : Int := v.toInt

/-- A rotation operand: legal values 0 to 3 (30_encoding.md R102). -/
def legalRotation (b : Byte) : Option (BitVec 2) := if b.toNat ≤ 3 then some (b.setWidth 2) else none

/-- A boolean operand: legal values 0 and 1 (30_encoding.md R102). -/
def legalBool (b : Byte) : Option Bool := if b = 0 then some false else if b = 1 then some true else none

/-- An alignment operand: 0 none, 1 left, 2 center, 3 right (30_encoding.md R102). -/
def legalAlign (b : Byte) : Option Align :=
  match b.toNat with
  | 0 => some .none
  | 1 => some .left
  | 2 => some .center
  | 3 => some .right
  | _ => none

/-- The reserved bits 7:4 of the flags byte are zero (30_encoding.md R102). -/
def legalFlags (b : Byte) : Bool := b >>> 4 == 0

/-- An operand that is present exactly when bit `n` of the flags byte is 1 (30_encoding.md R102, R103). -/
def optional {α : Type} (flags : Byte) (n : Nat) (v : α) : Option α := if flags.getLsbD n then some v else none

/-- `be16(v)`: high byte first (00_scope.md R14). For a value outside 0..65535 no rule states the two bytes: they are
the free value `Config.be16Other` (DESIGN CHOICE, log 8). -/
def be16 (v : Int) : List Byte :=
  if 0 ≤ v ∧ v ≤ 65535 then be16Bytes (BitVec.ofInt 16 v) else [(Config.be16Other v).1, (Config.be16Other v).2]

/-- `le24(b0, b1, b2)` (00_scope.md R14). -/
def le24 (b0 b1 b2 : Byte) : Nat := b0.toNat ||| (b1.toNat <<< 8) ||| (b2.toNat <<< 16)

/-- `rep(n, [hi, lo])` (00_scope.md R12). -/
def rep (n : Nat) (p : PixelCode) : List Byte := (List.replicate n [p.hi, p.lo]).flatten

/-- `x[i]`: DeviceState register `i`, as an unsigned value (00_scope.md R13, 10_state.md R21). -/
def DeviceState.get (ds : DeviceState) (i : Fin 6) : Nat :=
  match i.val with
  | 0 => ds.width.toNat
  | 1 => ds.height.toNat
  | 2 => ds.colstart.toNat
  | 3 => ds.rowstart.toNat
  | 4 => ds.rotation.toNat
  | _ => ds.inversion.toNat

/-- The numeric value of a protocol state (10_state.md R28). -/
def Fsm.value : Fsm → BitVec 2
  | .uninitialized => 0
  | .resetting     => 1
  | .initializing  => 2
  | .ready         => 3

end Sys2Proof.Machine
end

