-- ==== Sys2Proof/Machine/Panel.lean ====
section
/-! DEFINITION. The reference observer (45_wire_observer.md R301 to R305): how it reads one wire event. It "is not part
of the block and not a model of the ST7735". Where a rule makes a field unspecified the field takes a free value
(log 7). -/

namespace Sys2Proof.Machine

/-- The window becomes unspecified: four free values (45_wire_observer.md R302, R303; log 7). -/
def Panel.forgetWindow (p : Panel) : Panel :=
  { p with
    xs := Config.freeWord p.freeCount
    xe := Config.freeWord (p.freeCount + 1)
    ys := Config.freeWord (p.freeCount + 2)
    ye := Config.freeWord (p.freeCount + 3)
    freeCount := p.freeCount + 4 }

/-- `inv`, `disp` and `madctl` become unspecified: three free values (45_wire_observer.md R303; log 7). -/
def Panel.forgetMirrors (p : Panel) : Panel :=
  { p with
    inv := Config.freeBit p.freeCount
    disp := Config.freeBit (p.freeCount + 1)
    madctl := Config.freeByte (p.freeCount + 2)
    freeCount := p.freeCount + 3 }

/-- What every command byte does: it is remembered, the data count restarts, and only memory-write arms
(45_wire_observer.md R303). -/
def Panel.latch (c : Cfg) (b : Byte) (p : Panel) : Panel :=
  { p with lastcmd := some b, params := [], half := none, armed := b == c.code .ramwr }

/-- A command byte (45_wire_observer.md R303). Software reset leaves the written cells of the frame memory, which R303
does not name, as they are (DESIGN CHOICE, log 22). -/
def Panel.command (c : Cfg) (b : Byte) (p : Panel) : Panel :=
  if b = c.code .ramwr then { p.latch c b with px := p.xs, py := p.ys }
  else if b = c.code .invon then { p.latch c b with inv := true }
  else if b = c.code .invoff then { p.latch c b with inv := false }
  else if b = c.code .dispon then { p.latch c b with disp := true }
  else if b = c.code .dispoff then { p.latch c b with disp := false }
  else if b = c.code .swreset then ((p.latch c b).forgetWindow).forgetMirrors
  else p.latch c b

/-- The write pointer after a stored pixel (45_wire_observer.md R305). -/
def Panel.advance (p : Panel) : Panel :=
  if p.px.toNat + 1 ≤ p.xe.toNat then { p with px := p.px + 1 }
  else if p.py.toNat + 1 ≤ p.ye.toNat then { p with px := p.xs, py := p.py + 1 }
  else { p with px := p.xs, py := p.ys }

/-- A data byte of a pixel stream (45_wire_observer.md R304). -/
def Panel.pixelByte (b : Byte) (p : Panel) : Panel :=
  match p.half with
  | none => { p with half := some b }
  | some hi => Panel.advance { p with gram := p.gram.setPixel p.px p.py ⟨hi, b⟩, half := none }

/-- The column bounds, when the fourth data byte is in (45_wire_observer.md R304). -/
def Panel.setColumns (p : Panel) : Panel :=
  match p.params with
  | [b0, b1, b2, b3] => { p with xs := le16 b1 b0, xe := le16 b3 b2 }
  | _ => p

/-- The row bounds, when the fourth data byte is in (45_wire_observer.md R304). -/
def Panel.setRows (p : Panel) : Panel :=
  match p.params with
  | [b0, b1, b2, b3] => { p with ys := le16 b1 b0, ye := le16 b3 b2 }
  | _ => p

/-- The rotation byte, when the first data byte is in (45_wire_observer.md R304). -/
def Panel.setMadctl (p : Panel) : Panel :=
  match p.params with
  | [b] => { p with madctl := b }
  | _ => p

/-- A data byte (45_wire_observer.md R304). -/
def Panel.data (c : Cfg) (b : Byte) (p : Panel) : Panel :=
  match p.lastcmd with
  | none => { p with params := p.params ++ [b] }
  | some k =>
    if k = c.code .caset then Panel.setColumns { p with params := p.params ++ [b] }
    else if k = c.code .raset then Panel.setRows { p with params := p.params ++ [b] }
    else if k = c.code .madctl then Panel.setMadctl { p with params := p.params ++ [b] }
    else if k = c.code .ramwr then Panel.pixelByte b { p with params := p.params ++ [b] }
    else { p with params := p.params ++ [b] }

/-- One wire event, read with the level `dc` of the data/command line at that moment (45_wire_observer.md R302). The
hardware reset leaves what R302 does not name as it is: the written cells of the frame memory, the mirrors `inv`, `disp`
and `madctl`, the pointer, and the bytes received (DESIGN CHOICE, log 22). -/
def Panel.observe (c : Cfg) (dc : Bool) (e : WireEvent) (p : Panel) : Panel :=
  match e with
  | .tx b => if dc then p.data c b else p.command c b
  | .rst false => Panel.forgetWindow { p with armed := false, lastcmd := none }
  | .rst true | .sel | .desel | .dc _ | .bl _ | .delay _ => p

end Sys2Proof.Machine
end

