-- ==== Sys2Proof/Machine/Ops.lean ====
section
/-! DEFINITION. The shared operations: performing wire events against the transport's answers (00_scope.md R15,
40_transport.md R147), ending an operation with a status (60_exceptions.md R320), raising an error (R326), ending with a
`TransportError` (R328, R329), the `Ready` requirement (41_protocol.md R160), and fetching a descriptor from the host
port. -/

namespace Sys2Proof.Machine

/-- What a step answers. -/
abbrev Out := Host.Outcome State Fault Refusal

/-! ## State updates -/

/-- `fsm <- v` (10_state.md R28). -/
def State.setFsm (s : State) (v : Fsm) : State := { s with fsm := v }

/-- `DS <- v` (10_state.md R21). -/
def State.setDs (s : State) (v : DeviceState) : State := { s with ds := v }

/-- The rest of the transport's answers. -/
def State.setAnswers (s : State) (v : List Answer) : State := { s with answers := v }

/-- The rest of the bytes the host presents. -/
def State.setPort (s : State) (v : List Byte) : State := { s with port := v }

/-- The host receives a status and a result (00_scope.md R10). -/
def State.complete (s : State) (st : Status) (r : Result) : State := { s with completion := some ⟨st, r⟩ }

/-! ## Wire events -/

/-- The line registers after an event (10_state.md R31). -/
def Lines.drive (l : Lines) : WireEvent → Lines
  | .sel => { l with cs := false }
  | .desel => { l with cs := true }
  | .dc v => { l with dc := v }
  | .rst v => { l with rst := v }
  | .bl v => { l with bl := v }
  | .tx _ => l
  | .delay _ => l

/-- The panel receives an event, with the data/command line as the engine holds it: the panel's part of an event, and
all it ever does (00_scope.md R9.4, 45_wire_observer.md R302). -/
def State.receive (s : State) (e : WireEvent) : State := { s with panel := s.panel.observe s.cfg s.lines.dc e }

/-- The engine records a performed event: appended to the trace, the line register written (00_scope.md R15,
10_state.md R31). -/
def State.record (s : State) (e : WireEvent) : State := { s with trace := s.trace ++ [e], lines := s.lines.drive e }

/-- The event is performed: the panel has received it and the engine has recorded it. -/
def State.accept (s : State) (e : WireEvent) : State := (s.receive e).record e

/-- The state after some wire events, and whether the transport performed them all. -/
inductive Emitted
  | done (s : State)
  | failed (s : State)
deriving DecidableEq, Repr

/-- `emit e` (00_scope.md R15, 40_transport.md R147): *done* performs the event, *failed* leaves everything as it was.
An empty queue of answers answers *done* (DESIGN CHOICE, log 4). -/
def emit (e : WireEvent) (s : State) : Emitted :=
  match s.answers with
  | [] => .done (s.accept e)
  | .done :: rest => .done ((s.setAnswers rest).accept e)
  | .failed :: rest => .failed (s.setAnswers rest)

/-- A wire program (10_state.md R29): its events in order, stopping at the first that fails. -/
def emitAll : List WireEvent → State → Emitted
  | [], s => .done s
  | e :: es, s =>
    match emit e s with
    | .done s' => emitAll es s'
    | .failed s' => .failed s'

/-- Go on from a state after which nothing has failed. -/
def Emitted.andThen (e : Emitted) (k : State → Emitted) : Emitted :=
  match e with
  | .done s => k s
  | .failed s => .failed s

/-- A last register write after the last event. -/
def Emitted.after (e : Emitted) (k : State → State) : Emitted :=
  match e with
  | .done s => .done (k s)
  | .failed s => .failed s

/-! ## Ending an operation -/

/-- An error raised before the first event: the status goes to the host and nothing else changes
(60_exceptions.md R326); a panel that is write-armed stays so (log 25). -/
def raise (e : Raise) (s : State) : Out := .next (s.complete e.status .none)

/-- The status and a result go to the host and nothing else changes (00_scope.md R15, `return`); a
panel that is write-armed stays so (log 25). -/
def respond (r : Result) (s : State) : Out := .next (s.complete .ok r)

/-- A failed event ends the operation: the status goes to the host, what was written stays written, and the run is
marked (60_exceptions.md R328, R329). -/
def transportError (s : State) : Out := .next ((s.setFaulted true).complete .transportError .none)

/-- An operation that ends after its wire events (00_scope.md R10). -/
def finish : Emitted → Out
  | .done s => respond .none s
  | .failed s => transportError s

/-- A wire program that is all an operation does. -/
def runProgram (es : List WireEvent) (s : State) : Out := finish (emitAll es s)

/-- The `Ready` requirement: refused in any other protocol state (41_protocol.md R160). -/
def whenReady (s : State) (k : Out) : Out := if s.fsm = .ready then k else .refused .notReady

/-! ## The host port -/

/-- What stands at the host port. -/
inductive Fetched
  /-- Nothing is presented. -/
  | idle
  /-- The bytes spell no operation. -/
  | bad (r : Refusal)
  /-- An operation, and the state with its descriptor taken. -/
  | got (i : Instr) (s : State)
deriving DecidableEq, Repr

/-- The next operation the host presents (00_scope.md R10; 30_encoding.md R107 a; log 2). -/
def fetch (s : State) : Fetched :=
  match decode s.port with
  | .ok (i, rest) => .got i (s.setPort rest)
  | .error .noByte => .idle
  | .error (.reservedOpcode b) => .bad (.reservedOpcode b)
  | .error .shortDescriptor => .bad .shortDescriptor

end Sys2Proof.Machine
end

