-- ==== Sys2Proof/Machine/Codec.lean ====
section
/-! DEFINITION. The Pixel Codec (42_codec.md): a pure function each way, accepted in every protocol state. -/

namespace Sys2Proof.Machine

/-- The 16-bit code of a colour: `bits[15:11]`, `bits[10:5]`, `bits[4:0]` are the top 5, 6 and 5 bits of the channels
(42_codec.md R200). -/
def colourCode (c : Colour) : Word :=
  ((c.r >>> 3).setWidth 16 <<< 11) ||| ((c.g >>> 2).setWidth 16 <<< 5) ||| (c.b >>> 3).setWidth 16

/-- ENCODE(color): the code's high and low byte (42_codec.md R200). -/
def codecEncode (c : Colour) : PixelCode := ⟨highByte (colourCode c), lowByte (colourCode c)⟩

/-- DECODE(hi, lo): each field at the top of its channel, the lost bits zero (42_codec.md R201). -/
def codecDecode (p : PixelCode) : Colour where
  r := (((le16 p.lo p.hi >>> 11) &&& 0x1F) <<< 3).setWidth 8
  g := (((le16 p.lo p.hi >>> 5) &&& 0x3F) <<< 2).setWidth 8
  b := ((le16 p.lo p.hi &&& 0x1F) <<< 3).setWidth 8

/-- ENCODE color (42_codec.md R200). -/
def execEncodeColour (c : Colour) (s : State) : Out := respond (.code (codecEncode c)) s

/-- DECODE hi, lo (42_codec.md R201). -/
def execDecodeCode (hi lo : Byte) (s : State) : Out := respond (.colour (codecDecode ⟨hi, lo⟩)) s

end Sys2Proof.Machine
end

