-- ==== Sys2Proof/Machine/Transport.lean ====
section
/-! DEFINITION. The Transport Adapter (40_transport.md): command and data brackets, the reset pulse, the backlight and
the delay, as wire programs and as micro-operations. -/

namespace Sys2Proof.Machine

/-- A command frame (40_transport.md R141, 30_encoding.md R110). -/
def cmdFrame (code : Byte) : List WireEvent := [.sel, .dc false, .tx code, .desel]

/-- A data frame (40_transport.md R142, R148, 30_encoding.md R110). -/
def dataFrame (bytes : List Byte) : List WireEvent := [.sel, .dc true] ++ bytes.map .tx ++ [.desel]

/-- The reset pulse (40_transport.md R144). Both delays stand in it whatever their value (log 15). -/
def rstPulse (c : Cfg) : List WireEvent :=
  if c.hasRst then [.rst false, .delay c.tRstLow, .rst true, .delay c.tRstHigh] else []

/-- The backlight pin (40_transport.md R145). -/
def blProgram (c : Cfg) (v : Bool) : List WireEvent := if c.hasBl then [.bl v] else []

/-- A delay of `n`: one event, and none for 0 (40_transport.md R146; log 15). -/
def delayProgram (n : Nat) : List WireEvent := if 0 < n then [.delay n] else []

/-- A command frame and, when there are data bytes, their data frame (41_protocol.md R162). -/
def commandProgram (code : Byte) (data : List Byte) : List WireEvent :=
  cmdFrame code ++ (if data.isEmpty then [] else dataFrame data)

/-- SENDCMD(code) (40_transport.md R141). -/
def execSendcmd (code : Byte) (s : State) : Out := runProgram (cmdFrame code) s

/-- SENDDATA(bytes) (40_transport.md R142, R148). -/
def execSenddata (bytes : List Byte) (s : State) : Out := runProgram (dataFrame bytes) s

/-- RSTPULSE (40_transport.md R144). -/
def execRstpulse (s : State) : Out := runProgram (rstPulse s.cfg) s

/-- BLSET(v) (40_transport.md R145). -/
def execBlset (v : Bool) (s : State) : Out := runProgram (blProgram s.cfg v) s

/-- DELAY(n) (40_transport.md R146). -/
def execDelay (n : Nat) (s : State) : Out := runProgram (delayProgram n) s

end Sys2Proof.Machine
end

