-- ==== Sys2Proof/Machine/Protocol.lean ====
section
/-! DEFINITION. The Protocol Driver (41_protocol.md): reset and construction, rotation, the address window, the pixel
stream, and the toggles. -/

namespace Sys2Proof.Machine

/-- One entry of `INIT_TABLE` (41_protocol.md R162). -/
def entryProgram (e : InitEntry) : List WireEvent := commandProgram e.cmd e.data ++ delayProgram e.delay

/-- The register-configuration sequence (41_protocol.md R162). -/
def initProgram (c : Cfg) : List WireEvent := c.initTable.flatMap entryProgram

/-- RESET up to its status (41_protocol.md R162): a success clears the mark of a faulted run (60_exceptions.md R329). -/
def resetSequence (s : State) : Emitted :=
  (((emitAll (rstPulse s.cfg) (s.setFsm .resetting)).after (fun t => t.setFsm .initializing)).andThen
    (fun t => emitAll (initProgram s.cfg) t)).after
    (fun t => ((t.setInversion true).setFsm .ready).setFaulted false)

/-- The frames of SETROT (41_protocol.md R167). -/
def rotProgram (c : Cfg) (r : BitVec 2) : List WireEvent := cmdFrame (c.code .madctl) ++ dataFrame [(c.rot r).madctl]

/-- `DS` after SETROT: size, offsets and rotation from the tuple; the inversion flag kept (41_protocol.md R167). -/
def DeviceState.rotate (c : Cfg) (r : BitVec 2) (ds : DeviceState) : DeviceState where
  width     := if (c.rot r).swap then c.h0 else c.w0
  height    := if (c.rot r).swap then c.w0 else c.h0
  colstart  := (c.rot r).colstart
  rowstart  := (c.rot r).rowstart
  rotation  := r
  inversion := ds.inversion

/-- SETROT of a legal rotation up to its status (41_protocol.md R167): `DS` is written after the frames. -/
def rotSequence (r : BitVec 2) (s : State) : Emitted :=
  (emitAll (rotProgram s.cfg r) s).after (fun t => t.setDs (t.ds.rotate t.cfg r))

/-- The frames of SETWIN: the offsets are added here and nowhere else (41_protocol.md R169). -/
def winProgram (c : Cfg) (ds : DeviceState) (x0 y0 x1 y1 : Int) : List WireEvent :=
  cmdFrame (c.code .caset) ++ dataFrame (be16 (x0 + ds.colstart.toNat) ++ be16 (x1 + ds.colstart.toNat)) ++
  cmdFrame (c.code .raset) ++ dataFrame (be16 (y0 + ds.rowstart.toNat) ++ be16 (y1 + ds.rowstart.toNat)) ++
  cmdFrame (c.code .ramwr)

/-- The frames of WRITEWIN: the window, then the stream (41_protocol.md R170, R171). -/
def writeProgram (c : Cfg) (ds : DeviceState) (x y w h : Int) (buf : List Byte) : List WireEvent :=
  winProgram c ds x y (x + w - 1) (y + h - 1) ++ dataFrame buf

/-- CONSTRUCT r (41_protocol.md R161). -/
def execConstruct (r : Byte) (s : State) : Out :=
  match legalRotation r with
  | none => raise .invalidArgument s
  | some v => finish ((resetSequence s).andThen (rotSequence v))

/-- RESET (41_protocol.md R162). -/
def execReset (s : State) : Out := finish (resetSequence s)

/-- ON (41_protocol.md R173). -/
def execTurnOn (s : State) : Out := whenReady s (runProgram (cmdFrame (s.cfg.code .dispon)) s)

/-- OFF (41_protocol.md R175). -/
def execTurnOff (s : State) : Out := whenReady s (runProgram (cmdFrame (s.cfg.code .dispoff)) s)

/-- SETROT r (41_protocol.md R167). -/
def execSetrot (r : Byte) (s : State) : Out :=
  whenReady s <|
    match legalRotation r with
    | none => raise .invalidArgument s
    | some v => finish (rotSequence v s)

/-- SETBL on (41_protocol.md R172). It leaves the panel write-armed or not as it was, since `BL` changes nothing there
(45_wire_observer.md R302; DESIGN CHOICE against R307's last sentence, log 25). -/
def execSetbl (v : Byte) (s : State) : Out :=
  whenReady s <|
    match legalBool v with
    | none => raise .invalidArgument s
    | some on => runProgram (blProgram s.cfg on) s

/-- SETINV on (41_protocol.md R174): the flag is written after the frame. -/
def execSetinv (v : Byte) (s : State) : Out :=
  whenReady s <|
    match legalBool v with
    | none => raise .invalidArgument s
    | some on =>
      finish ((emitAll (cmdFrame (s.cfg.code (if on then .invon else .invoff))) s).after (fun t => t.setInversion on))

/-- SETWIN(x0, y0, x1, y1) (41_protocol.md R169). -/
def execSetwin (x0 y0 x1 y1 : Int) (s : State) : Out := runProgram (winProgram s.cfg s.ds x0 y0 x1 y1) s

/-- STREAM(buf) (41_protocol.md R171). -/
def execStream (buf : List Byte) (s : State) : Out := runProgram (dataFrame buf) s

/-- WRITEWIN(x, y, w, h, buf) (41_protocol.md R170). -/
def execWritewin (x y w h : Int) (buf : List Byte) (s : State) : Out := runProgram (writeProgram s.cfg s.ds x y w h buf) s

end Sys2Proof.Machine
end

