-- ==== Sys2Proof/Machine/Shapes.lean ====
section
/-! DEFINITION. The Shape Rasterizer (43_shapes.md): the edge policy, the strict check, solid buffers, and the shape
operations: validate, build the whole buffer, write the window (R210). -/

namespace Sys2Proof.Machine

/-- EDGE on a screen of `w0` by `h0`: reject, clamp, truncate, in this order (43_shapes.md R211). -/
def edgePolicy (w0 h0 : Int) (q : Rect) : Except Raise Rect :=
  if q.x < 0 ∨ q.y < 0 then .error .invalidArgument
  else if q.w ≤ 0 ∨ q.h ≤ 0 then .error .invalidArgument
  else if q.x > w0 ∨ q.y > h0 then .error .invalidArgument
  else
    let x := if q.x = w0 then w0 - 1 else q.x
    let y := if q.y = h0 then h0 - 1 else q.y
    let w := if x + q.w > w0 then w0 - x else q.w
    let h := if y + q.h > h0 then h0 - y else q.h
    .ok ⟨x, y, w, h⟩

/-- STRICT on a screen of `w0` by `h0` (43_shapes.md R212). -/
def strictCheck (w0 h0 : Int) (q : Rect) : Except Raise Unit :=
  if q.x < 0 ∨ q.y < 0 then .error .invalidArgument
  else if q.w ≤ 0 ∨ q.h ≤ 0 then .error .invalidArgument
  else if q.x + q.w > w0 then .error .invalidArgument
  else if q.y + q.h > h0 then .error .invalidArgument
  else .ok ()

/-- `DS.width` as an integer. -/
def State.screenW (s : State) : Int := s.ds.width.toNat

/-- `DS.height` as an integer. -/
def State.screenH (s : State) : Int := s.ds.height.toNat

/-- SOLID(w, h, color): the colour is encoded once (43_shapes.md R214). -/
def solidBuffer (w h : Nat) (c : Colour) : List Byte := rep (w * h) (codecEncode c)

/-- The common shape of the solid operations: EDGE, SOLID, WRITEWIN (43_shapes.md R210, R220). -/
def fillProgram (q : Rect) (c : Colour) (s : State) : Out :=
  match edgePolicy s.screenW s.screenH q with
  | .error e => raise e s
  | .ok r => runProgram (writeProgram s.cfg s.ds r.x r.y r.w r.h (solidBuffer r.w.toNat r.h.toNat c)) s

/-- FILLRECT x, y, w, h, color (43_shapes.md R220). -/
def execFillrect (x y w h : Word) (c : Colour) (s : State) : Out :=
  whenReady s (fillProgram ⟨coord x, coord y, coord w, coord h⟩ c s)

/-- DRAWPIXEL x, y, color (43_shapes.md R222). -/
def execDrawpixel (x y : Word) (c : Colour) (s : State) : Out :=
  whenReady s (fillProgram ⟨coord x, coord y, 1, 1⟩ c s)

/-- DRAWLINE x, y, length, color: the truncated length is the window's and the buffer's (43_shapes.md R224). -/
def execDrawline (x y len : Word) (c : Colour) (s : State) : Out :=
  whenReady s (fillProgram ⟨coord x, coord y, coord len, 1⟩ c s)

/-- DRAWIMAGE x, y, w, h, IMG: strict bounds, then the length check; the bytes pass unchanged (43_shapes.md R226). -/
def execDrawimage (x y w h : Word) (img : List Byte) (s : State) : Out :=
  whenReady s <|
    match strictCheck s.screenW s.screenH ⟨coord x, coord y, coord w, coord h⟩ with
    | .error e => raise e s
    | .ok () =>
      if (img.length : Int) ≠ 2 * coord w * coord h then raise .invalidArgument s
      else runProgram (writeProgram s.cfg s.ds (coord x) (coord y) (coord w) (coord h) img) s

/-- FILLSCREEN color (43_shapes.md R228). -/
def execFillscreen (c : Colour) (s : State) : Out := whenReady s (fillProgram ⟨0, 0, s.screenW, s.screenH⟩ c s)

/-- CLEAR: black (43_shapes.md R229). -/
def execClear (s : State) : Out := whenReady s (fillProgram ⟨0, 0, s.screenW, s.screenH⟩ ⟨0, 0, 0⟩ s)

/-- EDGE(x, y, w, h) (43_shapes.md R211). -/
def execEdge (x y w h : Int) (s : State) : Out :=
  match edgePolicy s.screenW s.screenH ⟨x, y, w, h⟩ with
  | .error e => raise e s
  | .ok r => respond (.rect r) s

/-- STRICT(x, y, w, h) (43_shapes.md R212). -/
def execStrict (x y w h : Int) (s : State) : Out :=
  match strictCheck s.screenW s.screenH ⟨x, y, w, h⟩ with
  | .error e => raise e s
  | .ok () => respond .none s

/-- SOLID(w, h, color) (43_shapes.md R214). -/
def execSolid (w h : Nat) (c : Colour) (s : State) : Out := respond (.bytes (solidBuffer w h c)) s

end Sys2Proof.Machine
end

