-- ==== Sys2Proof/Machine/Text.lean ====
section
/-! DEFINITION. The Text Rasterizer (44_text.md): font header and directory, measuring, the text area, glyph placement,
layout, and the operations MEASURE and DRAWTEXT. -/

namespace Sys2Proof.Machine

/-! ## Font table -/

/-- FONTHDR(FONT) (44_text.md R251, 20_memory.md R68). -/
def fontHeader (font : List Byte) : Except Raise FontHdr :=
  match font with
  | _ :: _ :: f0 :: f1 :: l0 :: l1 :: gh :: _ =>
    if (le16 l0 l1).toNat < (le16 f0 f1).toNat then .error .fontError
    else if gh = 0 then .error .fontError
    else .ok ⟨le16 f0 f1, le16 l0 l1, gh⟩
  | _ => .error .fontError

/-- The number of directory entries `N = last - first + 1` (20_memory.md R67). -/
def fontCount (h : FontHdr) : Nat := h.last.toNat - h.first.toNat + 1

/-- The address of a code's directory entry (20_memory.md R70). -/
def dirAddr (c : Cfg) (h : FontHdr) (code : Word) : Nat := c.fontDirBase + 4 * (code.toNat - h.first.toNat)

/-- `BITMAP_BASE` (20_memory.md R67). -/
def bitmapBase (c : Cfg) (h : FontHdr) : Nat := c.fontDirBase + 4 * fontCount h

/-- DIRENT(FONT, hdr, code): the glyph's width and the address of its bitmap (44_text.md R253, 20_memory.md R70, R71). -/
def dirEntry (c : Cfg) (font : List Byte) (h : FontHdr) (code : Word) : Except Raise (Nat × Nat) :=
  if code.toNat < h.first.toNat ∨ h.last.toNat < code.toNat then .error .glyphError
  else
    match fontRead font (dirAddr c h code), fontRead font (dirAddr c h code + 1),
      fontRead font (dirAddr c h code + 2), fontRead font (dirAddr c h code + 3) with
    | .ok gw, .ok b0, .ok b1, .ok b2 => .ok (gw.toNat, bitmapBase c h + le24 b0 b1 b2)
    | _, _, _, _ => .error .fontError

/-- The sum `s` of TEXTWIDTH: a glyph width and one pixel for each character, in text order (44_text.md R252). -/
def widthSum (c : Cfg) (font : List Byte) (h : FontHdr) : List Word → Except Raise Nat
  | [] => .ok 0
  | code :: txt =>
    match dirEntry c font h code with
    | .error e => .error e
    | .ok (gw, _) =>
      match widthSum c font h txt with
      | .error e => .error e
      | .ok n => .ok (gw + 1 + n)

/-- TEXTWIDTH(TXT, FONT, hdr): 0 for the empty text, else the sum less the trailing pixel (44_text.md R252). -/
def textWidth (c : Cfg) (font : List Byte) (h : FontHdr) (txt : List Word) : Except Raise Nat :=
  match txt with
  | [] => .ok 0
  | _ :: _ =>
    match widthSum c font h txt with
    | .error e => .error e
    | .ok n => .ok (n - 1)

/-- MEASURE (44_text.md R254). -/
def measureText (c : Cfg) (txt : List Word) (font : List Byte) : Except Raise Nat :=
  match fontHeader font with
  | .error e => .error e
  | .ok h => textWidth c font h txt

/-! ## The text area -/

/-- A buffer of `w` by `h` pixels, row-major, top row first, high byte first (20_memory.md R74, R62). -/
def areaBuffer (w h : Nat) (f : Nat → Nat → PixelCode) : List Byte :=
  (List.range h).flatMap fun r => (List.range w).flatMap fun c => [(f c r).hi, (f c r).lo]

/-- Byte `k` of an area's buffer (44_text.md R262). Where the buffer ends before it no rule states the byte: it is the
free value `Config.areaByte` (DESIGN CHOICE, log 16). -/
def areaByte (ta : TextArea) (k : Nat) : Byte := ta.buf.getD k (Config.areaByte ta k)

/-- The pixel of an area at column `c`, row `r` (20_memory.md R74). -/
def areaPixel (ta : TextArea) (c r : Nat) : PixelCode :=
  ⟨areaByte ta (2 * (r * ta.w + c)), areaByte ta (2 * (r * ta.w + c) + 1)⟩

/-- TAALLOC(w, h, bg16) (44_text.md R262). A height of 0, which R262 excludes, gives the empty area of the pseudocode
(DESIGN CHOICE, log 16). -/
def areaAlloc (w h : Nat) (bg : PixelCode) : TextArea := ⟨w, h, rep (w * h) bg⟩

/-- TAGROW(TA, nw, nh, bg16): old pixels keep their place, new ones take the background (44_text.md R263). -/
def areaGrow (ta : TextArea) (nw nh : Nat) (bg : PixelCode) : TextArea :=
  ⟨nw, nh, areaBuffer nw nh fun c r => if c < ta.w ∧ r < ta.h then areaPixel ta c r else bg⟩

/-- TAGROW for any new size. Below the old size, which 44_text.md R263 excludes, the area still has the new size and two
bytes a pixel, and every byte is the free value `Config.tagrowByte` (DESIGN CHOICE, log 16). -/
def areaResize (ta : TextArea) (nw nh : Nat) (bg : PixelCode) : TextArea :=
  if ta.w ≤ nw ∧ ta.h ≤ nh then areaGrow ta nw nh bg
  else ⟨nw, nh, (List.range (2 * nw * nh)).map (Config.tagrowByte ta nw nh bg)⟩

/-- Bit `k` of a glyph's bitstream: least significant first, one continuous stream (20_memory.md R72). -/
def glyphBit (font : List Byte) (gbase k : Nat) : Except Raise Bool :=
  match fontRead font (gbase + k / 8) with
  | .ok b => .ok (b.getLsbD (k % 8))
  | .error e => .error e

/-- The first `n` bits from index `k` of a glyph's bitstream; `FontError` where the table ends first
(20_memory.md R72, R61). -/
def glyphBits (font : List Byte) (gbase : Nat) : Nat → Nat → Except Raise (List Bool)
  | _, 0 => .ok []
  | k, n + 1 =>
    match glyphBit font gbase k with
    | .error e => .error e
    | .ok b =>
      match glyphBits font gbase (k + 1) n with
      | .error e => .error e
      | .ok bs => .ok (b :: bs)

/-- The glyph's pixels over an area that already holds its cell; the pixel at column `c`, row `r` of the cell is bit
`r + c * gh` (44_text.md R264, 20_memory.md R72). The writes are in place: bytes a buffer has past its last pixel stay
(log 16). -/
def areaStamp (ta : TextArea) (cx cy gw gh : Nat) (bits : List Bool) (fg bg : PixelCode) : TextArea :=
  ⟨ta.w, ta.h, (areaBuffer ta.w ta.h fun c r =>
    if cx ≤ c ∧ c < cx + gw ∧ cy ≤ r ∧ r < cy + gh then
      (if bits.getD ((r - cy) + (c - cx) * gh) false then fg else bg)
    else areaPixel ta c r) ++ ta.buf.drop (2 * ta.w * ta.h)⟩

/-- An area grown to hold a glyph cell, if it does not hold it yet (44_text.md R264). -/
def areaFit (ta : TextArea) (cx cy gw gh : Nat) (bg : PixelCode) : TextArea :=
  if max ta.w (cx + gw) ≠ ta.w ∨ max ta.h (cy + gh) ≠ ta.h then
    areaGrow ta (max ta.w (cx + gw)) (max ta.h (cy + gh)) bg
  else ta

/-- PLACE: a glyph of width 0 places nothing and grows nothing (44_text.md R264). -/
def placeGlyph (ta : TextArea) (cx cy gw gh gbase : Nat) (fg bg : PixelCode) (font : List Byte) : Except Raise TextArea :=
  if gw = 0 then .ok ta
  else
    match glyphBits font gbase 0 (gw * gh) with
    | .error e => .error e
    | .ok bits => .ok (areaStamp (areaFit ta cx cy gw gh bg) cx cy gw gh bits fg bg)

/-! ## Layout -/

/-- The starting column of an alignment (44_text.md R261): floor division, clamped at 0. -/
def alignOffset (a : Align) (bw tw : Int) : Nat :=
  match a with
  | .none | .left => 0
  | .right => (max 0 (bw - tw)).toNat
  | .center => (max 0 ((bw - tw) / 2)).toNat

/-- The starting row (44_text.md R261). -/
def rowOffset (bh gh : Int) : Nat := (max 0 ((bh - gh) / 2)).toNat

/-- Step 7 of DRAWTEXT: the characters placed in text order, the cursor advancing by width and one pixel
(44_text.md R265, R270). -/
def placeText (c : Cfg) (font : List Byte) (h : FontHdr) (yoff : Nat) (fg bg : PixelCode) :
    List Word → Nat → TextArea → Except Raise TextArea
  | [], _, ta => .ok ta
  | code :: txt, cx, ta =>
    match dirEntry c font h code with
    | .error e => .error e
    | .ok (gw, gbase) =>
      match placeGlyph ta cx yoff gw h.gh.toNat gbase fg bg font with
      | .error e => .error e
      | .ok ta' => placeText c font h yoff fg bg txt (cx + gw + 1) ta'

/-- The operands of DRAWTEXT after step 0: legal alignment, and the optional operands present or absent
(44_text.md R270, 30_encoding.md R102). -/
structure TextOp where
  x     : Int
  y     : Int
  w     : Option Int
  h     : Option Int
  align : Align
  fg    : Option Colour
  bg    : Option Colour
  txt   : List Word
  font  : List Byte
deriving DecidableEq, Repr

/-- An explicit size is not positive (44_text.md R270 step 3). -/
def badSize (v : Option Int) : Bool :=
  match v with
  | some n => decide (n ≤ 0)
  | none => false

/-- Step 3 of DRAWTEXT: negative origin, or an explicit size that is not positive (44_text.md R270). -/
def TextOp.badGeometry (o : TextOp) : Bool := decide (o.x < 0 ∨ o.y < 0) || badSize o.w || badSize o.h

/-- Steps 4 to 7 of DRAWTEXT: the composed area (44_text.md R260, R261, R265, R266, R270). -/
def TextOp.compose (o : TextOp) (c : Cfg) (h : FontHdr) (tw : Nat) : Except Raise TextArea :=
  let bw : Int := o.w.getD tw
  let bh : Int := o.h.getD h.gh.toNat
  let fg := codecEncode (o.fg.getD c.defaultFg)
  let bg := codecEncode (o.bg.getD c.defaultBg)
  placeText c o.font h (rowOffset bh h.gh.toNat) fg bg o.txt (alignOffset o.align bw tw)
    (areaAlloc bw.toNat bh.toNat bg)

/-- Step 8 of DRAWTEXT: the final area is empty or not wholly on the screen (44_text.md R269). -/
def TextOp.outOfScreen (o : TextOp) (ds : DeviceState) (ta : TextArea) : Bool :=
  decide (ta.w = 0 ∨ ta.h = 0) || decide (o.x + ta.w > ds.width.toNat) || decide (o.y + ta.h > ds.height.toNat)

/-- Steps 1 to 8 of DRAWTEXT: the area to be sent, or the first error in step order (44_text.md R270,
60_exceptions.md R325). -/
def TextOp.layout (o : TextOp) (c : Cfg) (ds : DeviceState) : Except Raise TextArea :=
  match fontHeader o.font with
  | .error e => .error e
  | .ok h =>
    match textWidth c o.font h o.txt with
    | .error e => .error e
    | .ok tw =>
      if o.badGeometry then .error .invalidArgument
      else
        match o.compose c h tw with
        | .error e => .error e
        | .ok ta => if o.outOfScreen ds ta then .error .invalidArgument else .ok ta

/-- Step 0 of DRAWTEXT (44_text.md R270, 30_encoding.md R107 b). -/
def textOperands (flags : Byte) (x y w h : Word) (align : Byte) (fg bg : Colour) (txt : List Word) (font : List Byte) :
    Except Raise TextOp :=
  if legalFlags flags then
    match legalAlign align with
    | none => .error .invalidArgument
    | some a =>
      .ok ⟨coord x, coord y, optional flags 0 (coord w), optional flags 1 (coord h), a, optional flags 2 fg,
        optional flags 3 bg, txt, font⟩
  else .error .invalidArgument

/-! ## Operations -/

/-- DRAWTEXT (44_text.md R270): step 9 writes the window of the area's final size. -/
def execDrawtext (flags : Byte) (x y w h : Word) (align : Byte) (fg bg : Colour) (txt : List Word) (font : List Byte)
    (s : State) : Out :=
  whenReady s <|
    match textOperands flags x y w h align fg bg txt font with
    | .error e => raise e s
    | .ok o =>
      match o.layout s.cfg s.ds with
      | .error e => raise e s
      | .ok ta => runProgram (writeProgram s.cfg s.ds o.x o.y ta.w ta.h ta.buf) s

/-- MEASURE TXT, FONT (44_text.md R254). -/
def execMeasure (txt : List Word) (font : List Byte) (s : State) : Out :=
  match measureText s.cfg txt font with
  | .error e => raise e s
  | .ok n => respond (.width n) s

/-- FONTHDR(FONT) (44_text.md R251). -/
def execFonthdr (font : List Byte) (s : State) : Out :=
  match fontHeader font with
  | .error e => raise e s
  | .ok h => respond (.header h) s

/-- DIRENT(FONT, hdr, code) (44_text.md R253). -/
def execDirent (font : List Byte) (hdr : FontHdr) (code : Word) (s : State) : Out :=
  match dirEntry s.cfg font hdr code with
  | .error e => raise e s
  | .ok (gw, gbase) => respond (.glyph gw gbase) s

/-- TEXTWIDTH(TXT, FONT, hdr) (44_text.md R252). -/
def execTextwidth (txt : List Word) (font : List Byte) (hdr : FontHdr) (s : State) : Out :=
  match textWidth s.cfg font hdr txt with
  | .error e => raise e s
  | .ok n => respond (.width n) s

/-- TAALLOC(w, h, bg16), for any width and height (44_text.md R262; log 16). -/
def execTaalloc (w h : Nat) (bg : PixelCode) (s : State) : Out := respond (.area (areaAlloc w h bg)) s

/-- TAGROW(TA, nw, nh, bg16), for any area and size (44_text.md R263; log 16). -/
def execTagrow (ta : TextArea) (nw nh : Nat) (bg : PixelCode) (s : State) : Out :=
  respond (.area (areaResize ta nw nh bg)) s

/-- PLACE(TA, cx, cy, gw, gh, gbase, fg16, bg16), into any area (44_text.md R264; log 16). -/
def execPlace (ta : TextArea) (cx cy gw gh gbase : Nat) (fg bg : PixelCode) (font : List Byte) (s : State) : Out :=
  match placeGlyph ta cx cy gw gh gbase fg bg font with
  | .error e => raise e s
  | .ok ta' => respond (.area ta') s

end Sys2Proof.Machine
end

