-- ==== Sys2Proof/Machine/Wire.lean ====
section
/-! DEFINITION. The wire commands (30_encoding.md R104): the command frame with the configuration's code, then the data
frame R104 gives the command. What the panel side makes of them is the observer's reading (45_wire_observer.md R303,
R304). As operations of their own they are DESIGN CHOICE (log 11): the block emits them only from inside its host
operations, with `ROT[r].madctl` and the bytes of `INIT_TABLE`, and alone they take any rotation byte and any data. -/

namespace Sys2Proof.Machine

/-- A wire command with its data bytes (30_encoding.md R104, R110). -/
def sendCommand (k : WireCmd) (data : List Byte) (s : State) : Out := runProgram (commandProgram (s.cfg.code k) data) s

/-- software-reset (30_encoding.md R104). -/
def execCmdSwreset (s : State) : Out := sendCommand .swreset [] s

/-- sleep-out (30_encoding.md R104). -/
def execCmdSlpout (s : State) : Out := sendCommand .slpout [] s

/-- normal-display-on (30_encoding.md R104). -/
def execCmdNoron (s : State) : Out := sendCommand .noron [] s

/-- display-inversion-off (30_encoding.md R104). -/
def execCmdInvoff (s : State) : Out := sendCommand .invoff [] s

/-- display-inversion-on (30_encoding.md R104). -/
def execCmdInvon (s : State) : Out := sendCommand .invon [] s

/-- display-off (30_encoding.md R104). -/
def execCmdDispoff (s : State) : Out := sendCommand .dispoff [] s

/-- display-on (30_encoding.md R104). -/
def execCmdDispon (s : State) : Out := sendCommand .dispon [] s

/-- column-address-set: start bound, then end bound, high byte first (30_encoding.md R104, R111). -/
def execCmdCaset (x0 x1 : Word) (s : State) : Out := sendCommand .caset (be16Bytes x0 ++ be16Bytes x1) s

/-- row-address-set: start bound, then end bound, high byte first (30_encoding.md R104, R111). -/
def execCmdRaset (y0 y1 : Word) (s : State) : Out := sendCommand .raset (be16Bytes y0 ++ be16Bytes y1) s

/-- memory-write, then the pixel stream when there is one (30_encoding.md R104). -/
def execCmdRamwr (pixels : List Byte) (s : State) : Out := sendCommand .ramwr pixels s

/-- rotation/mirror-control, with any byte (30_encoding.md R104; DESIGN CHOICE, log 11). -/
def execCmdMadctl (b : Byte) (s : State) : Out := sendCommand .madctl [b] s

/-- color-mode with `COLMOD_16BPP` (30_encoding.md R104). -/
def execCmdColmod (s : State) : Out := sendCommand .colmod [s.cfg.colmod16bpp] s

/-- frame-rate 1 of 3, with any data (30_encoding.md R104; DESIGN CHOICE, log 11). -/
def execCmdFrmctr1 (data : List Byte) (s : State) : Out := sendCommand .frmctr1 data s

/-- frame-rate 2 of 3, with any data (30_encoding.md R104; DESIGN CHOICE, log 11). -/
def execCmdFrmctr2 (data : List Byte) (s : State) : Out := sendCommand .frmctr2 data s

/-- frame-rate 3 of 3, with any data (30_encoding.md R104; DESIGN CHOICE, log 11). -/
def execCmdFrmctr3 (data : List Byte) (s : State) : Out := sendCommand .frmctr3 data s

/-- display-inversion-ctrl, with any data (30_encoding.md R104; DESIGN CHOICE, log 11). -/
def execCmdInvctr (data : List Byte) (s : State) : Out := sendCommand .invctr data s

/-- power-ctrl 1 of 5, with any data (30_encoding.md R104; DESIGN CHOICE, log 11). -/
def execCmdPwctr1 (data : List Byte) (s : State) : Out := sendCommand .pwctr1 data s

/-- power-ctrl 2 of 5, with any data (30_encoding.md R104; DESIGN CHOICE, log 11). -/
def execCmdPwctr2 (data : List Byte) (s : State) : Out := sendCommand .pwctr2 data s

/-- power-ctrl 3 of 5, with any data (30_encoding.md R104; DESIGN CHOICE, log 11). -/
def execCmdPwctr3 (data : List Byte) (s : State) : Out := sendCommand .pwctr3 data s

/-- power-ctrl 4 of 5, with any data (30_encoding.md R104; DESIGN CHOICE, log 11). -/
def execCmdPwctr4 (data : List Byte) (s : State) : Out := sendCommand .pwctr4 data s

/-- power-ctrl 5 of 5, with any data (30_encoding.md R104; DESIGN CHOICE, log 11). -/
def execCmdPwctr5 (data : List Byte) (s : State) : Out := sendCommand .pwctr5 data s

/-- VCOM-ctrl, with any data (30_encoding.md R104; DESIGN CHOICE, log 11). -/
def execCmdVmctr1 (data : List Byte) (s : State) : Out := sendCommand .vmctr1 data s

/-- gamma table, positive, with any data (30_encoding.md R104; DESIGN CHOICE, log 11). -/
def execCmdGmctrp1 (data : List Byte) (s : State) : Out := sendCommand .gmctrp1 data s

/-- gamma table, negative, with any data (30_encoding.md R104; DESIGN CHOICE, log 11). -/
def execCmdGmctrn1 (data : List Byte) (s : State) : Out := sendCommand .gmctrn1 data s

end Sys2Proof.Machine
end

