-- ==== Sys2Proof/Machine/Dispatch.lean ====
section
/-! DEFINITION. One arm per constructor of `Instr`. -/

namespace Sys2Proof.Machine

def exec (i : Instr) (s : State) : Host.Outcome State Fault Refusal :=
  match i with
  | .construct r => Sys2Proof.Machine.execConstruct r s
  | .reset => Sys2Proof.Machine.execReset s
  | .turnOn => Sys2Proof.Machine.execTurnOn s
  | .turnOff => Sys2Proof.Machine.execTurnOff s
  | .setrot r => Sys2Proof.Machine.execSetrot r s
  | .setbl v => Sys2Proof.Machine.execSetbl v s
  | .setinv v => Sys2Proof.Machine.execSetinv v s
  | .clear => Sys2Proof.Machine.execClear s
  | .fillscreen c => Sys2Proof.Machine.execFillscreen c s
  | .fillrect x y w h c => Sys2Proof.Machine.execFillrect x y w h c s
  | .drawpixel x y c => Sys2Proof.Machine.execDrawpixel x y c s
  | .drawline x y len c => Sys2Proof.Machine.execDrawline x y len c s
  | .drawimage x y w h img => Sys2Proof.Machine.execDrawimage x y w h img s
  | .drawtext flags x y w h align fg bg txt font => Sys2Proof.Machine.execDrawtext flags x y w h align fg bg txt font s
  | .measure txt font => Sys2Proof.Machine.execMeasure txt font s
  | .encodeColour c => Sys2Proof.Machine.execEncodeColour c s
  | .decodeCode hi lo => Sys2Proof.Machine.execDecodeCode hi lo s
  | .sendcmd code => Sys2Proof.Machine.execSendcmd code s
  | .senddata bytes => Sys2Proof.Machine.execSenddata bytes s
  | .rstpulse => Sys2Proof.Machine.execRstpulse s
  | .blset v => Sys2Proof.Machine.execBlset v s
  | .delay n => Sys2Proof.Machine.execDelay n s
  | .setwin x0 y0 x1 y1 => Sys2Proof.Machine.execSetwin x0 y0 x1 y1 s
  | .stream buf => Sys2Proof.Machine.execStream buf s
  | .writewin x y w h buf => Sys2Proof.Machine.execWritewin x y w h buf s
  | .edge x y w h => Sys2Proof.Machine.execEdge x y w h s
  | .strict x y w h => Sys2Proof.Machine.execStrict x y w h s
  | .solid w h c => Sys2Proof.Machine.execSolid w h c s
  | .fonthdr font => Sys2Proof.Machine.execFonthdr font s
  | .dirent font hdr code => Sys2Proof.Machine.execDirent font hdr code s
  | .textwidth txt font hdr => Sys2Proof.Machine.execTextwidth txt font hdr s
  | .taalloc w h bg => Sys2Proof.Machine.execTaalloc w h bg s
  | .tagrow ta nw nh bg => Sys2Proof.Machine.execTagrow ta nw nh bg s
  | .place ta cx cy gw gh gbase fg bg font => Sys2Proof.Machine.execPlace ta cx cy gw gh gbase fg bg font s
  | .cmdSwreset => Sys2Proof.Machine.execCmdSwreset s
  | .cmdSlpout => Sys2Proof.Machine.execCmdSlpout s
  | .cmdNoron => Sys2Proof.Machine.execCmdNoron s
  | .cmdInvoff => Sys2Proof.Machine.execCmdInvoff s
  | .cmdInvon => Sys2Proof.Machine.execCmdInvon s
  | .cmdDispoff => Sys2Proof.Machine.execCmdDispoff s
  | .cmdDispon => Sys2Proof.Machine.execCmdDispon s
  | .cmdCaset x0 x1 => Sys2Proof.Machine.execCmdCaset x0 x1 s
  | .cmdRaset y0 y1 => Sys2Proof.Machine.execCmdRaset y0 y1 s
  | .cmdRamwr pixels => Sys2Proof.Machine.execCmdRamwr pixels s
  | .cmdMadctl b => Sys2Proof.Machine.execCmdMadctl b s
  | .cmdColmod => Sys2Proof.Machine.execCmdColmod s
  | .cmdFrmctr1 data => Sys2Proof.Machine.execCmdFrmctr1 data s
  | .cmdFrmctr2 data => Sys2Proof.Machine.execCmdFrmctr2 data s
  | .cmdFrmctr3 data => Sys2Proof.Machine.execCmdFrmctr3 data s
  | .cmdInvctr data => Sys2Proof.Machine.execCmdInvctr data s
  | .cmdPwctr1 data => Sys2Proof.Machine.execCmdPwctr1 data s
  | .cmdPwctr2 data => Sys2Proof.Machine.execCmdPwctr2 data s
  | .cmdPwctr3 data => Sys2Proof.Machine.execCmdPwctr3 data s
  | .cmdPwctr4 data => Sys2Proof.Machine.execCmdPwctr4 data s
  | .cmdPwctr5 data => Sys2Proof.Machine.execCmdPwctr5 data s
  | .cmdVmctr1 data => Sys2Proof.Machine.execCmdVmctr1 data s
  | .cmdGmctrp1 data => Sys2Proof.Machine.execCmdGmctrp1 data s
  | .cmdGmctrn1 data => Sys2Proof.Machine.execCmdGmctrn1 data s

end Sys2Proof.Machine
end

