-- ==== Sys2Proof/Machine/Step.lean ====
section
/-! DEFINITION. One step: the next operation the host presents, run to completion (00_scope.md R10). -/

namespace Sys2Proof.Machine

/-- One step. With nothing presented the engine idles and nothing changes: "it emits nothing by itself"
(70_reset_and_hazards.md R360). Bytes that spell no operation are refused (30_encoding.md R107). -/
def step (s : State) : Host.Outcome State Fault Refusal :=
  match fetch s with
  | .idle => .next s
  | .bad r => .refused r
  | .got i s' => exec i s'

/-- `s` with the host presenting the instruction the opcode table gives `nbits` bits `w`, and after it the zeros that
`tableBytes` adds and the instruction does not use; they stay at the port, where a later step reads them as CONSTRUCT 0
(DESIGN CHOICE, log 2, log 24). -/
def State.withFetchWord (s : State) (nbits w : Nat) : State := s.setPort (tableBytes nbits w)

end Sys2Proof.Machine
end

