-- ==== Sys2Proof/Machine/Parties.lean ====
section
/-! DEFINITION. The four parties of an execution (00_scope.md R9), one constructor each, and what each can do. `step` is
the engine's move together with the panel's receiving of every event of it; here the two are told apart. -/

namespace Sys2Proof.Machine

/-- The parties (00_scope.md R9). -/
inductive Party
  /-- The block: one sequencer, single-threaded and blocking. -/
  | engine
  /-- Issues one operation at a time and waits for its status. -/
  | host
  /-- The SPI, GPIO and delay collaborators: an oracle that answers each event. -/
  | transport
  /-- The attached controller: passive, it only receives the wire events. -/
  | panel
deriving DecidableEq, Repr

/-- What a party does, one constructor each (00_scope.md R9). -/
inductive Move
  /-- The engine runs the operation that is presented, to completion. -/
  | engine
  /-- The host issues an operation. -/
  | host (i : Instr)
  /-- The transport settles its answer to one more event. -/
  | transport (a : Answer)
  /-- The panel receives the next event that was performed. -/
  | panel
deriving DecidableEq, Repr

/-- Whose move it is. -/
def Move.party : Move → Party
  | .engine      => .engine
  | .host _      => .host
  | .transport _ => .transport
  | .panel       => .panel

/-- Where an execution stands (00_scope.md R9; log 23).

* `state`: the machine, its `panel` as far as the panel has received.
* `unread`: the events performed that the panel has not received, the oldest first.
* `lines`: the line levels at the first of them. -/
structure Execution where
  state  : State
  unread : List WireEvent
  lines  : Lines
deriving DecidableEq, Repr

/-- The panel with another reading. -/
def State.setPanel (s : State) (v : Panel) : State := { s with panel := v }

/-- The host presents a descriptor and waits: the status of the operation before is no longer the last one it got
(00_scope.md R9, R10). -/
def State.present (s : State) (d : List Byte) : State := { s with port := d, completion := none }

/-- The host issues an operation: only a well-formed one that has a descriptor, and only while nothing is presented, since
it issues "one operation at a time" (00_scope.md R9, 70_reset_and_hazards.md R373; log 23). -/
def hostIssues (i : Instr) (x : Execution) : Option Execution :=
  if x.state.port = [] ∧ i.wf = true then (encode i).map fun d => { x with state := x.state.present d } else none

/-- The transport settles one more answer, after those it has settled (00_scope.md R9; log 4). -/
def transportAnswers (a : Answer) (x : Execution) : Execution :=
  { x with state := x.state.setAnswers (x.state.answers ++ [a]) }

/-- The engine runs what is presented, once the panel has received everything before; its events are then to be received.
None where the step is refused, which has no next state (00_scope.md R9, R10). -/
def engineRuns (x : Execution) : Option Execution :=
  if x.unread = [] then
    match step x.state with
    | .next t => some ⟨t.setPanel x.state.panel, t.trace.drop x.state.trace.length, x.state.lines⟩
    | .fault _ => none
    | .refused _ => none
  else none

/-- The panel receives the oldest event it has not received; none where there is none, since it is passive
(00_scope.md R9, 45_wire_observer.md R302). -/
def panelReceives (x : Execution) : Option Execution :=
  match x.unread with
  | [] => none
  | e :: es => some ⟨x.state.setPanel (x.state.panel.observe x.state.cfg x.lines.dc e), es, x.lines.drive e⟩

/-- The execution after a move; none where the party has no such move (00_scope.md R9). -/
def Move.run : Move → Execution → Option Execution
  | .engine, x      => engineRuns x
  | .host i, x      => hostIssues i x
  | .transport a, x => some (transportAnswers a x)
  | .panel, x       => panelReceives x

/-- The execution after some moves in order. -/
def runMoves : List Move → Execution → Option Execution
  | [], x => some x
  | m :: ms, x =>
    match m.run x with
    | some y => runMoves ms y
    | none => none

end Sys2Proof.Machine
end

