-- ==== Sys2Proof/Machine/Trace.lean ====
section
/-! DEFINITION. The grammar of a failure-free wire trace (40_transport.md R149, 30_encoding.md R112) as a scanner over the
events: brackets do not nest, a bracket has one `DC` event directly after its `SEL`, a command bracket carries one byte
and a data bracket at least one, `RST`, `BL` and `DELAY` stand outside brackets, and a data bracket directly follows a
command bracket (R143, R148). -/

namespace Sys2Proof.Machine

/-- Where a scan of the trace stands. `mayData` says that the last event closed a command bracket. -/
inductive TracePhase
  | between (mayData : Bool)
  | selected (mayData : Bool)
  | cmdOpen
  | cmdSent
  | dataOpen
  | dataSent
deriving DecidableEq, Repr

/-- The scan after one event; none where the grammar does not allow it (40_transport.md R149). -/
def TracePhase.next : TracePhase → WireEvent → Option TracePhase
  | .between d, .sel => some (.selected d)
  | .between _, .rst _ | .between _, .bl _ | .between _, .delay _ => some (.between false)
  | .selected _, .dc false => some .cmdOpen
  | .selected true, .dc true => some .dataOpen
  | .cmdOpen, .tx _ => some .cmdSent
  | .cmdSent, .desel => some (.between true)
  | .dataOpen, .tx _ => some .dataSent
  | .dataSent, .tx _ => some .dataSent
  | .dataSent, .desel => some (.between false)
  | _, _ => none

/-- The scan of a list of events. -/
def scanTrace : TracePhase → List WireEvent → Option TracePhase
  | p, [] => some p
  | p, e :: es =>
    match p.next e with
    | some q => scanTrace q es
    | none => none

/-- The trace is a sequence of whole items of the grammar (40_transport.md R149). -/
def traceOk (es : List WireEvent) : Bool :=
  match scanTrace (.between false) es with
  | some (.between _) => true
  | _ => false

end Sys2Proof.Machine
end

