-- ==== Sys2Proof/Safety.lean ====
section
/-! DEFINITION. The terms the statements use: "no transport failure" (00_scope.md R9, 40_transport.md R147), what an
operation sent, what it left alone, and the invariants of the machine. -/

namespace Sys2Proof.Machine

/-- The transport performs the next `n` events. -/
def State.Quiet (n : Nat) (s : State) : Prop := ∀ a ∈ s.answers.take n, a = Answer.done

/-- The transport performs every coming event: "no transport failure" (40_transport.md R147). -/
def State.NoFailure (s : State) : Prop := ∀ a ∈ s.answers, a = Answer.done

/-- How many events of a wire program of `n` events the transport performs: those before its first failure, all if none
comes (40_transport.md R147). -/
def performed : List Answer → Nat → Nat
  | _, 0 => 0
  | [], n => n
  | .done :: rest, n + 1 => performed rest n + 1
  | .failed :: _, _ + 1 => 0

/-- The observer after some events, read with the data/command level each finds (45_wire_observer.md R302). -/
def Panel.watch (c : Cfg) : Bool → List WireEvent → Panel → Panel
  | _, [], p => p
  | dc, e :: es, p => Panel.watch c (match e with | .dc v => v | _ => dc) es (p.observe c dc e)

/-- From `s` to `t` exactly the events `es` were performed: they were appended to the trace, the lines hold the last
level of each (10_state.md R31), the observer has read them (45_wire_observer.md R302), and the straps and the host port
are as they were. -/
def Emits (es : List WireEvent) (s t : State) : Prop :=
  t.trace = s.trace ++ es ∧ t.lines = es.foldl Lines.drive s.lines ∧
  t.panel = s.panel.watch s.cfg s.lines.dc es ∧ t.cfg = s.cfg ∧ t.port = s.port

/-- The events `es` were performed and the transport's answers to them are used up. -/
def Sent (es : List WireEvent) (s t : State) : Prop := Emits es s t ∧ t.answers = s.answers.drop es.length

/-- The registers `DS` and `fsm` and the mark of a faulted run are as they were. -/
def Kept (s t : State) : Prop := t.ds = s.ds ∧ t.fsm = s.fsm ∧ t.faulted = s.faulted

/-- The operation ended `OK` with a result. -/
def EndedOk (r : Result) (t : State) : Prop := t.completion = some ⟨.ok, r⟩

/-- The operation ended with a status. -/
def Ended (st : Status) (t : State) : Prop := ∃ r, t.completion = some ⟨st, r⟩

/-- From `s` to `t` an operation ran whose whole effect is the wire program `es`. `DS` and `fsm` are as they were. If the
transport performs every event the operation ends `OK`. At the first event that fails it ends with a `TransportError`,
the events before it performed, and the run is marked (60_exceptions.md R328, R329). -/
structure Performs (es : List WireEvent) (s t : State) : Prop where
  ds     : t.ds = s.ds
  fsm    : t.fsm = s.fsm
  ok     : performed s.answers es.length = es.length → Sent es s t ∧ t.faulted = s.faulted ∧ EndedOk .none t
  failed : performed s.answers es.length < es.length →
    Emits (es.take (performed s.answers es.length)) s t ∧
    t.answers = s.answers.drop (performed s.answers es.length + 1) ∧ t.faulted = true ∧
    t.completion = some ⟨.transportError, .none⟩

/-- As `Performs`, of an operation that also writes `DS`: the new value is written after the last event, so a failure
leaves `DS` as it was (41_protocol.md R167, R174). -/
structure PerformsThen (es : List WireEvent) (ds : DeviceState) (s t : State) : Prop where
  fsm    : t.fsm = s.fsm
  ok     : performed s.answers es.length = es.length →
    Sent es s t ∧ t.ds = ds ∧ t.faulted = s.faulted ∧ EndedOk .none t
  failed : performed s.answers es.length < es.length →
    Emits (es.take (performed s.answers es.length)) s t ∧
    t.answers = s.answers.drop (performed s.answers es.length + 1) ∧ t.ds = s.ds ∧ t.faulted = true ∧
    t.completion = some ⟨.transportError, .none⟩

/-- Every byte of the frame memory reads as before. -/
def SameFrame (s t : State) : Prop := ∀ a, t.panel.gram.read a = s.panel.gram.read a

/-- Every byte of the frame memory outside the rectangle of panel columns `X0 ≤ X < X1` and rows `Y0 ≤ Y < Y1` reads as
before; a pixel's bytes stand at `frameAddr X Y` and the address after it. -/
def SameOutside (x0 x1 y0 y1 : Nat) (s t : State) : Prop :=
  ∀ a, (∀ x y, x0 ≤ x → x < x1 → y0 ≤ y → y < y1 → a ≠ frameAddr x y ∧ a ≠ frameAddr x y + 1) →
    t.panel.gram.read a = s.panel.gram.read a

/-- The operations that may store to the frame memory: those that send data bytes after a memory-write command, or
whatever command the panel read last. -/
def mayStore : Instr → Bool
  | .clear | .fillscreen _ | .fillrect _ _ _ _ _ | .drawpixel _ _ _ | .drawline _ _ _ _ => true
  | .drawimage _ _ _ _ _ | .drawtext _ _ _ _ _ _ _ _ _ _ => true
  | .senddata _ | .stream _ | .writewin _ _ _ _ _ | .cmdRamwr _ => true
  | _ => false

/-- `DS` is the record of its rotation (10_state.md R26). -/
def DsOk (c : Cfg) (ds : DeviceState) : Prop :=
  ds.width = (if ds.rotation.toNat % 2 = 1 then c.h0 else c.w0) ∧
  ds.height = (if ds.rotation.toNat % 2 = 1 then c.w0 else c.h0) ∧
  ds.colstart = (c.rot ds.rotation).colstart ∧ ds.rowstart = (c.rot ds.rotation).rowstart

/-- What every step keeps: a legal configuration (00_scope.md R7), a consistent `DS` (10_state.md R26), a frame memory
in canonical form, and, in a run that is not faulted, a released chip-select (R31) and a protocol state that is not in
the middle of a reset (R28). -/
structure Inv (s : State) : Prop where
  cfg   : s.cfg.wf = true
  ds    : DsOk s.cfg s.ds
  gram  : s.panel.gram.wf = true
  lines : s.faulted = false → s.lines.cs = true
  fsm   : s.faulted = false → s.fsm = .uninitialized ∨ s.fsm = .ready

/-- A run so far without a transport failure, and none to come: the trace is in the grammar (40_transport.md R149). -/
structure CleanRun (s : State) : Prop where
  answers : s.NoFailure
  trace   : traceOk s.trace = true

/-- The rectangle, in logical coordinates, that a drawing operation writes from state `s`; none where the operation
raises an error or is no drawing operation (43_shapes.md R210, 44_text.md R270). -/
def drawnRect (s : State) : Instr → Option Rect
  | .clear | .fillscreen _ => (edgePolicy s.screenW s.screenH ⟨0, 0, s.screenW, s.screenH⟩).toOption
  | .fillrect x y w h _ => (edgePolicy s.screenW s.screenH ⟨coord x, coord y, coord w, coord h⟩).toOption
  | .drawpixel x y _ => (edgePolicy s.screenW s.screenH ⟨coord x, coord y, 1, 1⟩).toOption
  | .drawline x y len _ => (edgePolicy s.screenW s.screenH ⟨coord x, coord y, coord len, 1⟩).toOption
  | .drawimage x y w h img =>
    if (img.length : Int) = 2 * coord w * coord h then
      (strictCheck s.screenW s.screenH ⟨coord x, coord y, coord w, coord h⟩).toOption.map
        fun _ => ⟨coord x, coord y, coord w, coord h⟩
    else none
  | .drawtext fl x y w h al fg bg txt font =>
    match textOperands fl x y w h al fg bg txt font with
    | .error _ => none
    | .ok o => (o.layout s.cfg s.ds).toOption.map fun ta => ⟨o.x, o.y, ta.w, ta.h⟩
  | _ => none

/-- A rectangle lies on the screen (43_shapes.md R213). -/
def OnScreen (s : State) (r : Rect) : Prop :=
  0 ≤ r.x ∧ 0 ≤ r.y ∧ 1 ≤ r.w ∧ 1 ≤ r.h ∧ r.x + r.w ≤ s.ds.width.toNat ∧ r.y + r.h ≤ s.ds.height.toNat

/-- Every byte of the frame memory outside a logical rectangle, moved by the offsets of `s`, reads as before
(20_memory.md R82). -/
def SameOutsideRect (r : Rect) (s t : State) : Prop :=
  SameOutside (s.ds.colstart.toNat + r.x.toNat) (s.ds.colstart.toNat + r.x.toNat + r.w.toNat)
    (s.ds.rowstart.toNat + r.y.toNat) (s.ds.rowstart.toNat + r.y.toNat + r.h.toNat) s t

/-- A command frame with a code and, when there are data bytes, the data frame that carries them
(30_encoding.md R110). -/
def frames (code : Byte) (data : List Byte) : List WireEvent :=
  [.sel, .dc false, .tx code, .desel] ++
    (if data = [] then [] else [.sel, .dc true] ++ data.map .tx ++ [.desel])

/-- The events of the reset pulse (40_transport.md R144). -/
def pulseEvents (c : Cfg) : List WireEvent :=
  if c.hasRst = true then [.rst false, .delay c.tRstLow, .rst true, .delay c.tRstHigh] else []

/-- The events of RESET: the pulse, then for each entry of the table its command, its data, its delay
(41_protocol.md R162). -/
def resetEvents (c : Cfg) : List WireEvent :=
  pulseEvents c ++ c.initTable.flatMap fun e => frames e.cmd e.data ++ (if 0 < e.delay then [.delay e.delay] else [])

/-- The colour a solid operation fills with (43_shapes.md R220 to R229). -/
def fillColour : Instr → Option Colour
  | .clear => some ⟨0, 0, 0⟩
  | .fillscreen c | .fillrect _ _ _ _ c | .drawpixel _ _ c | .drawline _ _ _ c => some c
  | _ => none

/-- Where the cursor stands before character `k`, when the characters have the widths `gws`: the start, then for each
character its width and one pixel (44_text.md R265). -/
def cursorAt (start : Nat) (gws : List Nat) (k : Nat) : Nat := start + ((gws.take k).map (· + 1)).sum

/-- The colour of the pixel at column `col`, row `row` of a glyph's cell: bit `row + col * gh` of its bitstream
(20_memory.md R72). -/
def glyphPixel (font : List Byte) (gbase gh col row : Nat) (fg bg : PixelCode) : PixelCode :=
  if (font.getD (gbase + (row + col * gh) / 8) 0).getLsbD ((row + col * gh) % 8) then fg else bg

/-- The operation runs in `s`, and its whole effect is one command with its data. -/
def Sends (i : Instr) (s : State) (code : Byte) (data : List Byte) : Prop :=
  ∃ t, exec i s = .next t ∧ Performs (frames code data) s t

end Sys2Proof.Machine
end

