-- ==== Sys2Proof/Certificates/Slice0/Obligations.lean ====
section
/-! DEFINITION. The statements for the provers. A statement about a next state covers every answer of the transport
unless it names "no failure" or the number of events performed. -/

open Sys2Proof Sys2Proof.Machine

/-! ## Encoding -/

/-- Every well-formed host operation and query has a descriptor of the length R103 gives it, and decoding the
descriptor, whatever bytes follow, gives the operation and leaves the bytes that follow. -/
def Obligations.DecodeInvertsEncode : Prop :=
  ∀ i : Instr, i.wf = true → i.isHost = true →
    ∃ d, encode i = some d ∧ d.length = descriptorLength i ∧ ∀ rest, decode (d ++ rest) = .ok (i, rest)

/-- Whatever bytes decode, decode to a well-formed host operation or query, and are its descriptor followed by what is
left. -/
def Obligations.EncodeInvertsDecode : Prop :=
  ∀ (bs rest : List Byte) (i : Instr), decode bs = .ok (i, rest) →
    i.wf = true ∧ i.isHost = true ∧ ∃ d, encode i = some d ∧ bs = d ++ rest

/-- Bytes that spell no operation are refused (R101, R107 a; the refusal is the spec's decision D2): the opcode bytes
0x07..0x0F and 0x1A..0xFF, which no operation has and no others, and a descriptor cut short anywhere after its opcode
byte. -/
def Obligations.BytesThatSpellNothingAreRefused : Prop :=
  (∀ (s : State) (b : Byte) (bs : List Byte), s.port = b :: bs →
    (hostOpOf b = none ↔ (0x07 ≤ b.toNat ∧ b.toNat ≤ 0x0F) ∨ 0x1A ≤ b.toNat) ∧
    ((0x07 ≤ b.toNat ∧ b.toNat ≤ 0x0F) ∨ 0x1A ≤ b.toNat → step s = .refused (.reservedOpcode b))) ∧
  (∀ (s : State) (i : Instr) (d p : List Byte), i.wf = true → encode i = some d → p <+: d → p ≠ [] → p ≠ d →
    s.port = p → step s = .refused .shortDescriptor)

/-- Under a legal configuration every wire command has a command byte and data bytes that read back as it, and what
reads as a wire command is spelled by it (R104, R108, R110, R111). That any rotation byte, and any table or pixel data,
none included, reads as a wire command is the model's choice (log 11). -/
def Obligations.WireDecodeInvertsEncode : Prop :=
  (∀ (c : Cfg) (i : Instr), c.wf = true → i.isWire = true →
    ∃ bs, encodeWire c i = some bs ∧ decodeWire c bs = .ok i) ∧
  (∀ (c : Cfg) (i : Instr) (bs : List Byte), decodeWire c bs = .ok i → encodeWire c i = some bs ∧ i.isWire = true)

/-- Descriptors written out in 95_test_vectors.md 2.6. -/
def Obligations.SpelledDescriptorsDecode : Prop :=
  decode [0x04, 0x01] = .ok (.setrot 1, []) ∧
  decode [0x12, 0xFF, 0xFF, 0x00, 0x00, 0x01, 0x00, 0x01, 0x00, 0x00, 0x00, 0x00] =
    .ok (.fillrect 0xFFFF 0 1 1 ⟨0, 0, 0⟩, []) ∧
  decode [0x13, 0x50, 0x00, 0x00, 0x00, 0x00, 0x00, 0xFF] = .ok (.drawpixel 80 0 ⟨0, 0, 255⟩, []) ∧
  decode [0x14, 0x46, 0x00, 0x05, 0x00, 0x14, 0x00, 0x00, 0xFF, 0x00] = .ok (.drawline 70 5 20 ⟨0, 255, 0⟩, []) ∧
  decode [0x15, 0x01, 0x00, 0x02, 0x00, 0x02, 0x00, 0x01, 0x00, 0x04, 0x00, 0x00, 0x00, 0x12, 0x34, 0x56, 0x78] =
    .ok (.drawimage 1 2 2 1 [0x12, 0x34, 0x56, 0x78], []) ∧
  decode [0x19, 0xF8, 0x00] = .ok (.decodeCode 0xF8 0x00, [])

/-- When the host presents the descriptor of a well-formed operation, a step is `exec` of the operation in the state
with the descriptor taken. That bytes after a descriptor stay at the port as the next descriptor, and that a step with
nothing presented changes nothing, is the model's choice (log 2). -/
def Obligations.StepRunsThePresentedOperation : Prop :=
  (∀ (s : State) (i : Instr) (d rest : List Byte), i.wf = true → encode i = some d → s.port = d ++ rest →
    step s = exec i (s.setPort rest)) ∧
  (∀ s : State, s.port = [] → step s = .next s)

/-! ## Power-on and invariants -/

/-- Power-on with any configuration (R38, R360, R301; the values are the spec's decisions D10, D35, D33). `State.reset`
is power-on with test configuration T1, the model's choice (log 1). -/
def Obligations.PowerOnValues : Prop :=
  (∀ c : Cfg, (State.powerOn c).fsm = .uninitialized ∧ (State.powerOn c).fsm.value = 0 ∧
    (State.powerOn c).ds = ⟨c.w0, c.h0, c.rot0.colstart, c.rot0.rowstart, 0, false⟩ ∧
    (State.powerOn c).lines.cs = true ∧ (State.powerOn c).trace = [] ∧ (State.powerOn c).panel.lastcmd = none ∧
    (State.powerOn c).panel.armed = false ∧ (State.powerOn c).panel.gram = []) ∧
  State.reset = State.powerOn Cfg.t1

/-- Power-on with a legal configuration meets both invariants, and `State.reset` is such a state. -/
def Obligations.PowerOnMeetsTheInvariants : Prop :=
  (∀ c : Cfg, c.wf = true → Inv (State.powerOn c) ∧ CleanRun (State.powerOn c)) ∧ Inv State.reset ∧
  CleanRun State.reset

/-- Every step keeps `Inv`: the straps legal (R7), `DS` the record of its rotation (R26), the frame memory canonical,
and outside a faulted run chip-select released (R31) and `fsm` in no half-finished reset (R28). -/
def Obligations.StepKeepsInvariant : Prop := ∀ s t : State, Inv s → step s = .next t → Inv t

/-- Without transport failures every step keeps the trace in the grammar of R149: brackets whole and not nested, one
`DC` event in each directly after `SEL`, every data bracket non-empty and directly after a command bracket, and `RST`,
`BL`, `DELAY` only between brackets. -/
def Obligations.StepKeepsCleanRun : Prop := ∀ s t : State, CleanRun s → step s = .next t → CleanRun t

/-- The wire program of an operation is fixed by the operation, the straps, `DS` and `fsm` at the start: one list of
events, of which the trace gains those the transport performs before its first failure (R29, decision D37). -/
def Obligations.WireProgramIsFixedAtTheStart : Prop :=
  ∀ (i : Instr) (c : Cfg) (ds : DeviceState) (f : Fsm), ∃ p : List WireEvent,
    ∀ s t : State, s.cfg = c → s.ds = ds → s.fsm = f → exec i s = .next t →
      t.trace = s.trace ++ p.take (performed s.answers p.length)

/-- Who writes the registers. Size, offsets and rotation: only SETROT and CONSTRUCT; the inversion flag: only RESET,
CONSTRUCT and SETINV (R22 to R25, R27). `fsm`: only RESET, alone or inside CONSTRUCT, never back to `Uninitialized`, and
to `Ready` when it ends `OK` (R165, decision D11). -/
def Obligations.OnlyNamedOperationsWriteRegisters : Prop :=
  ∀ (i : Instr) (s t : State), exec i s = .next t →
    ((∀ r, i ≠ .setrot r) → (∀ r, i ≠ .construct r) →
      t.ds.width = s.ds.width ∧ t.ds.height = s.ds.height ∧ t.ds.colstart = s.ds.colstart ∧
      t.ds.rowstart = s.ds.rowstart ∧ t.ds.rotation = s.ds.rotation) ∧
    ((∀ v, i ≠ .setinv v) → (∀ r, i ≠ .construct r) → i ≠ .reset → t.ds.inversion = s.ds.inversion) ∧
    (i ≠ .reset → (∀ r, i ≠ .construct r) → t.fsm = s.fsm) ∧
    (t.fsm = .uninitialized → s.fsm = .uninitialized) ∧
    ((i = .reset ∨ ∃ r, i = .construct r) → Ended .ok t → t.fsm = .ready)

/-- In any protocol state but `Ready`, every host operation but RESET, CONSTRUCT and the queries is refused; RESET,
CONSTRUCT and the queries are accepted in every state (R160, decision D9). -/
def Obligations.NotReadyIsRefused : Prop :=
  (∀ (i : Instr) (s : State), i.isHost = true → s.fsm ≠ .ready → i ≠ .reset → (∀ r, i ≠ .construct r) →
    (∀ txt font, i ≠ .measure txt font) → (∀ c, i ≠ .encodeColour c) → (∀ hi lo, i ≠ .decodeCode hi lo) →
    exec i s = .refused .notReady) ∧
  (∀ (i : Instr) (s : State), i = .reset ∨ (∃ r, i = .construct r) ∨ (∃ txt font, i = .measure txt font) ∨
    (∃ c, i = .encodeColour c) ∨ (∃ hi lo, i = .decodeCode hi lo) → ∃ t, exec i s = .next t)

/-! ## Errors -/

/-- An operation that ends with `InvalidArgument`, `FontError` or `GlyphError` leaves every part of the state as it was,
but for the status the host receives (R326). -/
def Obligations.ErrorsChangeNothing : Prop :=
  ∀ (i : Instr) (s t : State) (st : Status), exec i s = .next t → Ended st t →
    st = .invalidArgument ∨ st = .fontError ∨ st = .glyphError → t = s.complete st .none

/-- The state after a `TransportError`, by operation (the table of R328, decision D30): RESET stops in `Resetting` or
`Initializing` with `DS` as it was; CONSTRUCT does so too, or, past its reset, stops in `Ready` with only the inversion
flag written; every other operation leaves `DS` and `fsm` as they were. The run is marked (R329). -/
def Obligations.TransportErrorState : Prop :=
  ∀ (i : Instr) (s t : State), exec i s = .next t → Ended .transportError t →
    t.faulted = true ∧
    ((i = .reset ∨ ∃ r, i = .construct r) →
      performed s.answers (resetEvents s.cfg).length < (resetEvents s.cfg).length →
      t.ds = s.ds ∧
      t.fsm = if performed s.answers (resetEvents s.cfg).length < (pulseEvents s.cfg).length then .resetting
        else .initializing) ∧
    ((i = .reset ∨ ∃ r, i = .construct r) →
      performed s.answers (resetEvents s.cfg).length = (resetEvents s.cfg).length →
      (∃ r, i = .construct r) ∧ t.ds = { s.ds with inversion := true } ∧ t.fsm = .ready) ∧
    (i ≠ .reset → (∀ r, i ≠ .construct r) → t.ds = s.ds ∧ t.fsm = s.fsm)

/-- The mark of a faulted run is set by a `TransportError` and by nothing else, and cleared only by a RESET or CONSTRUCT
that ends `OK` (R329, decision D30). -/
def Obligations.FaultMarkIsSticky : Prop :=
  ∀ (i : Instr) (s t : State), exec i s = .next t →
    (Ended .transportError t → t.faulted = true) ∧
    (t.faulted = true → s.faulted = true ∨ Ended .transportError t) ∧
    (s.faulted = true → t.faulted = false → (i = .reset ∨ ∃ r, i = .construct r) ∧ Ended .ok t)

/-- Whatever an operation does, its events are appended to the trace; each line holds the last level emitted (R31), the
observer has read exactly the appended events (R302), and neither the straps (R30) nor the host port change. -/
def Obligations.LinesAndObserverFollowTheTrace : Prop :=
  ∀ (i : Instr) (s t : State), exec i s = .next t → ∃ es, Emits es s t

/-- Rotation above 3, boolean above 1, alignment above 3 and non-zero reserved flag bits end with `InvalidArgument`,
whatever the other operands (R107 b; all but the rotation are the spec's decision D38). -/
def Obligations.IllegalOperandsRaise : Prop :=
  (∀ (s : State) (r : Byte), 3 < r.toNat → exec (.construct r) s = .next (s.complete .invalidArgument .none)) ∧
  (∀ (s : State) (r : Byte), s.fsm = .ready → 3 < r.toNat →
    exec (.setrot r) s = .next (s.complete .invalidArgument .none)) ∧
  (∀ (s : State) (v : Byte), s.fsm = .ready → 1 < v.toNat →
    exec (.setbl v) s = .next (s.complete .invalidArgument .none) ∧
    exec (.setinv v) s = .next (s.complete .invalidArgument .none)) ∧
  (∀ (s : State) (fl al : Byte) (x y w h : Word) (fg bg : Colour) (txt : List Word) (font : List Byte),
    s.fsm = .ready → 16 ≤ fl.toNat ∨ 3 < al.toNat →
    exec (.drawtext fl x y w h al fg bg txt font) s = .next (s.complete .invalidArgument .none))

/-! ## Transport -/

/-- SENDCMD: select, command mode, the byte, deselect, and nothing else; when all four are performed `CS` is 1 and `DC`
is 0 (R141). -/
def Obligations.SendcmdResult : Prop :=
  ∀ (code : Byte) (s : State), ∃ t, exec (.sendcmd code) s = .next t ∧
    Performs [.sel, .dc false, .tx code, .desel] s t ∧
    (performed s.answers 4 = 4 → t.lines = { s.lines with cs := true, dc := false })

/-- SENDDATA of any sequence, the empty one included: one bracket with every byte in order (R142, R148; decisions D34,
D31). -/
def Obligations.SenddataResult : Prop :=
  ∀ (bytes : List Byte) (s : State), ∃ t, exec (.senddata bytes) s = .next t ∧
    Performs ([.sel, .dc true] ++ bytes.map .tx ++ [.desel]) s t ∧
    (performed s.answers (bytes.length + 3) = bytes.length + 3 → t.lines = { s.lines with cs := true, dc := true })

/-- RSTPULSE and DELAY: the pulse when the line exists and nothing without it; one delay event, and none for 0 (R144,
R146; decision D36, log 15). Once the line has gone low the panel is not write-armed and remembers no command (R302,
decision D33); without the line it is as it was. That its mirrors outlast the pulse is the model's choice (log 22). -/
def Obligations.RstpulseAndDelayResult : Prop :=
  (∀ s : State, ∃ t, exec .rstpulse s = .next t ∧
    Performs (if s.cfg.hasRst = true then [.rst false, .delay s.cfg.tRstLow, .rst true, .delay s.cfg.tRstHigh] else [])
      s t ∧
    (s.cfg.hasRst = true → performed s.answers 1 = 1 →
      t.panel.armed = false ∧ t.panel.lastcmd = none ∧ t.panel.inv = s.panel.inv ∧ t.panel.disp = s.panel.disp ∧
      t.panel.madctl = s.panel.madctl) ∧
    (s.cfg.hasRst = false → t.panel = s.panel)) ∧
  (∀ (n : Nat) (s : State), ∃ t, exec (.delay n) s = .next t ∧
    Performs (if 0 < n then [.delay n] else []) s t)

/-- BLSET and, in `Ready`, SETBL with a legal operand: one level event when the pin exists and nothing without it (R145,
R172; decision D15). -/
def Obligations.BacklightResult : Prop :=
  (∀ (v : Bool) (s : State), ∃ t, exec (.blset v) s = .next t ∧
    Performs (if s.cfg.hasBl = true then [.bl v] else []) s t) ∧
  (∀ (v : Byte) (s : State), s.fsm = .ready → v.toNat ≤ 1 → ∃ t, exec (.setbl v) s = .next t ∧
    Performs (if s.cfg.hasBl = true then [.bl (v == 1)] else []) s t ∧
    (performed s.answers 1 = 1 →
      t.lines = { s.lines with bl := if s.cfg.hasBl = true then v == 1 else s.lines.bl }))

/-! ## Reset, rotation, toggles -/

/-- RESET in any state: if the transport performs the whole sequence the operation ends `OK` in `Ready` with only the
inversion flag of `DS` written and the fault mark cleared; otherwise it ends with a `TransportError` and the events
before the failure performed (R162, decision D11). -/
def Obligations.ResetResult : Prop :=
  ∀ s : State, ∃ t, exec .reset s = .next t ∧
    (performed s.answers (resetEvents s.cfg).length = (resetEvents s.cfg).length →
      Sent (resetEvents s.cfg) s t ∧ t.fsm = .ready ∧ t.ds = { s.ds with inversion := true } ∧ t.faulted = false ∧
      EndedOk .none t) ∧
    (performed s.answers (resetEvents s.cfg).length < (resetEvents s.cfg).length →
      Emits ((resetEvents s.cfg).take (performed s.answers (resetEvents s.cfg).length)) s t ∧
      Ended .transportError t)

/-- What a RESET without failure leaves under a legal configuration: the lines of R39, and the observer of R307 with the
full-panel window of R163. That the frame memory is as it was, through the pulse and software-reset too, is the model's
choice (log 22). -/
def Obligations.ResetLeavesLinesAndPanel : Prop :=
  ∀ s t : State, s.cfg.wf = true → exec .reset s = .next t → Ended .ok t →
    t.lines = ⟨true, false, s.cfg.hasRst || s.lines.rst, s.lines.bl⟩ ∧
    t.panel.armed = false ∧ t.panel.lastcmd = some (s.cfg.code .dispon) ∧ t.panel.inv = true ∧ t.panel.disp = true ∧
    t.panel.xs = s.cfg.rot0.colstart ∧ t.panel.xe.toNat = s.cfg.rot0.colstart.toNat + s.cfg.w0.toNat - 1 ∧
    t.panel.ys = s.cfg.rot0.rowstart ∧ t.panel.ye.toNat = s.cfg.rot0.rowstart.toNat + s.cfg.h0.toNat - 1 ∧
    SameFrame s t

/-- CONSTRUCT of a legal rotation in any state, when the transport performs all of it: RESET, then SETROT (R161,
decision D12). -/
def Obligations.ConstructResult : Prop :=
  ∀ (v : BitVec 2) (s : State),
    performed s.answers (resetEvents s.cfg ++ frames (s.cfg.code .madctl) [(s.cfg.rot v).madctl]).length =
      (resetEvents s.cfg ++ frames (s.cfg.code .madctl) [(s.cfg.rot v).madctl]).length →
    ∃ t, exec (.construct (v.setWidth 8)) s = .next t ∧
      Sent (resetEvents s.cfg ++ frames (s.cfg.code .madctl) [(s.cfg.rot v).madctl]) s t ∧ t.fsm = .ready ∧
      t.ds = ⟨if (s.cfg.rot v).swap then s.cfg.h0 else s.cfg.w0, if (s.cfg.rot v).swap then s.cfg.w0 else s.cfg.h0,
        (s.cfg.rot v).colstart, (s.cfg.rot v).rowstart, v, true⟩ ∧
      t.faulted = false ∧ EndedOk .none t

/-- SETROT of a legal rotation in `Ready`: the two frames, then `DS` but for the inversion flag; under a legal
configuration the size is the swapped native pair exactly for odd rotations, and the rotation byte of the panel is the
tuple's (R167, R307, decision D13). -/
def Obligations.SetrotResult : Prop :=
  ∀ (v : BitVec 2) (s : State), s.fsm = .ready →
    ∃ t, exec (.setrot (v.setWidth 8)) s = .next t ∧
      PerformsThen (frames (s.cfg.code .madctl) [(s.cfg.rot v).madctl])
        ⟨if (s.cfg.rot v).swap then s.cfg.h0 else s.cfg.w0, if (s.cfg.rot v).swap then s.cfg.w0 else s.cfg.h0,
          (s.cfg.rot v).colstart, (s.cfg.rot v).rowstart, v, s.ds.inversion⟩ s t ∧
      (s.cfg.wf = true → Ended .ok t → t.panel.madctl = (s.cfg.rot v).madctl ∧ t.panel.armed = false ∧
        (t.ds.width, t.ds.height) = if v.toNat % 2 = 1 then (s.cfg.h0, s.cfg.w0) else (s.cfg.w0, s.cfg.h0))

/-- SETINV of a legal boolean in `Ready`: one command frame, then the flag; without failure and under a legal
configuration the panel's inversion mirror follows and the panel is not write-armed (R174, R307, decision D14). -/
def Obligations.SetinvResult : Prop :=
  ∀ (v : Byte) (s : State), s.fsm = .ready → v.toNat ≤ 1 →
    ∃ t, exec (.setinv v) s = .next t ∧
      PerformsThen [.sel, .dc false, .tx (if v = 1 then s.cfg.code .invon else s.cfg.code .invoff), .desel]
        { s.ds with inversion := v == 1 } s t ∧
      (s.cfg.wf = true → Ended .ok t → t.panel.inv = (v == 1) ∧ t.panel.armed = false)

/-- ON in `Ready`: one display-on command frame; the backlight is not touched; without failure and under a legal
configuration the panel's display mirror is on and the panel is not write-armed (R173, R307, decision D15). -/
def Obligations.OnResult : Prop :=
  ∀ s : State, s.fsm = .ready → ∃ t, exec .turnOn s = .next t ∧
    Performs [.sel, .dc false, .tx (s.cfg.code .dispon), .desel] s t ∧ t.lines.bl = s.lines.bl ∧
    (s.cfg.wf = true → Ended .ok t → t.panel.disp = true ∧ t.panel.armed = false)

/-- OFF, opcode 0x03, in `Ready`: one display-off command frame, no state of the block written, the backlight not
touched, and the panel's frame memory and window as they were (after a failed event this is the trace's reading, the
model's choice, log 13); without failure the panel's display mirror is off and the panel is not write-armed (R175,
R307). -/
def Obligations.OffResult : Prop :=
  (∀ rest, decode (0x03 :: rest) = .ok (.turnOff, rest)) ∧
  ∀ s : State, s.fsm = .ready → ∃ t, exec .turnOff s = .next t ∧
    Performs [.sel, .dc false, .tx (s.cfg.code .dispoff), .desel] s t ∧ t.lines.bl = s.lines.bl ∧
    (s.cfg.wf = true → SameFrame s t ∧ t.panel.xs = s.panel.xs ∧ t.panel.xe = s.panel.xe ∧
      t.panel.ys = s.panel.ys ∧ t.panel.ye = s.panel.ye ∧
      (Ended .ok t → t.panel.disp = false ∧ t.panel.armed = false))

/-! ## Window and stream -/

/-- SETWIN of any four integers: column-address-set and row-address-set with the bounds moved by the offsets, high byte
first, then memory-write (R169, decision D7). That it runs for integers outside the precondition of R169 is the model's
choice (log 19). `be16` of a 16-bit value is its two bytes, and of a window on the screen every bound is a 16-bit value;
of other integers it is a free value (log 8). -/
def Obligations.SetwinResult : Prop :=
  (∀ (x0 y0 x1 y1 : Int) (s : State), ∃ t, exec (.setwin x0 y0 x1 y1) s = .next t ∧
    Performs (frames (s.cfg.code .caset) (be16 (x0 + s.ds.colstart.toNat) ++ be16 (x1 + s.ds.colstart.toNat)) ++
      frames (s.cfg.code .raset) (be16 (y0 + s.ds.rowstart.toNat) ++ be16 (y1 + s.ds.rowstart.toNat)) ++
      frames (s.cfg.code .ramwr) []) s t) ∧
  (∀ v : Nat, v ≤ 65535 → be16 v = [BitVec.ofNat 8 (v / 256), BitVec.ofNat 8 (v % 256)]) ∧
  (∀ (x y : Nat) (s : State), Inv s → x < s.ds.width.toNat → y < s.ds.height.toNat →
    x + s.ds.colstart.toNat ≤ 65535 ∧ y + s.ds.rowstart.toNat ≤ 65535)

/-- STREAM is one data bracket; WRITEWIN is SETWIN of the rectangle and then STREAM, with no event between (R170, R171).
That they run for buffers and integers outside the preconditions of R170 and R171 is the model's choice (log 19). -/
def Obligations.StreamAndWritewinResult : Prop :=
  (∀ (buf : List Byte) (s : State), ∃ t, exec (.stream buf) s = .next t ∧
    Performs ([.sel, .dc true] ++ buf.map .tx ++ [.desel]) s t) ∧
  (∀ (x y w h : Int) (buf : List Byte) (s : State), ∃ t, exec (.writewin x y w h buf) s = .next t ∧
    Performs (frames (s.cfg.code .caset)
        (be16 (x + s.ds.colstart.toNat) ++ be16 (x + w - 1 + s.ds.colstart.toNat)) ++
      frames (s.cfg.code .raset) (be16 (y + s.ds.rowstart.toNat) ++ be16 (y + h - 1 + s.ds.rowstart.toNat)) ++
      [.sel, .dc false, .tx (s.cfg.code .ramwr), .desel] ++ ([.sel, .dc true] ++ buf.map .tx ++ [.desel])) s t)

/-- WRITEWIN of a rectangle on the screen with a buffer of its size, run without failure: the observer's window is the
rectangle moved by the offsets, every cell of it holds its pixel of the buffer, every other byte of the frame memory is
as it was, and the pointer is back at the start (R306). -/
def Obligations.WritewinFillsTheWindow : Prop :=
  ∀ (r : Rect) (buf : List Byte) (s : State), Inv s → OnScreen s r → (buf.length : Int) = 2 * r.w * r.h → s.NoFailure →
    ∃ t, exec (.writewin r.x r.y r.w r.h buf) s = .next t ∧ EndedOk .none t ∧
      t.panel.xs.toNat = s.ds.colstart.toNat + r.x.toNat ∧
      t.panel.xe.toNat = s.ds.colstart.toNat + r.x.toNat + r.w.toNat - 1 ∧
      t.panel.ys.toNat = s.ds.rowstart.toNat + r.y.toNat ∧
      t.panel.ye.toNat = s.ds.rowstart.toNat + r.y.toNat + r.h.toNat - 1 ∧
      (∀ col row : Nat, col < r.w.toNat → row < r.h.toNat →
        t.panel.gram.pixel (t.panel.xs + BitVec.ofNat 16 col) (t.panel.ys + BitVec.ofNat 16 row) =
          some ⟨buf.getD (2 * (row * r.w.toNat + col)) 0, buf.getD (2 * (row * r.w.toNat + col) + 1) 0⟩) ∧
      SameOutsideRect r s t ∧ t.panel.armed = true ∧ t.panel.px = t.panel.xs ∧ t.panel.py = t.panel.ys ∧
      t.panel.half = none

/-! ## Codec -/

/-- ENCODE, opcode 0x18, accepted in every state and changing nothing: the top 5, 6 and 5 bits of the channels at bits 15:11, 10:5
and 4:0 of the code, high byte then low byte, and R200's two closed forms of the bytes. -/
def Obligations.EncodeResult : Prop :=
  (∀ (r g b : Byte) (rest : List Byte),
    decode (0x18 :: r :: g :: b :: rest) = .ok (.encodeColour ⟨r, g, b⟩, rest)) ∧
  ∀ (r g b : Byte) (s : State), ∃ code : Nat,
    code = (r.toNat / 8) * 2048 + (g.toNat / 4) * 32 + b.toNat / 8 ∧ code < 65536 ∧
    exec (.encodeColour ⟨r, g, b⟩) s =
      .next (s.complete .ok (.code ⟨BitVec.ofNat 8 (code / 256), BitVec.ofNat 8 (code % 256)⟩)) ∧
    BitVec.ofNat 8 (code / 256) = (r &&& 0xF8#8) ||| (g >>> 5) ∧
    BitVec.ofNat 8 (code % 256) = ((g <<< 3) &&& 0xE0#8) ||| (b >>> 3)

/-- DECODE, accepted in every state and changing nothing: the three fields of the code at the top of their channels, the
lost bits zero (R201, decision D32). -/
def Obligations.DecodeResult : Prop :=
  ∀ (hi lo : Byte) (s : State), ∃ c : Colour,
    exec (.decodeCode hi lo) s = .next (s.complete .ok (.colour c)) ∧
    c.r.toNat = (hi.toNat * 256 + lo.toNat) / 2048 * 8 ∧
    c.g.toNat = (hi.toNat * 256 + lo.toNat) / 32 % 64 * 4 ∧
    c.b.toNat = (hi.toNat * 256 + lo.toNat) % 32 * 8

/-- The laws of the codec (R202): decoding a code keeps the top 5, 6 and 5 bits and clears the rest; encoding undoes
decoding, so every code is reached; and two colours share a code exactly when the kept bits agree. -/
def Obligations.CodecLaws : Prop :=
  (∀ c : Colour, codecDecode (codecEncode c) = ⟨c.r &&& 0xF8#8, c.g &&& 0xFC#8, c.b &&& 0xF8#8⟩) ∧
  (∀ p : PixelCode, codecEncode (codecDecode p) = p) ∧
  (∀ c d : Colour, codecEncode c = codecEncode d ↔ c.r >>> 3 = d.r >>> 3 ∧ c.g >>> 2 = d.g >>> 2 ∧ c.b >>> 3 = d.b >>> 3)

/-! ## Shapes -/

/-- EDGE of any four integers: the rejected ones end with `InvalidArgument`; of the others the origin is clamped to the
last pixel and the size truncated to what is left (R211, decision D19). -/
def Obligations.EdgeResult : Prop :=
  ∀ (x y w h : Int) (s : State),
    if x < 0 ∨ y < 0 ∨ w ≤ 0 ∨ h ≤ 0 ∨ s.ds.width.toNat < x ∨ s.ds.height.toNat < y then
      exec (.edge x y w h) s = .next (s.complete .invalidArgument .none)
    else
      exec (.edge x y w h) s = .next (s.complete .ok (.rect
        ⟨min x (s.ds.width.toNat - 1), min y (s.ds.height.toNat - 1),
         min w (s.ds.width.toNat - min x (s.ds.width.toNat - 1)),
         min h (s.ds.height.toNat - min y (s.ds.height.toNat - 1))⟩))

/-- What EDGE returns and what STRICT passes lies on the screen (R213). -/
def Obligations.EdgeAndStrictStayOnScreen : Prop :=
  ∀ (x y w h : Int) (s t : State), Inv s →
    (∀ r, exec (.edge x y w h) s = .next t → EndedOk (.rect r) t → OnScreen s r) ∧
    (exec (.strict x y w h) s = .next t → Ended .ok t → OnScreen s ⟨x, y, w, h⟩)

/-- STRICT of any four integers: it passes exactly when the rectangle has a positive size and lies inside the screen,
and changes nothing (R212). -/
def Obligations.StrictResult : Prop :=
  ∀ (x y w h : Int) (s : State),
    exec (.strict x y w h) s =
      .next (s.complete
        (if x < 0 ∨ y < 0 ∨ w ≤ 0 ∨ h ≤ 0 ∨ x + w > s.ds.width.toNat ∨ y + h > s.ds.height.toNat
          then .invalidArgument else .ok) .none)

/-- SOLID: the code of the colour, `w * h` times (R214). That it runs for a width or height of 0, which R214 excludes, is
the model's choice (log 19). -/
def Obligations.SolidResult : Prop :=
  ∀ (w h : Nat) (c : Colour) (s : State), ∃ bs : List Byte,
    exec (.solid w h c) s = .next (s.complete .ok (.bytes bs)) ∧ bs.length = 2 * w * h ∧
    ∀ k, k < w * h → bs[2 * k]? = some (codecEncode c).hi ∧ bs[2 * k + 1]? = some (codecEncode c).lo

/-- FILLRECT in `Ready`: what EDGE rejects ends with `InvalidArgument`; otherwise the window and one stream of the
adjusted rectangle (R220). A coordinate is its 16 bits as two's complement (R102). -/
def Obligations.FillrectResult : Prop :=
  ∀ (x y w h : Word) (c : Colour) (s : State), s.fsm = .ready →
    (∀ e, edgePolicy s.screenW s.screenH ⟨x.toInt, y.toInt, w.toInt, h.toInt⟩ = .error e →
      exec (.fillrect x y w h c) s = .next (s.complete .invalidArgument .none)) ∧
    (∀ r, edgePolicy s.screenW s.screenH ⟨x.toInt, y.toInt, w.toInt, h.toInt⟩ = .ok r →
      ∃ t, exec (.fillrect x y w h c) s = .next t ∧
        Performs (writeProgram s.cfg s.ds r.x r.y r.w r.h (rep (r.w * r.h).toNat (codecEncode c))) s t)

/-- DRAWPIXEL in `Ready`: a pixel off the screen by more than the far edge, or at a negative coordinate, ends with
`InvalidArgument`; otherwise one 1x1 window and two bytes, a coordinate on the far edge clamped (R222). -/
def Obligations.DrawpixelResult : Prop :=
  ∀ (x y : Word) (c : Colour) (s : State), s.fsm = .ready →
    if x.toInt < 0 ∨ y.toInt < 0 ∨ s.ds.width.toNat < x.toInt ∨ s.ds.height.toNat < y.toInt then
      exec (.drawpixel x y c) s = .next (s.complete .invalidArgument .none)
    else
      ∃ t, exec (.drawpixel x y c) s = .next t ∧
        Performs (writeProgram s.cfg s.ds (min (x.toInt) (s.ds.width.toNat - 1)) (min (y.toInt) (s.ds.height.toNat - 1))
          1 1 [(codecEncode c).hi, (codecEncode c).lo]) s t

/-- DRAWLINE in `Ready`: a horizontal run one pixel high; the truncated length is the window's width and the number of
pixels sent (R224, decision D17). -/
def Obligations.DrawlineResult : Prop :=
  ∀ (x y len : Word) (c : Colour) (s : State), s.fsm = .ready →
    (∀ e, edgePolicy s.screenW s.screenH ⟨x.toInt, y.toInt, len.toInt, 1⟩ = .error e →
      exec (.drawline x y len c) s = .next (s.complete .invalidArgument .none)) ∧
    (∀ r, edgePolicy s.screenW s.screenH ⟨x.toInt, y.toInt, len.toInt, 1⟩ = .ok r →
      ∃ t, exec (.drawline x y len c) s = .next t ∧
        Performs (writeProgram s.cfg s.ds r.x r.y r.w 1 (rep r.w.toNat (codecEncode c))) s t)

/-- FILLSCREEN and CLEAR in `Ready`: the whole current screen, and no error but the transport's; CLEAR is black (R228,
R229; decision D16). -/
def Obligations.FillscreenAndClearResult : Prop :=
  (∀ (c : Colour) (s : State), Inv s → s.fsm = .ready → ∃ t, exec (.fillscreen c) s = .next t ∧
    Performs (writeProgram s.cfg s.ds 0 0 s.ds.width.toNat s.ds.height.toNat
      (rep (s.ds.width.toNat * s.ds.height.toNat) (codecEncode c))) s t) ∧
  (∀ s : State, exec .clear s = exec (.fillscreen ⟨0, 0, 0⟩) s) ∧
  (∀ s : State, Inv s → s.fsm = .ready → ∃ t, exec .clear s = .next t ∧
    Performs (writeProgram s.cfg s.ds 0 0 s.ds.width.toNat s.ds.height.toNat
      (List.replicate (2 * s.ds.width.toNat * s.ds.height.toNat) 0)) s t)

/-- DRAWIMAGE in `Ready`: a rectangle not on the screen or an image that is not two bytes a pixel ends with
`InvalidArgument`; otherwise the image's bytes pass unchanged (R226, decision D18). -/
def Obligations.DrawimageResult : Prop :=
  ∀ (x y w h : Word) (img : List Byte) (s : State), s.fsm = .ready →
    if x.toInt < 0 ∨ y.toInt < 0 ∨ w.toInt ≤ 0 ∨ h.toInt ≤ 0 ∨ x.toInt + w.toInt > s.ds.width.toNat ∨
        y.toInt + h.toInt > s.ds.height.toNat ∨ (img.length : Int) ≠ 2 * w.toInt * h.toInt then
      exec (.drawimage x y w h img) s = .next (s.complete .invalidArgument .none)
    else
      ∃ t, exec (.drawimage x y w h img) s = .next t ∧
        Performs (writeProgram s.cfg s.ds (x.toInt) (y.toInt) (w.toInt) (h.toInt) img) s t

/-- The drawing operations on the panel, without failure: every cell of the rectangle they draw holds its pixel, and
every other byte of the frame memory is as it was (R306). The pixel is the colour's code for a solid operation, the
image's two bytes for DRAWIMAGE, and the composed area's pixel for DRAWTEXT. -/
def Obligations.DrawingFillsItsRectangle : Prop :=
  ∀ (i : Instr) (r : Rect) (s : State), Inv s → s.fsm = .ready → s.NoFailure → drawnRect s i = some r →
    ∃ (t : State) (pixel : Nat → Nat → PixelCode), exec i s = .next t ∧ EndedOk .none t ∧
      (∀ x y : Nat, x < r.w.toNat → y < r.h.toNat →
        t.panel.gram.pixel (BitVec.ofNat 16 (s.ds.colstart.toNat + r.x.toNat + x))
          (BitVec.ofNat 16 (s.ds.rowstart.toNat + r.y.toNat + y)) = some (pixel x y)) ∧
      SameOutsideRect r s t ∧
      (∀ col, fillColour i = some col → ∀ x y, pixel x y = codecEncode col) ∧
      (∀ (x y w h : Word) (img : List Byte), i = .drawimage x y w h img →
        r = ⟨x.toInt, y.toInt, w.toInt, h.toInt⟩ ∧ ∀ a b, pixel a b =
          ⟨img.getD (2 * (b * r.w.toNat + a)) 0, img.getD (2 * (b * r.w.toNat + a) + 1) 0⟩) ∧
      (∀ (fl al : Byte) (x y w h : Word) (fg bg : Colour) (txt : List Word) (font : List Byte),
        i = .drawtext fl x y w h al fg bg txt font →
        ∃ (o : TextOp) (ta : TextArea), textOperands fl x y w h al fg bg txt font = .ok o ∧
          o.layout s.cfg s.ds = .ok ta ∧ r = ⟨o.x, o.y, ta.w, ta.h⟩ ∧
          ∀ a b, a < ta.w → b < ta.h → pixel a b = areaPixel ta a b)

/-! ## The frame of the frame memory -/

/-- An operation that sends no pixel stream leaves every byte of the frame memory as it was, whatever the transport
answers (R303, R304; after a failed event this is the trace's reading, the model's choice, log 13; that a reset keeps
the frame memory is the model's choice, log 22). -/
def Obligations.NonDrawingKeepsTheFrameMemory : Prop :=
  ∀ (i : Instr) (s t : State), s.cfg.wf = true → mayStore i = false → exec i s = .next t → SameFrame s t

/-- A host operation that draws a rectangle, whatever the transport answers, stores only inside that rectangle, which
lies on the screen; a host operation that draws none, a query, RESET and CONSTRUCT included, stores nothing (R83, R306,
R326). After a failed event this is the trace's reading, the model's choice (log 13), and that RESET and CONSTRUCT keep
the frame memory is the model's choice (log 22). -/
def Obligations.DrawingStaysInItsRectangle : Prop :=
  ∀ (i : Instr) (s t : State), Inv s → i.isHost = true → exec i s = .next t →
    (∀ r, drawnRect s i = some r → OnScreen s r ∧ SameOutsideRect r s t) ∧ (drawnRect s i = none → SameFrame s t)

/-- The micro-operations and the wire command that carry pixels, whatever the transport answers: WRITEWIN of a rectangle
on the screen stores only there; SENDDATA and STREAM store nothing on a panel that is not write-armed, and only inside
the panel's window on one that is; memory-write stores only inside the window (R303 to R306; after a failed event this
is the trace's reading, the model's choice, log 13; memory-write alone with any data is the model's choice, log 11; the
pointer's order is the spec's decision D33). -/
def Obligations.RawStreamsStayInTheWindow : Prop :=
  (∀ (r : Rect) (buf : List Byte) (s t : State), Inv s → OnScreen s r → (buf.length : Int) = 2 * r.w * r.h →
    exec (.writewin r.x r.y r.w r.h buf) s = .next t → SameOutsideRect r s t) ∧
  (∀ (i : Instr) (bs : List Byte) (s t : State), i = .senddata bs ∨ i = .stream bs → exec i s = .next t →
    (s.panel.lastcmd ≠ some (s.cfg.code .ramwr) → SameFrame s t) ∧
    (s.panel.xs ≤ s.panel.px → s.panel.px ≤ s.panel.xe → s.panel.ys ≤ s.panel.py → s.panel.py ≤ s.panel.ye →
      s.panel.lastcmd = some (s.cfg.code .ramwr) → s.cfg.wf = true →
      SameOutside s.panel.xs.toNat (s.panel.xe.toNat + 1) s.panel.ys.toNat (s.panel.ye.toNat + 1) s t)) ∧
  (∀ (px : List Byte) (s t : State), s.cfg.wf = true → s.panel.xs ≤ s.panel.xe → s.panel.ys ≤ s.panel.ye →
    exec (.cmdRamwr px) s = .next t →
    SameOutside s.panel.xs.toNat (s.panel.xe.toNat + 1) s.panel.ys.toNat (s.panel.ye.toNat + 1) s t)

/-! ## Text -/

/-- FONTHDR of any table, in any state: shorter than 7 bytes, `last < first` or height 0 is a `FontError`; otherwise the
two codes read low byte first and the height (R251, R68; decision D22). -/
def Obligations.FonthdrResult : Prop :=
  ∀ (font : List Byte) (s : State),
    let first := (font.getD 2 0).toNat + 256 * (font.getD 3 0).toNat
    let last := (font.getD 4 0).toNat + 256 * (font.getD 5 0).toNat
    if font.length < 7 ∨ last < first ∨ font.getD 6 0 = 0 then
      exec (.fonthdr font) s = .next (s.complete .fontError .none)
    else
      exec (.fonthdr font) s =
        .next (s.complete .ok (.header ⟨BitVec.ofNat 16 first, BitVec.ofNat 16 last, font.getD 6 0⟩))

/-- DIRENT of any table, header and code, in any state: a code outside the range is a `GlyphError`, an entry not wholly
inside the table a `FontError`; otherwise the width and the address of the bitmap (R253, R70, R71; decisions D21,
D22). That `FONT_DIR_BASE` is a natural number is the model's choice (log 21). -/
def Obligations.DirentResult : Prop :=
  ∀ (font : List Byte) (h : FontHdr) (code : Word) (s : State),
    let e := s.cfg.fontDirBase + 4 * (code.toNat - h.first.toNat)
    if code.toNat < h.first.toNat ∨ h.last.toNat < code.toNat then
      exec (.dirent font h code) s = .next (s.complete .glyphError .none)
    else if font.length < e + 4 then
      exec (.dirent font h code) s = .next (s.complete .fontError .none)
    else
      exec (.dirent font h code) s = .next (s.complete .ok (.glyph (font.getD e 0).toNat
        (s.cfg.fontDirBase + 4 * (h.last.toNat - h.first.toNat + 1) + ((font.getD (e + 1) 0).toNat +
          256 * (font.getD (e + 2) 0).toNat + 65536 * (font.getD (e + 3) 0).toNat))))

/-- TEXTWIDTH in any state: 0 for the empty text; the widths and one pixel between characters; and the error of the first
character that has one (R252). -/
def Obligations.TextwidthResult : Prop :=
  (∀ (font : List Byte) (h : FontHdr) (s : State), exec (.textwidth [] font h) s = .next (s.complete .ok (.width 0))) ∧
  (∀ (txt : List Word) (gs : List (Nat × Nat)) (font : List Byte) (h : FontHdr) (s : State),
    List.Forall₂ (fun code g => dirEntry s.cfg font h code = .ok g) txt gs →
    exec (.textwidth txt font h) s =
      .next (s.complete .ok (.width ((gs.map Prod.fst).sum + txt.length - 1)))) ∧
  (∀ (pre post : List Word) (code : Word) (gs : List (Nat × Nat)) (e : Raise) (font : List Byte) (h : FontHdr) (s : State),
    List.Forall₂ (fun code g => dirEntry s.cfg font h code = .ok g) pre gs → dirEntry s.cfg font h code = .error e →
    exec (.textwidth (pre ++ code :: post) font h) s = .next (s.complete e.status .none))

/-- MEASURE in any protocol state: the error of the header, else TEXTWIDTH with the header; it changes nothing (R254,
decision D32). -/
def Obligations.MeasureResult : Prop :=
  ∀ (txt : List Word) (font : List Byte) (s : State),
    (∀ e, fontHeader font = .error e →
      exec (.measure txt font) s = .next (s.complete .fontError .none)) ∧
    (∀ h, fontHeader font = .ok h → exec (.measure txt font) s = exec (.textwidth txt font h) s) ∧
    (∀ h n, fontHeader font = .ok h → textWidth s.cfg font h txt = .ok n →
      exec (.measure txt font) s = .next (s.complete .ok (.width n)))

/-- TAALLOC and TAGROW: the new area has its size and two bytes a pixel; TAALLOC's pixels are all background; where the
new size is not below the old one, TAGROW keeps every old pixel in its place and makes every other background (R262,
R263, decision D25). That both run for a height of 0, for a new size below the old one and for an area whose buffer is
not two bytes a pixel is the model's choice: a pixel that no rule gives is a free value (log 16). -/
def Obligations.TextAreaAllocAndGrow : Prop :=
  (∀ (w h : Nat) (bg : PixelCode) (s : State), ∃ ta : TextArea,
    exec (.taalloc w h bg) s = .next (s.complete .ok (.area ta)) ∧ ta.w = w ∧ ta.h = h ∧ ta.wf = true ∧
    ∀ c r, c < w → r < h → areaPixel ta c r = bg) ∧
  (∀ (ta : TextArea) (nw nh : Nat) (bg : PixelCode) (s : State),
    ∃ ta' : TextArea, exec (.tagrow ta nw nh bg) s = .next (s.complete .ok (.area ta')) ∧ ta'.w = nw ∧ ta'.h = nh ∧
      ta'.wf = true ∧
      (ta.w ≤ nw → ta.h ≤ nh → ∀ c r, c < nw → r < nh →
        areaPixel ta' c r = if c < ta.w ∧ r < ta.h then areaPixel ta c r else bg)) ∧
  (∀ (ta : TextArea) (c r : Nat), ta.wf = true → c < ta.w → r < ta.h →
    areaPixel ta c r = ⟨ta.buf.getD (2 * (r * ta.w + c)) 0, ta.buf.getD (2 * (r * ta.w + c) + 1) 0⟩)

/-- PLACE: a glyph of width 0 changes nothing; a bitmap not wholly inside the table is a `FontError`; otherwise the area
holds the cell, every pixel of the cell is the glyph's, every old pixel outside it is kept and the rest is background;
a well-formed area stays so (R264, R72; decisions D23, D39). That it runs for an area whose buffer is not two bytes a
pixel is the model's choice: a byte the buffer does not have is a free value (log 16). -/
def Obligations.PlaceResult : Prop :=
  ∀ (ta : TextArea) (cx cy gw gh gbase : Nat) (fg bg : PixelCode) (font : List Byte) (s : State),
    (gw = 0 → exec (.place ta cx cy gw gh gbase fg bg font) s = .next (s.complete .ok (.area ta))) ∧
    (0 < gw * gh → font.length ≤ gbase + (gw * gh - 1) / 8 →
      exec (.place ta cx cy gw gh gbase fg bg font) s = .next (s.complete .fontError .none)) ∧
    (gw ≠ 0 → gh = 0 ∨ gbase + (gw * gh - 1) / 8 < font.length → ∃ ta' : TextArea,
      exec (.place ta cx cy gw gh gbase fg bg font) s = .next (s.complete .ok (.area ta')) ∧
      (ta.wf = true → ta'.wf = true) ∧ 2 * ta'.w * ta'.h ≤ ta'.buf.length ∧
      ta'.w = max ta.w (cx + gw) ∧ ta'.h = max ta.h (cy + gh) ∧
      (∀ col row, col < gw → row < gh →
        areaPixel ta' (cx + col) (cy + row) = glyphPixel font gbase gh col row fg bg) ∧
      (∀ c r, c < ta'.w → r < ta'.h → ¬ (cx ≤ c ∧ c < cx + gw ∧ cy ≤ r ∧ r < cy + gh) →
        areaPixel ta' c r = if c < ta.w ∧ r < ta.h then areaPixel ta c r else bg))

/-- The starting offsets: left and none start at 0; right puts the text's right edge at the box's when it fits; center
halves the surplus, the odd pixel to the right or the bottom; nothing is negative (R261, decision D25). -/
def Obligations.TextOffsets : Prop :=
  ∀ bw tw : Int,
    alignOffset .left bw tw = 0 ∧ alignOffset .none bw tw = 0 ∧
    (tw ≤ bw → (alignOffset .right bw tw : Int) + tw = bw) ∧
    (tw ≤ bw → 2 * (alignOffset .center bw tw : Int) ≤ bw - tw ∧ bw - tw ≤ 2 * (alignOffset .center bw tw : Int) + 1) ∧
    (tw ≤ bw → 2 * (rowOffset bw tw : Int) ≤ bw - tw ∧ bw - tw ≤ 2 * (rowOffset bw tw : Int) + 1) ∧
    (bw < tw → alignOffset .right bw tw = 0 ∧ alignOffset .center bw tw = 0 ∧ rowOffset bw tw = 0)

/-- The area DRAWTEXT sends: it starts as a box of the explicit or measured size; each character's glyph stands with its
left edge where the cursor is and its top at the centred row; the box has grown to hold every glyph that has columns;
every other pixel is background; and the area lies on the screen (R260 to R266, R269 to R271; decisions D25, D26). -/
def Obligations.TextAreaHoldsItsGlyphs : Prop :=
  ∀ (o : TextOp) (c : Cfg) (ds : DeviceState) (ta : TextArea), o.layout c ds = .ok ta →
    ∃ (h : FontHdr) (gs : List (Nat × Nat)) (tw : Nat),
      fontHeader o.font = .ok h ∧ List.Forall₂ (fun code g => dirEntry c o.font h code = .ok g) o.txt gs ∧
      tw = (gs.map Prod.fst).sum + o.txt.length - 1 ∧
      (let bw : Int := o.w.getD tw
       let bh : Int := o.h.getD h.gh.toNat
       let fg := codecEncode (o.fg.getD c.defaultFg)
       let bg := codecEncode (o.bg.getD c.defaultBg)
       let cx := cursorAt (alignOffset o.align bw tw) (gs.map Prod.fst)
       let cy := rowOffset bh h.gh.toNat
       ta.wf = true ∧ 1 ≤ ta.w ∧ 1 ≤ ta.h ∧ 0 ≤ o.x ∧ 0 ≤ o.y ∧ o.x + ta.w ≤ ds.width.toNat ∧
       o.y + ta.h ≤ ds.height.toNat ∧ bw.toNat ≤ ta.w ∧ bh.toNat ≤ ta.h ∧
       (∀ (k col row : Nat) (hk : k < gs.length), col < gs[k].1 → row < h.gh.toNat →
         cx k + col < ta.w ∧ cy + row < ta.h ∧
         areaPixel ta (cx k + col) (cy + row) = glyphPixel o.font gs[k].2 h.gh.toNat col row fg bg) ∧
       (∀ p q : Nat, p < ta.w → q < ta.h →
         (∀ (k : Nat) (hk : k < gs.length), ¬ (cx k ≤ p ∧ p < cx k + gs[k].1 ∧ cy ≤ q ∧ q < cy + h.gh.toNat)) →
         areaPixel ta p q = bg) ∧
       (bw.toNat < ta.w → ∃ (k : Nat) (hk : k < gs.length), gs[k].1 ≠ 0 ∧ ta.w = cx k + gs[k].1) ∧
       (bh.toNat < ta.h → ta.h = cy + h.gh.toNat))

/-- What DRAWTEXT in `Ready` does when its operands are legal: reserved flag bits zero, alignment 0 none, 1 left, 2 center
or 3 right; flag bits 0 to 3 say which of width, height, foreground and background are present; coordinates are two's
complement (R102, R103). If the layout succeeds: the window of the final area and its bytes in one stream (R270 step
9). If not, the error it reports is the header's, then the first character's, then the geometry's, then the bitmap
reads', then the final bounds'; nothing is sent and nothing changes (R325, R270; decisions D28, D38). Under a good
header, text width and geometry the glyphs are placed exactly when the table holds every bitmap that has columns (R264,
R61), and an area that is not empty and fits, its far edge on the screen's included, is the layout's (R269, R272). -/
def Obligations.DrawtextResult : Prop :=
  ∀ (fl al : Byte) (x y w h : Word) (fg bg : Colour) (txt : List Word) (font : List Byte) (s : State) (a : Align),
    s.fsm = .ready → fl.toNat < 16 → (al, a) ∈ [(0, Align.none), (1, .left), (2, .center), (3, .right)] →
    let o : TextOp := ⟨x.toInt, y.toInt, if fl.getLsbD 0 = true then some w.toInt else none,
      if fl.getLsbD 1 = true then some h.toInt else none, a, if fl.getLsbD 2 = true then some fg else none,
      if fl.getLsbD 3 = true then some bg else none, txt, font⟩
    textOperands fl x y w h al fg bg txt font = .ok o ∧
    (∀ ta, o.layout s.cfg s.ds = .ok ta → ∃ t, exec (.drawtext fl x y w h al fg bg txt font) s = .next t ∧
      Performs (writeProgram s.cfg s.ds x.toInt y.toInt ta.w ta.h ta.buf) s t) ∧
    (∀ e, fontHeader font = .error e →
      exec (.drawtext fl x y w h al fg bg txt font) s = .next (s.complete .fontError .none)) ∧
    (∀ hd e, fontHeader font = .ok hd → textWidth s.cfg font hd txt = .error e →
      exec (.drawtext fl x y w h al fg bg txt font) s = .next (s.complete e.status .none)) ∧
    (∀ hd tw, fontHeader font = .ok hd → textWidth s.cfg font hd txt = .ok tw →
      (x.toInt < 0 ∨ y.toInt < 0 ∨ (fl.getLsbD 0 = true ∧ w.toInt ≤ 0) ∨ (fl.getLsbD 1 = true ∧ h.toInt ≤ 0) →
        exec (.drawtext fl x y w h al fg bg txt font) s = .next (s.complete .invalidArgument .none)) ∧
      (¬ (x.toInt < 0 ∨ y.toInt < 0 ∨ (fl.getLsbD 0 = true ∧ w.toInt ≤ 0) ∨ (fl.getLsbD 1 = true ∧ h.toInt ≤ 0)) →
        ((∀ code ∈ txt, ∀ gw gb, dirEntry s.cfg font hd code = .ok (gw, gb) → gw ≠ 0 →
            gb + (gw * hd.gh.toNat - 1) / 8 < font.length) → ∃ ta, o.compose s.cfg hd tw = .ok ta) ∧
        (∀ code ∈ txt, ∀ gw gb, dirEntry s.cfg font hd code = .ok (gw, gb) → gw ≠ 0 →
          font.length ≤ gb + (gw * hd.gh.toNat - 1) / 8 → o.compose s.cfg hd tw = .error .fontError) ∧
        (∀ ta, o.compose s.cfg hd tw = .ok ta → 1 ≤ ta.w → 1 ≤ ta.h → x.toInt + ta.w ≤ s.ds.width.toNat →
          y.toInt + ta.h ≤ s.ds.height.toNat → o.layout s.cfg s.ds = .ok ta) ∧
        (∀ e, o.compose s.cfg hd tw = .error e →
          exec (.drawtext fl x y w h al fg bg txt font) s = .next (s.complete .fontError .none)) ∧
        (∀ ta, o.compose s.cfg hd tw = .ok ta →
          ta.w = 0 ∨ ta.h = 0 ∨ x.toInt + ta.w > s.ds.width.toNat ∨ y.toInt + ta.h > s.ds.height.toNat →
          exec (.drawtext fl x y w h al fg bg txt font) s = .next (s.complete .invalidArgument .none))))

/-! ## Wire commands -/

/-- Each of the 24 commands of R104 as an operation of its own (the model's choice, log 11): its code in a command frame
and then the data frame R104 gives it. -/
def Obligations.WireCommandFrames : Prop :=
  ∀ s : State,
    Sends .cmdSwreset s s.cfg.codes.swreset [] ∧ Sends .cmdSlpout s s.cfg.codes.slpout [] ∧
    Sends .cmdNoron s s.cfg.codes.noron [] ∧ Sends .cmdInvoff s s.cfg.codes.invoff [] ∧
    Sends .cmdInvon s s.cfg.codes.invon [] ∧ Sends .cmdDispoff s s.cfg.codes.dispoff [] ∧
    Sends .cmdDispon s s.cfg.codes.dispon [] ∧
    (∀ a b : Word, Sends (.cmdCaset a b) s s.cfg.codes.caset
      [BitVec.ofNat 8 (a.toNat / 256), BitVec.ofNat 8 a.toNat, BitVec.ofNat 8 (b.toNat / 256), BitVec.ofNat 8 b.toNat]) ∧
    (∀ a b : Word, Sends (.cmdRaset a b) s s.cfg.codes.raset
      [BitVec.ofNat 8 (a.toNat / 256), BitVec.ofNat 8 a.toNat, BitVec.ofNat 8 (b.toNat / 256), BitVec.ofNat 8 b.toNat]) ∧
    (∀ px, Sends (.cmdRamwr px) s s.cfg.codes.ramwr px) ∧
    (∀ b, Sends (.cmdMadctl b) s s.cfg.codes.madctl [b]) ∧
    Sends .cmdColmod s s.cfg.codes.colmod [s.cfg.colmod16bpp] ∧
    (∀ d, Sends (.cmdFrmctr1 d) s s.cfg.codes.frmctr1 d ∧ Sends (.cmdFrmctr2 d) s s.cfg.codes.frmctr2 d ∧
      Sends (.cmdFrmctr3 d) s s.cfg.codes.frmctr3 d ∧ Sends (.cmdInvctr d) s s.cfg.codes.invctr d ∧
      Sends (.cmdPwctr1 d) s s.cfg.codes.pwctr1 d ∧ Sends (.cmdPwctr2 d) s s.cfg.codes.pwctr2 d ∧
      Sends (.cmdPwctr3 d) s s.cfg.codes.pwctr3 d ∧ Sends (.cmdPwctr4 d) s s.cfg.codes.pwctr4 d ∧
      Sends (.cmdPwctr5 d) s s.cfg.codes.pwctr5 d ∧ Sends (.cmdVmctr1 d) s s.cfg.codes.vmctr1 d ∧
      Sends (.cmdGmctrp1 d) s s.cfg.codes.gmctrp1 d ∧ Sends (.cmdGmctrn1 d) s s.cfg.codes.gmctrn1 d)

/-- What the observer makes of a wire command sent without failure under a legal configuration: it remembers the code
and the data bytes, is write-armed after memory-write only, and its mirrors and window follow the commands that set them
and no other but software-reset. A command leaves no pending byte; memory-write with no data puts the pointer at the
window's first corner, and other commands but software-reset leave it (R303, R304, decision D33). That a wire command
runs alone, with any rotation byte and any table or pixel data, is the model's choice (log 11). -/
def Obligations.WireCommandObserver : Prop :=
  ∀ (i : Instr) (k : WireCmd) (data : List Byte) (s t : State), s.cfg.wf = true → s.NoFailure →
    wireParts s.cfg i = some (k, data) → exec i s = .next t →
    t.panel.lastcmd = some (s.cfg.code k) ∧ t.panel.params = data ∧ t.panel.armed = (k == .ramwr) ∧
    (k ≠ .swreset →
      t.panel.inv = (if k = .invon then true else if k = .invoff then false else s.panel.inv) ∧
      t.panel.disp = (if k = .dispon then true else if k = .dispoff then false else s.panel.disp) ∧
      (k ≠ .madctl → t.panel.madctl = s.panel.madctl) ∧
      (k ≠ .caset → t.panel.xs = s.panel.xs ∧ t.panel.xe = s.panel.xe) ∧
      (k ≠ .raset → t.panel.ys = s.panel.ys ∧ t.panel.ye = s.panel.ye) ∧
      (k ≠ .ramwr → t.panel.px = s.panel.px ∧ t.panel.py = s.panel.py)) ∧
    (k ≠ .ramwr → t.panel.half = none) ∧
    (i = .cmdRamwr [] → t.panel.px = t.panel.xs ∧ t.panel.py = t.panel.ys ∧ t.panel.half = none) ∧
    (∀ b, i = .cmdMadctl b → t.panel.madctl = b) ∧
    (∀ a b, i = .cmdCaset a b → t.panel.xs = a ∧ t.panel.xe = b) ∧
    (∀ a b, i = .cmdRaset a b → t.panel.ys = a ∧ t.panel.ye = b)

/-! ## The parties -/

/-- What each party does (R9), as the model divides an execution into moves (log 23). The host issues only a well-formed
host operation, and only when nothing is presented; the engine's next step is then `exec` of it, and when the engine has
run it the host has a status and may issue the next. No other party changes `DS`, `fsm`, the lines or the trace. The
engine's move leaves the panel as it was and its new events to be received; the panel has no move but to receive them,
and when it has received them all the state is that of the step. The transport's answers are used in the order they were
given, each for one event: a failed event changes nothing else, a performed one is recorded. -/
def Obligations.EachPartyDoesItsPart : Prop :=
  (∀ (i : Instr) (x : Execution),
    (i.wf = false ∨ i.isHost = false ∨ x.state.port ≠ [] → (Move.host i).run x = none) ∧
    (i.wf = true → i.isHost = true → x.state.port = [] → ∃ y, (Move.host i).run x = some y ∧
      y.state.completion = none ∧ step y.state = exec i { x.state with completion := none } ∧
      ∀ z, Move.engine.run y = some z → z.state.port = [] ∧ ∃ st, Ended st z.state)) ∧
  (∀ (m : Move) (x y : Execution), m.run x = some y → m.party ≠ .engine →
    y.state.ds = x.state.ds ∧ y.state.fsm = x.state.fsm ∧ y.state.lines = x.state.lines ∧
    y.state.trace = x.state.trace ∧ y.state.faulted = x.state.faulted ∧ y.state.cfg = x.state.cfg ∧
    (m.party ≠ .panel → y.state.panel = x.state.panel ∧ y.unread = x.unread) ∧
    (m.party ≠ .transport → y.state.answers = x.state.answers) ∧
    (m.party ≠ .host → y.state.port = x.state.port ∧ y.state.completion = x.state.completion)) ∧
  (∀ x y : Execution, Move.engine.run x = some y →
    x.unread = [] ∧ y.state.panel = x.state.panel ∧ y.state.trace = x.state.trace ++ y.unread) ∧
  (∀ x : Execution, x.unread = [] → Move.panel.run x = none) ∧
  (∀ (x : Execution) (t : State), x.unread = [] → step x.state = .next t → ∃ y, Move.engine.run x = some y ∧
    runMoves (List.replicate y.unread.length .panel) y = some ⟨t, [], t.lines⟩) ∧
  (∀ (e : WireEvent) (a : Answer) (as : List Answer) (s : State), s.answers = a :: as →
    (a = .failed → emit e s = .failed (s.setAnswers as)) ∧
    (a = .done → ∃ u, emit e s = .done u ∧ u.trace = s.trace ++ [e] ∧ u.lines = s.lines.drive e ∧ u.answers = as)) ∧
  (∀ (a : Answer) (x : Execution), ∃ y, (Move.transport a).run x = some y ∧
    y.state.answers = x.state.answers ++ [a])
end

