-- ==== Sys2Proof/Laws/Fields.lean ====
section
/-! SUPPORT. The field splits and joins of the encodings undo each other. -/

namespace Sys2Proof

theorem le16_toNat (b0 b1 : Byte) : (le16 b0 b1).toNat = b0.toNat + 256 * b1.toNat := by
  have h0 := b0.isLt
  have h1 := b1.isLt
  have := Nat.shiftLeft_add_eq_or_of_lt (a := b1.toNat) (b := b0.toNat) (i := 8) h0
  simp only [le16, BitVec.toNat_or, BitVec.toNat_shiftLeft, BitVec.toNat_setWidth]
  rw [Nat.mod_eq_of_lt (a := b0.toNat) (by omega), Nat.mod_eq_of_lt (a := b1.toNat) (by omega), Nat.or_comm,
    Nat.mod_eq_of_lt (by rw [Nat.shiftLeft_eq]; omega), ← this, Nat.shiftLeft_eq]
  omega

theorem highByte_toNat (v : Word) : (highByte v).toNat = v.toNat / 256 := by
  have := v.isLt
  simp only [highByte, BitVec.toNat_setWidth, BitVec.toNat_ushiftRight, Nat.shiftRight_eq_div_pow]
  omega

theorem lowByte_toNat (v : Word) : (lowByte v).toNat = v.toNat % 256 := by
  simp [lowByte]

@[simp] theorem le16_split (v : Word) : le16 (lowByte v) (highByte v) = v := by
  apply BitVec.eq_of_toNat_eq
  rw [le16_toNat, lowByte_toNat, highByte_toNat]
  omega

@[simp] theorem lowByte_le16 (b0 b1 : Byte) : lowByte (le16 b0 b1) = b0 := by
  apply BitVec.eq_of_toNat_eq
  have := b0.isLt
  rw [lowByte_toNat, le16_toNat]
  omega

@[simp] theorem highByte_le16 (b0 b1 : Byte) : highByte (le16 b0 b1) = b1 := by
  apply BitVec.eq_of_toNat_eq
  have := b0.isLt
  rw [highByte_toNat, le16_toNat]
  omega

theorem le32_nat32Bytes (n : Nat) (h : n < 2 ^ 32) :
    le32 (BitVec.ofNat 8 n) (BitVec.ofNat 8 (n / 256)) (BitVec.ofNat 8 (n / 65536)) (BitVec.ofNat 8 (n / 16777216)) = n := by
  simp only [le32, BitVec.toNat_ofNat]
  omega

theorem nat32Bytes_le32 (a b c d : Byte) : nat32Bytes (le32 a b c d) = [a, b, c, d] := by
  have := a.isLt
  have := b.isLt
  have := c.isLt
  have := d.isLt
  simp only [nat32Bytes, le32, List.cons.injEq, and_true]
  refine ⟨?_, ?_, ?_, ?_⟩ <;> apply BitVec.eq_of_toNat_eq <;> simp only [BitVec.toNat_ofNat] <;> omega

theorem le16_nat16Bytes (n : Nat) (h : n < 2 ^ 16) :
    (le16 (BitVec.ofNat 8 n) (BitVec.ofNat 8 (n / 256))).toNat = n := by
  simp only [le16_toNat, BitVec.toNat_ofNat]
  omega

theorem nat16Bytes_le16 (a b : Byte) : nat16Bytes (le16 a b).toNat = [a, b] := by
  have := a.isLt
  have := b.isLt
  simp only [nat16Bytes, le16_toNat, List.cons.injEq, and_true]
  refine ⟨?_, ?_⟩ <;> apply BitVec.eq_of_toNat_eq <;> simp only [BitVec.toNat_ofNat] <;> omega

theorem takeBytes_append (xs rest : List Byte) : takeBytes xs.length (xs ++ rest) = some (xs, rest) := by
  simp [takeBytes]

theorem takeBytes_eq_some {n : Nat} {bs xs rest : List Byte} (h : takeBytes n bs = some (xs, rest)) :
    bs = xs ++ rest ∧ xs.length = n := by
  unfold takeBytes at h
  split at h
  · obtain ⟨rfl, rfl⟩ := Prod.mk.inj (Option.some.inj h)
    exact ⟨(List.take_append_drop n bs).symm, by simpa⟩
  · cases h

theorem takeBytes_eq_none {n : Nat} {bs : List Byte} : takeBytes n bs = none ↔ bs.length < n := by
  unfold takeBytes
  split <;> simp <;> omega

theorem takeCodes_append (txt : List Word) (rest : List Byte) :
    takeCodes txt.length (codesBytes txt ++ rest) = some (txt, rest) := by
  induction txt with
  | nil => rfl
  | cons v txt ih =>
    simp only [codesBytes] at ih
    simp [codesBytes, wordBytes, takeCodes, ih]

theorem takeCodes_eq_some {n : Nat} {bs : List Byte} {txt : List Word} {rest : List Byte}
    (h : takeCodes n bs = some (txt, rest)) : bs = codesBytes txt ++ rest ∧ txt.length = n := by
  induction n generalizing bs txt with
  | zero => obtain ⟨rfl, rfl⟩ := Prod.mk.inj (Option.some.inj h); simp [codesBytes]
  | succ n ih =>
    match bs with
    | [] => cases h
    | [_] => cases h
    | b0 :: b1 :: bs =>
      simp only [takeCodes] at h
      split at h
      · rename_i ws r hr
        obtain ⟨rfl, rfl⟩ := Prod.mk.inj (Option.some.inj h)
        obtain ⟨h1, h2⟩ := ih hr
        simp [h1, h2, codesBytes, wordBytes]
      · cases h

theorem takeCodes_eq_none {n : Nat} {bs : List Byte} : takeCodes n bs = none ↔ bs.length < 2 * n := by
  induction n generalizing bs with
  | zero => simp [takeCodes]
  | succ n ih =>
    match bs with
    | [] => simp [takeCodes]
    | [_] => simp [takeCodes]; omega
    | b0 :: b1 :: bs =>
      simp only [takeCodes, List.length_cons]
      cases h : takeCodes n bs with
      | none => have := ih.mp h; simp; omega
      | some p =>
        have : ¬ bs.length < 2 * n := fun hh => by simp [ih.mpr hh] at h
        simp
        omega

@[simp] theorem codesBytes_length (txt : List Word) : (codesBytes txt).length = 2 * txt.length := by
  induction txt with
  | nil => rfl
  | cons v txt ih =>
    simp only [codesBytes, wordBytes, List.flatMap_cons, List.length_append, List.length_cons, List.length_nil] at ih ⊢
    omega

end Sys2Proof
end

