-- ==== Sys2Proof/Laws/Codec.lean ====
section
/-! SUPPORT. The pixel codec in arithmetic. -/

namespace Sys2Proof.Machine

theorem colourCode_toNat (c : Colour) :
    (colourCode c).toNat = c.r.toNat / 8 * 2048 + c.g.toNat / 4 * 32 + c.b.toNat / 8 := by
  have hr := c.r.isLt
  have hg := c.g.isLt
  have hb := c.b.isLt
  have h1 : c.g.toNat / 4 * 32 ||| c.b.toNat / 8 = c.g.toNat / 4 * 32 + c.b.toNat / 8 := by
    have := Nat.shiftLeft_add_eq_or_of_lt (a := c.g.toNat / 4) (b := c.b.toNat / 8) (i := 5) (by omega)
    simpa [Nat.shiftLeft_eq] using this.symm
  have h2 : c.r.toNat / 8 * 2048 ||| (c.g.toNat / 4 * 32 + c.b.toNat / 8) =
      c.r.toNat / 8 * 2048 + (c.g.toNat / 4 * 32 + c.b.toNat / 8) := by
    have := Nat.shiftLeft_add_eq_or_of_lt (a := c.r.toNat / 8) (b := c.g.toNat / 4 * 32 + c.b.toNat / 8) (i := 11) (by omega)
    simpa [Nat.shiftLeft_eq] using this.symm
  simp only [colourCode, BitVec.toNat_or, BitVec.toNat_shiftLeft, BitVec.toNat_setWidth, BitVec.toNat_ushiftRight,
    Nat.shiftLeft_eq, Nat.shiftRight_eq_div_pow]
  rw [Nat.or_assoc]
  norm_num only
  rw [Nat.mod_eq_of_lt (a := c.r.toNat / 8) (by omega), Nat.mod_eq_of_lt (a := c.g.toNat / 4) (by omega),
    Nat.mod_eq_of_lt (a := c.b.toNat / 8) (by omega), Nat.mod_eq_of_lt (by omega), Nat.mod_eq_of_lt (by omega), h1, h2]
  omega

theorem codecDecode_toNat (p : PixelCode) :
    (codecDecode p).r.toNat = (p.hi.toNat * 256 + p.lo.toNat) / 2048 * 8 ∧
    (codecDecode p).g.toNat = (p.hi.toNat * 256 + p.lo.toNat) / 32 % 64 * 4 ∧
    (codecDecode p).b.toNat = (p.hi.toNat * 256 + p.lo.toNat) % 32 * 8 := by
  have hp := p.hi.isLt
  have hl := p.lo.isLt
  have e1 (n : Nat) : n &&& 31 = n % 32 := Nat.and_two_pow_sub_one_eq_mod n 5
  have e2 (n : Nat) : n &&& 63 = n % 64 := Nat.and_two_pow_sub_one_eq_mod n 6
  refine ⟨?_, ?_, ?_⟩ <;>
    simp only [codecDecode, BitVec.toNat_and, BitVec.toNat_shiftLeft, BitVec.toNat_setWidth, BitVec.toNat_ushiftRight,
      Nat.shiftLeft_eq, Nat.shiftRight_eq_div_pow, le16_toNat]
    <;> norm_num only <;>
      simp only [show BitVec.toNat (31 : BitVec 16) = 31 from rfl, show BitVec.toNat (63 : BitVec 16) = 63 from rfl, e1, e2] <;> omega

end Sys2Proof.Machine
end

