-- ==== Sys2Proof/Laws/Decode.lean ====
section
/-! SUPPORT. The opcode table is one to one, and what a step does with each answer of the decoder. -/

namespace Sys2Proof

/-- No two operations share an opcode byte. -/
@[simp] theorem hostOpOf_opcode (k : HostOp) : hostOpOf k.opcode = some k := by cases k <;> decide

theorem opcode_of_hostOpOf {b : Byte} {k : HostOp} (h : hostOpOf b = some k) : b = k.opcode := by
  have := List.find?_some h
  exact (by simpa using this : k.opcode = b).symm

theorem decode_opcode (k : HostOp) (bs : List Byte) :
    decode (k.opcode :: bs) =
      match decodeFields k bs with
      | some r => .ok r
      | none => .error .shortDescriptor := by
  cases h : decodeFields k bs <;> simp [decode, h]

/-- A successful decoding is an opcode and the fields of its operation. -/
theorem decode_eq_ok {bs : List Byte} {r : Instr × List Byte} (h : decode bs = .ok r) :
    ∃ k fs, bs = HostOp.opcode k :: fs ∧ decodeFields k fs = some r := by
  match bs with
  | [] => cases h
  | b :: fs =>
    simp only [decode] at h
    split at h
    · cases h
    · rename_i k hk
      split at h
      · rename_i r' hr
        cases h
        exact ⟨k, fs, by rw [opcode_of_hostOpOf hk], hr⟩
      · cases h

namespace Machine

theorem step_of_decode {s : State} {i : Instr} {rest : List Byte} (h : decode s.port = .ok (i, rest)) :
    step s = exec i (s.setPort rest) := by
  simp [step, fetch, h]

/-- What a step can do: nothing, a refusal by the fetch, or one operation. -/
theorem step_next {s t : State} (h : step s = .next t) :
    t = s ∨ ∃ i rest, decode s.port = .ok (i, rest) ∧ exec i (s.setPort rest) = .next t := by
  unfold step fetch at h
  split at h <;> rename_i hf
  · cases h; exact .inl rfl
  · cases h
  · split at hf
    · rename_i hd
      cases hf
      exact .inr ⟨_, _, hd, h⟩
    all_goals cases hf

end Machine

end Sys2Proof
end

