-- ==== Sys2Proof/Laws/State.lean ====
section
/-! SUPPORT. What each update of State does to each field, true by rfl. -/

namespace Sys2Proof.Machine

variable (s : State)

@[simp] theorem State.setFsm_cfg (v : Fsm) : (s.setFsm v).cfg = s.cfg := rfl
@[simp] theorem State.setFsm_ds (v : Fsm) : (s.setFsm v).ds = s.ds := rfl
@[simp] theorem State.setFsm_fsm (v : Fsm) : (s.setFsm v).fsm = v := rfl
@[simp] theorem State.setFsm_lines (v : Fsm) : (s.setFsm v).lines = s.lines := rfl
@[simp] theorem State.setFsm_trace (v : Fsm) : (s.setFsm v).trace = s.trace := rfl
@[simp] theorem State.setFsm_faulted (v : Fsm) : (s.setFsm v).faulted = s.faulted := rfl
@[simp] theorem State.setFsm_completion (v : Fsm) : (s.setFsm v).completion = s.completion := rfl
@[simp] theorem State.setFsm_port (v : Fsm) : (s.setFsm v).port = s.port := rfl
@[simp] theorem State.setFsm_answers (v : Fsm) : (s.setFsm v).answers = s.answers := rfl
@[simp] theorem State.setFsm_panel (v : Fsm) : (s.setFsm v).panel = s.panel := rfl

@[simp] theorem State.setDs_cfg (v : DeviceState) : (s.setDs v).cfg = s.cfg := rfl
@[simp] theorem State.setDs_ds (v : DeviceState) : (s.setDs v).ds = v := rfl
@[simp] theorem State.setDs_fsm (v : DeviceState) : (s.setDs v).fsm = s.fsm := rfl
@[simp] theorem State.setDs_lines (v : DeviceState) : (s.setDs v).lines = s.lines := rfl
@[simp] theorem State.setDs_trace (v : DeviceState) : (s.setDs v).trace = s.trace := rfl
@[simp] theorem State.setDs_faulted (v : DeviceState) : (s.setDs v).faulted = s.faulted := rfl
@[simp] theorem State.setDs_completion (v : DeviceState) : (s.setDs v).completion = s.completion := rfl
@[simp] theorem State.setDs_port (v : DeviceState) : (s.setDs v).port = s.port := rfl
@[simp] theorem State.setDs_answers (v : DeviceState) : (s.setDs v).answers = s.answers := rfl
@[simp] theorem State.setDs_panel (v : DeviceState) : (s.setDs v).panel = s.panel := rfl

@[simp] theorem State.setAnswers_cfg (v : List Answer) : (s.setAnswers v).cfg = s.cfg := rfl
@[simp] theorem State.setAnswers_ds (v : List Answer) : (s.setAnswers v).ds = s.ds := rfl
@[simp] theorem State.setAnswers_fsm (v : List Answer) : (s.setAnswers v).fsm = s.fsm := rfl
@[simp] theorem State.setAnswers_lines (v : List Answer) : (s.setAnswers v).lines = s.lines := rfl
@[simp] theorem State.setAnswers_trace (v : List Answer) : (s.setAnswers v).trace = s.trace := rfl
@[simp] theorem State.setAnswers_faulted (v : List Answer) : (s.setAnswers v).faulted = s.faulted := rfl
@[simp] theorem State.setAnswers_completion (v : List Answer) : (s.setAnswers v).completion = s.completion := rfl
@[simp] theorem State.setAnswers_port (v : List Answer) : (s.setAnswers v).port = s.port := rfl
@[simp] theorem State.setAnswers_answers (v : List Answer) : (s.setAnswers v).answers = v := rfl
@[simp] theorem State.setAnswers_panel (v : List Answer) : (s.setAnswers v).panel = s.panel := rfl

@[simp] theorem State.setPort_cfg (v : List Byte) : (s.setPort v).cfg = s.cfg := rfl
@[simp] theorem State.setPort_ds (v : List Byte) : (s.setPort v).ds = s.ds := rfl
@[simp] theorem State.setPort_fsm (v : List Byte) : (s.setPort v).fsm = s.fsm := rfl
@[simp] theorem State.setPort_lines (v : List Byte) : (s.setPort v).lines = s.lines := rfl
@[simp] theorem State.setPort_trace (v : List Byte) : (s.setPort v).trace = s.trace := rfl
@[simp] theorem State.setPort_faulted (v : List Byte) : (s.setPort v).faulted = s.faulted := rfl
@[simp] theorem State.setPort_completion (v : List Byte) : (s.setPort v).completion = s.completion := rfl
@[simp] theorem State.setPort_port (v : List Byte) : (s.setPort v).port = v := rfl
@[simp] theorem State.setPort_answers (v : List Byte) : (s.setPort v).answers = s.answers := rfl
@[simp] theorem State.setPort_panel (v : List Byte) : (s.setPort v).panel = s.panel := rfl

@[simp] theorem State.setInversion_cfg (v : Bool) : (s.setInversion v).cfg = s.cfg := rfl
@[simp] theorem State.setInversion_ds (v : Bool) : (s.setInversion v).ds = { s.ds with inversion := v } := rfl
@[simp] theorem State.setInversion_fsm (v : Bool) : (s.setInversion v).fsm = s.fsm := rfl
@[simp] theorem State.setInversion_lines (v : Bool) : (s.setInversion v).lines = s.lines := rfl
@[simp] theorem State.setInversion_trace (v : Bool) : (s.setInversion v).trace = s.trace := rfl
@[simp] theorem State.setInversion_faulted (v : Bool) : (s.setInversion v).faulted = s.faulted := rfl
@[simp] theorem State.setInversion_completion (v : Bool) : (s.setInversion v).completion = s.completion := rfl
@[simp] theorem State.setInversion_port (v : Bool) : (s.setInversion v).port = s.port := rfl
@[simp] theorem State.setInversion_answers (v : Bool) : (s.setInversion v).answers = s.answers := rfl
@[simp] theorem State.setInversion_panel (v : Bool) : (s.setInversion v).panel = s.panel := rfl

@[simp] theorem State.setFaulted_cfg (v : Bool) : (s.setFaulted v).cfg = s.cfg := rfl
@[simp] theorem State.setFaulted_ds (v : Bool) : (s.setFaulted v).ds = s.ds := rfl
@[simp] theorem State.setFaulted_fsm (v : Bool) : (s.setFaulted v).fsm = s.fsm := rfl
@[simp] theorem State.setFaulted_lines (v : Bool) : (s.setFaulted v).lines = s.lines := rfl
@[simp] theorem State.setFaulted_trace (v : Bool) : (s.setFaulted v).trace = s.trace := rfl
@[simp] theorem State.setFaulted_faulted (v : Bool) : (s.setFaulted v).faulted = v := rfl
@[simp] theorem State.setFaulted_completion (v : Bool) : (s.setFaulted v).completion = s.completion := rfl
@[simp] theorem State.setFaulted_port (v : Bool) : (s.setFaulted v).port = s.port := rfl
@[simp] theorem State.setFaulted_answers (v : Bool) : (s.setFaulted v).answers = s.answers := rfl
@[simp] theorem State.setFaulted_panel (v : Bool) : (s.setFaulted v).panel = s.panel := rfl

@[simp] theorem State.complete_cfg (st : Status) (r : Result) : (s.complete st r).cfg = s.cfg := rfl
@[simp] theorem State.complete_ds (st : Status) (r : Result) : (s.complete st r).ds = s.ds := rfl
@[simp] theorem State.complete_fsm (st : Status) (r : Result) : (s.complete st r).fsm = s.fsm := rfl
@[simp] theorem State.complete_lines (st : Status) (r : Result) : (s.complete st r).lines = s.lines := rfl
@[simp] theorem State.complete_trace (st : Status) (r : Result) : (s.complete st r).trace = s.trace := rfl
@[simp] theorem State.complete_faulted (st : Status) (r : Result) : (s.complete st r).faulted = s.faulted := rfl
@[simp] theorem State.complete_completion (st : Status) (r : Result) : (s.complete st r).completion = some ⟨st, r⟩ := rfl
@[simp] theorem State.complete_port (st : Status) (r : Result) : (s.complete st r).port = s.port := rfl
@[simp] theorem State.complete_answers (st : Status) (r : Result) : (s.complete st r).answers = s.answers := rfl
@[simp] theorem State.complete_panel (st : Status) (r : Result) : (s.complete st r).panel = s.panel := rfl

@[simp] theorem State.receive_cfg (e : WireEvent) : (s.receive e).cfg = s.cfg := rfl
@[simp] theorem State.receive_ds (e : WireEvent) : (s.receive e).ds = s.ds := rfl
@[simp] theorem State.receive_fsm (e : WireEvent) : (s.receive e).fsm = s.fsm := rfl
@[simp] theorem State.receive_lines (e : WireEvent) : (s.receive e).lines = s.lines := rfl
@[simp] theorem State.receive_trace (e : WireEvent) : (s.receive e).trace = s.trace := rfl
@[simp] theorem State.receive_faulted (e : WireEvent) : (s.receive e).faulted = s.faulted := rfl
@[simp] theorem State.receive_completion (e : WireEvent) : (s.receive e).completion = s.completion := rfl
@[simp] theorem State.receive_port (e : WireEvent) : (s.receive e).port = s.port := rfl
@[simp] theorem State.receive_answers (e : WireEvent) : (s.receive e).answers = s.answers := rfl
@[simp] theorem State.receive_panel (e : WireEvent) : (s.receive e).panel = s.panel.observe s.cfg s.lines.dc e := rfl

@[simp] theorem State.record_cfg (e : WireEvent) : (s.record e).cfg = s.cfg := rfl
@[simp] theorem State.record_ds (e : WireEvent) : (s.record e).ds = s.ds := rfl
@[simp] theorem State.record_fsm (e : WireEvent) : (s.record e).fsm = s.fsm := rfl
@[simp] theorem State.record_lines (e : WireEvent) : (s.record e).lines = s.lines.drive e := rfl
@[simp] theorem State.record_trace (e : WireEvent) : (s.record e).trace = s.trace ++ [e] := rfl
@[simp] theorem State.record_faulted (e : WireEvent) : (s.record e).faulted = s.faulted := rfl
@[simp] theorem State.record_completion (e : WireEvent) : (s.record e).completion = s.completion := rfl
@[simp] theorem State.record_port (e : WireEvent) : (s.record e).port = s.port := rfl
@[simp] theorem State.record_answers (e : WireEvent) : (s.record e).answers = s.answers := rfl
@[simp] theorem State.record_panel (e : WireEvent) : (s.record e).panel = s.panel := rfl

@[simp] theorem State.accept_cfg (e : WireEvent) : (s.accept e).cfg = s.cfg := rfl
@[simp] theorem State.accept_ds (e : WireEvent) : (s.accept e).ds = s.ds := rfl
@[simp] theorem State.accept_fsm (e : WireEvent) : (s.accept e).fsm = s.fsm := rfl
@[simp] theorem State.accept_lines (e : WireEvent) : (s.accept e).lines = s.lines.drive e := rfl
@[simp] theorem State.accept_trace (e : WireEvent) : (s.accept e).trace = s.trace ++ [e] := rfl
@[simp] theorem State.accept_faulted (e : WireEvent) : (s.accept e).faulted = s.faulted := rfl
@[simp] theorem State.accept_completion (e : WireEvent) : (s.accept e).completion = s.completion := rfl
@[simp] theorem State.accept_port (e : WireEvent) : (s.accept e).port = s.port := rfl
@[simp] theorem State.accept_answers (e : WireEvent) : (s.accept e).answers = s.answers := rfl
@[simp] theorem State.accept_panel (e : WireEvent) : (s.accept e).panel = s.panel.observe s.cfg s.lines.dc e := rfl

end Sys2Proof.Machine
end

