-- ==== Sys2Proof/Laws/Emit.lean ====
section
/-! SUPPORT. Everything a wire program can do: it is performed whole, or up to the first failed event. -/

namespace Sys2Proof.Machine

variable {s t : State} {es : List WireEvent}

@[simp] theorem performed_zero (a : List Answer) : performed a 0 = 0 := by cases a <;> rfl

@[simp] theorem performed_nil (n : Nat) : performed [] n = n := by cases n <;> rfl

@[simp] theorem performed_done (a : List Answer) (n : Nat) : performed (.done :: a) (n + 1) = performed a n + 1 := rfl

@[simp] theorem performed_failed (a : List Answer) (n : Nat) : performed (.failed :: a) (n + 1) = 0 := rfl

theorem performed_le (a : List Answer) (n : Nat) : performed a n ≤ n := by
  induction n generalizing a with
  | zero => simp
  | succ n ih =>
    match a with
    | [] => simp
    | .done :: a => simpa using ih a
    | .failed :: a => simp

/-- A quiet transport performs the whole program. -/
theorem performed_of_quiet {n : Nat} (h : s.Quiet n) : performed s.answers n = n := by
  obtain ⟨a, ha⟩ : ∃ a, a = s.answers := ⟨_, rfl⟩
  unfold State.Quiet at h
  rw [← ha] at h ⊢
  clear ha
  induction n generalizing a with
  | zero => simp
  | succ n ih =>
    match a with
    | [] => simp
    | .done :: a => simpa using ih a (fun x hx => h x (by simp [hx]))
    | .failed :: a => simpa using h .failed (by simp)

theorem quiet_of_noFailure (h : s.NoFailure) (n : Nat) : s.Quiet n := fun a ha => h a (List.mem_of_mem_take ha)

@[simp] theorem Panel.watch_nil (c : Cfg) (dc : Bool) (p : Panel) : p.watch c dc [] = p := rfl

@[simp] theorem Lines.drive_dc (l : Lines) (e : WireEvent) :
    (l.drive e).dc = (match e with | .dc v => v | _ => l.dc) := by cases e <;> rfl

theorem Panel.watch_append (c : Cfg) (l : Lines) (xs ys : List WireEvent) (p : Panel) :
    p.watch c l.dc (xs ++ ys) = (p.watch c l.dc xs).watch c (xs.foldl Lines.drive l).dc ys := by
  induction xs generalizing l p with
  | nil => rfl
  | cons e xs ih =>
    have h := ih (l.drive e) (p.observe c l.dc e)
    cases e <;> exact h

theorem emits_nil (h : t.cfg = s.cfg ∧ t.port = s.port ∧ t.trace = s.trace ∧ t.lines = s.lines ∧ t.panel = s.panel) :
    Emits [] s t := by
  simp [Emits, h.1, h.2.1, h.2.2.1, h.2.2.2.1, h.2.2.2.2]

theorem emits_append {xs ys : List WireEvent} {s t u : State} (h1 : Emits xs s t) (h2 : Emits ys t u) :
    Emits (xs ++ ys) s u := by
  obtain ⟨a1, a2, a3, a4, a5⟩ := h1
  obtain ⟨b1, b2, b3, b4, b5⟩ := h2
  refine ⟨by simp [b1, a1], by simp [b2, a2], ?_, by rw [b4, a4], by rw [b5, a5]⟩
  rw [Panel.watch_append, b3, a3, a4, a2]

theorem sent_append {xs ys : List WireEvent} {s t u : State} (h1 : Sent xs s t) (h2 : Sent ys t u) :
    Sent (xs ++ ys) s u :=
  ⟨emits_append h1.1 h2.1, by rw [h2.2, h1.2, List.drop_drop, List.length_append]⟩

theorem emits_accept (e : WireEvent) (s : State) (a : List Answer) : Emits [e] s ((s.setAnswers a).accept e) := by
  simp [Emits, Panel.watch]

/-- Nothing but the wire side of the state changes under a wire program. -/
def KeptAll (s t : State) : Prop := Kept s t ∧ t.completion = s.completion

theorem KeptAll.trans {s t u : State} (h1 : KeptAll s t) (h2 : KeptAll t u) : KeptAll s u := by
  obtain ⟨⟨a, b, c⟩, d⟩ := h1
  obtain ⟨⟨a', b', c'⟩, d'⟩ := h2
  exact ⟨⟨a'.trans a, b'.trans b, c'.trans c⟩, d'.trans d⟩

/-- What a wire program can do. -/
theorem emitAll_cases (es : List WireEvent) (s : State) :
    (∃ t, emitAll es s = .done t ∧ performed s.answers es.length = es.length ∧ Sent es s t ∧ KeptAll s t) ∨
    (∃ t, emitAll es s = .failed t ∧ performed s.answers es.length < es.length ∧
      Emits (es.take (performed s.answers es.length)) s t ∧ KeptAll s t ∧
      t.answers = s.answers.drop (performed s.answers es.length + 1)) := by
  induction es generalizing s with
  | nil => exact .inl ⟨s, rfl, by simp, ⟨emits_nil ⟨rfl, rfl, rfl, rfl, rfl⟩, by simp⟩, ⟨rfl, rfl, rfl⟩, rfl⟩
  | cons e es ih =>
    cases ha : s.answers with
    | nil =>
      have hs : s.accept e = (s.setAnswers []).accept e := by simp [State.setAnswers, ← ha]
      have he : emit e s = .done (s.accept e) := by simp [emit, ha]
      have hf := ih (s.accept e)
      have hk : KeptAll s (s.accept e) := ⟨⟨rfl, rfl, rfl⟩, rfl⟩
      have h1 : Emits [e] s (s.accept e) := hs ▸ emits_accept e s []
      simp only [State.accept_answers, ha, performed_nil] at hf
      obtain ⟨t, h, -, hsent, hkept⟩ | ⟨t, -, h, -⟩ := hf
      · refine .inl ⟨t, by simpa [emitAll, he] using h, by simp, ⟨emits_append h1 hsent.1, ?_⟩, hk.trans hkept⟩
        simpa [ha] using hsent.2
      · exact absurd h (lt_irrefl _)
    | cons a rest =>
      cases a with
      | failed =>
        refine .inr ⟨s.setAnswers rest, by simp [emitAll, emit, ha], by simp, ?_, ⟨⟨rfl, rfl, rfl⟩, rfl⟩, by simp⟩
        simpa using emits_nil (s := s) (t := s.setAnswers rest) ⟨rfl, rfl, rfl, rfl, rfl⟩
      | done =>
        have he : emit e s = .done ((s.setAnswers rest).accept e) := by simp [emit, ha]
        have hk : KeptAll s ((s.setAnswers rest).accept e) := ⟨⟨rfl, rfl, rfl⟩, rfl⟩
        have h1 := emits_accept e s rest
        obtain ⟨t, h, hp, hsent, hkept⟩ | ⟨t, h, hp, hem, hkept, han⟩ := ih ((s.setAnswers rest).accept e)
        · simp only [State.accept_answers, State.setAnswers_answers] at hp hsent
          refine .inl ⟨t, by simpa [emitAll, he] using h, by simp [hp], ⟨emits_append h1 hsent.1, ?_⟩, hk.trans hkept⟩
          simpa [ha] using hsent.2
        · simp only [State.accept_answers, State.setAnswers_answers] at hp hem han
          refine .inr ⟨t, by simpa [emitAll, he] using h, by simpa using hp, ?_, hk.trans hkept, by simpa using han⟩
          simpa using emits_append h1 hem

/-- What an operation that is one wire program can do. -/
theorem runProgram_performs (es : List WireEvent) (s : State) : ∃ t, runProgram es s = .next t ∧ Performs es s t := by
  obtain ⟨t, h, hp, hs, hk⟩ | ⟨t, h, hp, hs, hk, ha⟩ := emitAll_cases es s
  · refine ⟨t.complete .ok .none, by simp [runProgram, h, finish, respond], hk.1.1, hk.1.2.1, fun _ => ?_, fun h => ?_⟩
    · exact ⟨hs, hk.1.2.2, rfl⟩
    · omega
  · refine ⟨(t.setFaulted true).complete .transportError .none, by simp [runProgram, h, finish, transportError],
      hk.1.1, hk.1.2.1, fun h => ?_, fun _ => ?_⟩
    · omega
    · exact ⟨hs, ha, rfl, rfl⟩

@[simp] theorem whenReady_ready (h : s.fsm = .ready) (k : Out) : whenReady s k = k := by simp [whenReady, h]

@[simp] theorem whenReady_refused (h : s.fsm ≠ .ready) (k : Out) : whenReady s k = .refused .notReady := by
  simp [whenReady, h]

end Sys2Proof.Machine
end

