-- ==== Sys2Proof/Laws/Plan.lean ====
section
/-! SUPPORT. What any operation can do, said once: `exec i` runs the plan `planOf i`, one of seven shapes, which depends only
on the operation, the straps, `DS` and `fsm` (10_state.md R29). -/

namespace Sys2Proof.Machine

/-- The shapes an operation's meaning has. -/
inductive Plan
  | refuse (r : Refusal)
  | answer (st : Status) (r : Result)
  | program (es : List WireEvent)
  | reset
  | construct (v : BitVec 2)
  | setrot (v : BitVec 2)
  | setinv (v : Bool)

/-- The frame SETINV sends. -/
def invProgram (c : Cfg) (v : Bool) : List WireEvent := cmdFrame (c.code (if v then .invon else .invoff))

/-- The operation contains a reset. -/
def resetsEngine : Instr → Bool
  | .construct _ | .reset => true
  | _ => false

/-- What a plan does in a state. -/
def Plan.run : Plan → State → Out
  | .refuse r, _ => .refused r
  | .answer st r, s => .next (s.complete st r)
  | .program es, s => runProgram es s
  | .reset, s => finish (resetSequence s)
  | .construct v, s => finish ((resetSequence s).andThen (rotSequence v))
  | .setrot v, s => finish (rotSequence v s)
  | .setinv v, s => finish ((emitAll (invProgram s.cfg v) s).after (fun t => t.setInversion v))

/-- The operations whose meaning may have a plan. -/
def Plan.fits (i : Instr) (f : Fsm) : Plan → Prop
  | .refuse _ | .program _ => resetsEngine i = false
  | .answer st r => st ≠ .transportError ∧ (st ≠ .ok → r = .none) ∧ (st = .ok → resetsEngine i = false)
  | .reset => i = .reset
  | .construct _ => ∃ r, i = .construct r
  | .setrot _ => (∃ r, i = .setrot r) ∧ f = .ready
  | .setinv _ => (∃ r, i = .setinv r) ∧ f = .ready

/-- The answer of an error raised before the first event. -/
def Plan.raise (e : Raise) : Plan := .answer e.status .none

/-- The answer of a computation that returns a value or raises an error. -/
def Plan.result {α : Type} (r : α → Result) : Except Raise α → Plan
  | .ok a => .answer .ok (r a)
  | .error e => .raise e

/-- A plan behind the `Ready` requirement. -/
def Plan.whenReady (f : Fsm) (pl : Plan) : Plan := if f = .ready then pl else .refuse .notReady

/-- The plan of the solid operations. -/
def fillPlan (c : Cfg) (ds : DeviceState) (q : Rect) (col : Colour) : Plan :=
  match edgePolicy ds.width.toNat ds.height.toNat q with
  | .error e => .raise e
  | .ok r => .program (writeProgram c ds r.x r.y r.w r.h (solidBuffer r.w.toNat r.h.toNat col))

/-- The plan of DRAWIMAGE. -/
def imagePlan (c : Cfg) (ds : DeviceState) (x y w h : Int) (img : List Byte) : Plan :=
  match strictCheck ds.width.toNat ds.height.toNat ⟨x, y, w, h⟩ with
  | .error e => .raise e
  | .ok () =>
    if (img.length : Int) ≠ 2 * w * h then .raise .invalidArgument else .program (writeProgram c ds x y w h img)

/-- The plan of DRAWTEXT after its operands. -/
def textPlan (c : Cfg) (ds : DeviceState) : Except Raise TextOp → Plan
  | .error e => .raise e
  | .ok o =>
    match o.layout c ds with
    | .error e => .raise e
    | .ok ta => .program (writeProgram c ds o.x o.y ta.w ta.h ta.buf)

/-- The plan of an operation. -/
def planOf (i : Instr) (c : Cfg) (ds : DeviceState) (f : Fsm) : Plan :=
  match i with
  | .construct r => match legalRotation r with
    | none => .raise .invalidArgument
    | some v => .construct v
  | .reset => .reset
  | .turnOn => .whenReady f (.program (cmdFrame (c.code .dispon)))
  | .turnOff => .whenReady f (.program (cmdFrame (c.code .dispoff)))
  | .setrot r => .whenReady f <| match legalRotation r with
    | none => .raise .invalidArgument
    | some v => .setrot v
  | .setbl v => .whenReady f <| match legalBool v with
    | none => .raise .invalidArgument
    | some on => .program (blProgram c on)
  | .setinv v => .whenReady f <| match legalBool v with
    | none => .raise .invalidArgument
    | some on => .setinv on
  | .clear => .whenReady f (fillPlan c ds ⟨0, 0, ds.width.toNat, ds.height.toNat⟩ ⟨0, 0, 0⟩)
  | .fillscreen col => .whenReady f (fillPlan c ds ⟨0, 0, ds.width.toNat, ds.height.toNat⟩ col)
  | .fillrect x y w h col => .whenReady f (fillPlan c ds ⟨coord x, coord y, coord w, coord h⟩ col)
  | .drawpixel x y col => .whenReady f (fillPlan c ds ⟨coord x, coord y, 1, 1⟩ col)
  | .drawline x y len col => .whenReady f (fillPlan c ds ⟨coord x, coord y, coord len, 1⟩ col)
  | .drawimage x y w h img => .whenReady f (imagePlan c ds (coord x) (coord y) (coord w) (coord h) img)
  | .drawtext fl x y w h al fg bg txt font => .whenReady f (textPlan c ds (textOperands fl x y w h al fg bg txt font))
  | .measure txt font => .result .width (measureText c txt font)
  | .encodeColour col => .answer .ok (.code (codecEncode col))
  | .decodeCode hi lo => .answer .ok (.colour (codecDecode ⟨hi, lo⟩))
  | .sendcmd code => .program (cmdFrame code)
  | .senddata bytes => .program (dataFrame bytes)
  | .rstpulse => .program (rstPulse c)
  | .blset v => .program (blProgram c v)
  | .delay n => .program (delayProgram n)
  | .setwin x0 y0 x1 y1 => .program (winProgram c ds x0 y0 x1 y1)
  | .stream buf => .program (dataFrame buf)
  | .writewin x y w h buf => .program (writeProgram c ds x y w h buf)
  | .edge x y w h => .result .rect (edgePolicy ds.width.toNat ds.height.toNat ⟨x, y, w, h⟩)
  | .strict x y w h => .result (fun _ => .none) (strictCheck ds.width.toNat ds.height.toNat ⟨x, y, w, h⟩)
  | .solid w h col => .answer .ok (.bytes (solidBuffer w h col))
  | .fonthdr font => .result .header (fontHeader font)
  | .dirent font hdr code => .result (fun g => .glyph g.1 g.2) (dirEntry c font hdr code)
  | .textwidth txt font hdr => .result .width (textWidth c font hdr txt)
  | .taalloc w h bg => .answer .ok (.area (areaAlloc w h bg))
  | .tagrow ta nw nh bg => .answer .ok (.area (areaResize ta nw nh bg))
  | .place ta cx cy gw gh gbase fg bg font => .result .area (placeGlyph ta cx cy gw gh gbase fg bg font)
  | .cmdSwreset => .program (commandProgram (c.code .swreset) [])
  | .cmdSlpout => .program (commandProgram (c.code .slpout) [])
  | .cmdNoron => .program (commandProgram (c.code .noron) [])
  | .cmdInvoff => .program (commandProgram (c.code .invoff) [])
  | .cmdInvon => .program (commandProgram (c.code .invon) [])
  | .cmdDispoff => .program (commandProgram (c.code .dispoff) [])
  | .cmdDispon => .program (commandProgram (c.code .dispon) [])
  | .cmdCaset a b => .program (commandProgram (c.code .caset) (be16Bytes a ++ be16Bytes b))
  | .cmdRaset a b => .program (commandProgram (c.code .raset) (be16Bytes a ++ be16Bytes b))
  | .cmdRamwr px => .program (commandProgram (c.code .ramwr) px)
  | .cmdMadctl b => .program (commandProgram (c.code .madctl) [b])
  | .cmdColmod => .program (commandProgram (c.code .colmod) [c.colmod16bpp])
  | .cmdFrmctr1 d => .program (commandProgram (c.code .frmctr1) d)
  | .cmdFrmctr2 d => .program (commandProgram (c.code .frmctr2) d)
  | .cmdFrmctr3 d => .program (commandProgram (c.code .frmctr3) d)
  | .cmdInvctr d => .program (commandProgram (c.code .invctr) d)
  | .cmdPwctr1 d => .program (commandProgram (c.code .pwctr1) d)
  | .cmdPwctr2 d => .program (commandProgram (c.code .pwctr2) d)
  | .cmdPwctr3 d => .program (commandProgram (c.code .pwctr3) d)
  | .cmdPwctr4 d => .program (commandProgram (c.code .pwctr4) d)
  | .cmdPwctr5 d => .program (commandProgram (c.code .pwctr5) d)
  | .cmdVmctr1 d => .program (commandProgram (c.code .vmctr1) d)
  | .cmdGmctrp1 d => .program (commandProgram (c.code .gmctrp1) d)
  | .cmdGmctrn1 d => .program (commandProgram (c.code .gmctrn1) d)

theorem whenReady_run (s : State) (k : Out) (pl : Plan) (h : k = pl.run s) :
    whenReady s k = (Plan.whenReady s.fsm pl).run s := by
  unfold whenReady Plan.whenReady
  split
  · exact h
  · rfl

theorem fillProgram_eq (q : Rect) (col : Colour) (s : State) :
    fillProgram q col s = (fillPlan s.cfg s.ds q col).run s := by
  unfold fillProgram fillPlan State.screenW State.screenH
  cases edgePolicy s.ds.width.toNat s.ds.height.toNat q <;> rfl

/-- Every operation runs its plan. -/
theorem exec_eq (i : Instr) (s : State) : exec i s = (planOf i s.cfg s.ds s.fsm).run s := by
  cases i with
  | turnOn | turnOff => exact whenReady_run _ _ _ rfl
  | fillrect | drawpixel | drawline | fillscreen | clear => exact whenReady_run _ _ _ (fillProgram_eq _ _ _)
  | setrot r =>
    refine whenReady_run _ _ _ ?_
    cases legalRotation r <;> rfl
  | setbl v | setinv v =>
    refine whenReady_run _ _ _ ?_
    cases legalBool v <;> rfl
  | drawimage x y w h img =>
    refine whenReady_run _ _ _ ?_
    unfold imagePlan State.screenW State.screenH
    cases strictCheck s.ds.width.toNat s.ds.height.toNat ⟨coord x, coord y, coord w, coord h⟩ with
    | error e => rfl
    | ok u =>
      dsimp only
      split <;> rfl
  | drawtext fl x y w h al fg bg txt font =>
    refine whenReady_run _ _ _ ?_
    unfold textPlan
    cases textOperands fl x y w h al fg bg txt font with
    | error e => rfl
    | ok o => dsimp only; cases o.layout s.cfg s.ds <;> rfl
  | construct r =>
    simp only [exec, execConstruct, planOf]
    cases legalRotation r <;> rfl
  | measure txt font =>
    simp only [exec, execMeasure, planOf]
    cases measureText s.cfg txt font <;> rfl
  | edge x y w h =>
    simp only [exec, execEdge, planOf, State.screenW, State.screenH]
    cases edgePolicy s.ds.width.toNat s.ds.height.toNat ⟨x, y, w, h⟩ <;> rfl
  | strict x y w h =>
    simp only [exec, execStrict, planOf, State.screenW, State.screenH]
    cases strictCheck s.ds.width.toNat s.ds.height.toNat ⟨x, y, w, h⟩ <;> rfl
  | fonthdr font =>
    simp only [exec, execFonthdr, planOf]
    cases fontHeader font <;> rfl
  | dirent font hdr code =>
    simp only [exec, execDirent, planOf]
    cases dirEntry s.cfg font hdr code <;> rfl
  | textwidth txt font hdr =>
    simp only [exec, execTextwidth, planOf]
    cases textWidth s.cfg font hdr txt <;> rfl
  | place ta cx cy gw gh gbase fg bg font =>
    simp only [exec, execPlace, planOf]
    cases placeGlyph ta cx cy gw gh gbase fg bg font <;> rfl
  | _ => rfl

theorem Plan.raise_fits (i : Instr) (f : Fsm) (e : Raise) : (Plan.raise e).fits i f :=
  ⟨by cases e <;> decide, fun _ => rfl, fun h => by cases e <;> cases h⟩

theorem Plan.result_fits {α : Type} (i : Instr) (f : Fsm) (hi : resetsEngine i = false) (r : α → Result)
    (x : Except Raise α) : (Plan.result r x).fits i f := by
  cases x with
  | error e => exact Plan.raise_fits i f e
  | ok a => exact ⟨nofun, fun h => absurd rfl h, fun _ => hi⟩

theorem Plan.whenReady_fits {i : Instr} {f : Fsm} {pl : Plan} (hi : resetsEngine i = false)
    (h : f = .ready → pl.fits i f) : (Plan.whenReady f pl).fits i f := by
  unfold Plan.whenReady
  split <;> rename_i hf
  · exact h hf
  · exact hi

/-- A plan fits its operation: only RESET and CONSTRUCT reset, only SETROT and SETINV write `DS`, and no plan answers a
`TransportError` by itself. -/
theorem planOf_fits (i : Instr) (c : Cfg) (ds : DeviceState) (f : Fsm) : (planOf i c ds f).fits i f := by
  have fill : ∀ (j : Instr) (q : Rect) (col : Colour), resetsEngine j = false → (fillPlan c ds q col).fits j f := by
    intro j q col hj
    unfold fillPlan
    split
    · exact Plan.raise_fits _ _ _
    · exact hj
  have ok : ∀ (j : Instr) (r : Result), resetsEngine j = false → (Plan.answer .ok r).fits j f := fun j r hj =>
    ⟨nofun, fun h => absurd rfl h, fun _ => hj⟩
  cases i with
  | turnOn | turnOff => exact Plan.whenReady_fits rfl fun _ => rfl
  | fillrect | drawpixel | drawline | fillscreen | clear => exact Plan.whenReady_fits rfl fun _ => fill _ _ _ rfl
  | setrot r =>
    refine Plan.whenReady_fits rfl fun hf => ?_
    cases legalRotation r
    · exact Plan.raise_fits _ _ _
    · exact ⟨⟨_, rfl⟩, hf⟩
  | setbl v =>
    refine Plan.whenReady_fits rfl fun hf => ?_
    cases legalBool v
    · exact Plan.raise_fits _ _ _
    · exact rfl
  | setinv v =>
    refine Plan.whenReady_fits rfl fun hf => ?_
    cases legalBool v
    · exact Plan.raise_fits _ _ _
    · exact ⟨⟨_, rfl⟩, hf⟩
  | drawimage x y w h img =>
    refine Plan.whenReady_fits rfl fun _ => ?_
    unfold imagePlan
    split
    · exact Plan.raise_fits _ _ _
    · split
      · exact Plan.raise_fits _ _ _
      · exact rfl
  | drawtext fl x y w h al fg bg txt font =>
    refine Plan.whenReady_fits rfl fun _ => ?_
    unfold textPlan
    split
    · exact Plan.raise_fits _ _ _
    · split
      · exact Plan.raise_fits _ _ _
      · exact rfl
  | construct r =>
    simp only [planOf]
    cases legalRotation r
    · exact Plan.raise_fits _ _ _
    · exact ⟨_, rfl⟩
  | measure | edge | strict | fonthdr | dirent | textwidth | place => exact Plan.result_fits _ _ rfl _ _
  | encodeColour | decodeCode | solid | taalloc | tagrow => exact ok _ _ rfl
  | _ => exact rfl

end Sys2Proof.Machine
end

