-- ==== Sys2Proof/Laws/Reset.lean ====
section
/-! SUPPORT. Everything the operations can do that write `DS` or `fsm`: RESET, SETROT, SETINV and CONSTRUCT. -/

namespace Sys2Proof.Machine

theorem frames_eq (code : Byte) (data : List Byte) : frames code data = commandProgram code data := by
  cases data <;> simp [frames, commandProgram, cmdFrame, dataFrame]

theorem resetEvents_eq (c : Cfg) : resetEvents c = rstPulse c ++ initProgram c := by
  simp only [resetEvents, frames_eq]
  rfl

theorem pulseEvents_eq (c : Cfg) : pulseEvents c = rstPulse c := by simp [pulseEvents, rstPulse]

/-- What the transport performs of two programs in a row. -/
theorem performed_add (a : List Answer) (m n : Nat) :
    performed a (m + n) = if performed a m = m then m + performed (a.drop m) n else performed a m := by
  induction m generalizing a with
  | zero => simp
  | succ m ih =>
    rw [Nat.add_right_comm]
    match a with
    | [] => simp [Nat.add_right_comm]
    | .done :: a => simp only [performed_done, ih a, List.drop_succ_cons, Nat.add_right_cancel_iff]; split <;> omega
    | .failed :: a => simp

theorem performed_append_full {a : List Answer} {m n : Nat} (h : performed a m = m) :
    performed a (m + n) = m + performed (a.drop m) n := by rw [performed_add, if_pos h]

theorem performed_append_short {a : List Answer} {m n : Nat} (h : performed a m < m) :
    performed a (m + n) = performed a m := by rw [performed_add, if_neg (by omega)]

/-- What a first program has sent when a second stops short. -/
theorem emits_take_append {xs ys : List WireEvent} {s t u : State} {k : Nat} (h1 : Emits xs s t)
    (h2 : Emits (ys.take k) t u) : Emits ((xs ++ ys).take (xs.length + k)) s u := by
  rw [List.take_length_add_append]
  exact emits_append h1 h2

/-- Everything a reset can do: it is performed whole; or an event of the pulse fails; or a later one. -/
theorem reset_cases (s : State) :
    (∃ t, resetSequence s = .done t ∧
      performed s.answers (resetEvents s.cfg).length = (resetEvents s.cfg).length ∧ Sent (resetEvents s.cfg) s t ∧
      t.fsm = .ready ∧ t.ds = { s.ds with inversion := true } ∧ t.faulted = false ∧ t.completion = s.completion) ∨
    (∃ t, resetSequence s = .failed t ∧
      performed s.answers (resetEvents s.cfg).length < (resetEvents s.cfg).length ∧
      Emits ((resetEvents s.cfg).take (performed s.answers (resetEvents s.cfg).length)) s t ∧
      t.answers = s.answers.drop (performed s.answers (resetEvents s.cfg).length + 1) ∧
      t.fsm = (if performed s.answers (resetEvents s.cfg).length < (pulseEvents s.cfg).length then .resetting
        else .initializing) ∧
      t.ds = s.ds ∧ t.faulted = s.faulted ∧ t.completion = s.completion) := by
  have h0 : Emits [] s (s.setFsm .resetting) := emits_nil ⟨rfl, rfl, rfl, rfl, rfl⟩
  simp only [resetEvents_eq, pulseEvents_eq, List.length_append]
  obtain ⟨t, h, hp, hs, hk⟩ | ⟨t, h, hp, hs, hk, ha⟩ := emitAll_cases (rstPulse s.cfg) (s.setFsm .resetting)
  · have hn : Emits [] t (t.setFsm .initializing) := emits_nil ⟨rfl, rfl, rfl, rfl, rfl⟩
    have h1 : Sent (rstPulse s.cfg) s (t.setFsm .initializing) :=
      ⟨by simpa using emits_append (emits_append h0 hs.1) hn, by simpa using hs.2⟩
    simp only [State.setFsm_answers] at hp
    have hans : (t.setFsm .initializing).answers = s.answers.drop (rstPulse s.cfg).length := h1.2
    obtain ⟨u, h', hp', hs', hk'⟩ | ⟨u, h', hp', hs', hk', ha'⟩ :=
      emitAll_cases (initProgram s.cfg) (t.setFsm .initializing)
    · rw [hans] at hp'
      refine .inl ⟨((u.setInversion true).setFsm .ready).setFaulted false, ?_, ?_, ?_, rfl, ?_, rfl, ?_⟩
      · simp [resetSequence, h, h', Emitted.after, Emitted.andThen]
      · rw [performed_append_full hp, hp']
      · have := sent_append h1 hs'
        exact ⟨by simpa using emits_append this.1 (emits_nil (t := ((u.setInversion true).setFsm .ready).setFaulted false)
          ⟨rfl, rfl, rfl, rfl, rfl⟩), this.2⟩
      · simp [hk'.1.1, hk.1.1]
      · simp [hk'.2, hk.2]
    · rw [hans] at hp' hs' ha'
      refine .inr ⟨u, ?_, ?_, ?_, ?_, ?_, ?_, ?_, ?_⟩
      · simp [resetSequence, h, h', Emitted.after, Emitted.andThen]
      · rw [performed_append_full hp]; omega
      · rw [performed_append_full hp]; exact emits_take_append h1.1 hs'
      · rw [performed_append_full hp, ha', List.drop_drop]; congr 1
      · rw [performed_append_full hp, if_neg (by omega)]; exact hk'.1.2.1
      · simp [hk'.1.1, hk.1.1]
      · simp [hk'.1.2.2, hk.1.2.2]
      · simp [hk'.2, hk.2]
  · simp only [State.setFsm_answers] at hp hs ha
    refine .inr ⟨t, ?_, ?_, ?_, ?_, ?_, ?_, ?_, ?_⟩
    · simp [resetSequence, h, Emitted.after, Emitted.andThen]
    · rw [performed_append_short hp]; omega
    · rw [performed_append_short hp, List.take_append_of_le_length hp.le]
      exact emits_append h0 hs
    · rw [performed_append_short hp, ha]
    · rw [performed_append_short hp, if_pos hp]; exact hk.1.2.1
    · exact hk.1.1
    · exact hk.1.2.2
    · exact hk.2

/-- Everything a program that ends with a write of `DS` can do. -/
theorem thenDs_cases (es : List WireEvent) (f : State → DeviceState) (s : State) :
    (∃ t u, emitAll es s = .done t ∧ (emitAll es s).after (fun t => t.setDs (f t)) = .done u ∧ u = t.setDs (f t) ∧
      performed s.answers es.length = es.length ∧ Sent es s u ∧ KeptAll s t) ∨
    (∃ u, (emitAll es s).after (fun t => t.setDs (f t)) = .failed u ∧ performed s.answers es.length < es.length ∧
      Emits (es.take (performed s.answers es.length)) s u ∧ KeptAll s u ∧
      u.answers = s.answers.drop (performed s.answers es.length + 1)) := by
  obtain ⟨t, h, hp, hs, hk⟩ | ⟨t, h, hp, hs, hk, ha⟩ := emitAll_cases es s
  · refine .inl ⟨t, _, h, by rw [h]; rfl, rfl, hp, ⟨?_, hs.2⟩, hk⟩
    simpa using emits_append hs.1 (emits_nil (t := t.setDs (f t)) ⟨rfl, rfl, rfl, rfl, rfl⟩)
  · exact .inr ⟨t, by rw [h]; rfl, hp, hs, hk, ha⟩

theorem setInversion_eq (t : State) (v : Bool) : t.setInversion v = t.setDs { t.ds with inversion := v } := rfl

/-- Everything SETROT of a legal rotation can do up to its status. -/
theorem rot_cases (v : BitVec 2) (s : State) :
    (∃ u, rotSequence v s = .done u ∧ performed s.answers (rotProgram s.cfg v).length = (rotProgram s.cfg v).length ∧
      Sent (rotProgram s.cfg v) s u ∧ u.ds = s.ds.rotate s.cfg v ∧ u.fsm = s.fsm ∧ u.faulted = s.faulted ∧
      u.completion = s.completion) ∨
    (∃ u, rotSequence v s = .failed u ∧ performed s.answers (rotProgram s.cfg v).length < (rotProgram s.cfg v).length ∧
      Emits ((rotProgram s.cfg v).take (performed s.answers (rotProgram s.cfg v).length)) s u ∧ KeptAll s u ∧
      u.answers = s.answers.drop (performed s.answers (rotProgram s.cfg v).length + 1)) := by
  obtain ⟨t, u, -, h, rfl, hp, hs, hk⟩ | ⟨u, h, hp, hs, hk, ha⟩ :=
    thenDs_cases (rotProgram s.cfg v) (fun t => t.ds.rotate t.cfg v) s
  · have hc : t.cfg = s.cfg := hs.1.2.2.2.1
    exact .inl ⟨_, h, hp, hs, by simp [hk.1.1, hc], hk.1.2.1, hk.1.2.2, hk.2⟩
  · exact .inr ⟨u, h, hp, hs, hk, ha⟩

/-- Everything SETINV of a legal boolean can do up to its status. -/
theorem inv_cases (v : Bool) (s : State) :
    (∃ u, (emitAll (invProgram s.cfg v) s).after (fun t => t.setInversion v) = .done u ∧
      performed s.answers (invProgram s.cfg v).length = (invProgram s.cfg v).length ∧
      Sent (invProgram s.cfg v) s u ∧ u.ds = { s.ds with inversion := v } ∧ u.fsm = s.fsm ∧ u.faulted = s.faulted ∧
      u.completion = s.completion) ∨
    (∃ u, (emitAll (invProgram s.cfg v) s).after (fun t => t.setInversion v) = .failed u ∧
      performed s.answers (invProgram s.cfg v).length < (invProgram s.cfg v).length ∧
      Emits ((invProgram s.cfg v).take (performed s.answers (invProgram s.cfg v).length)) s u ∧ KeptAll s u ∧
      u.answers = s.answers.drop (performed s.answers (invProgram s.cfg v).length + 1)) := by
  obtain ⟨t, u, -, h, rfl, hp, hs, hk⟩ | ⟨u, h, hp, hs, hk, ha⟩ :=
    thenDs_cases (invProgram s.cfg v) (fun t => { t.ds with inversion := v }) s
  · exact .inl ⟨_, h, hp, hs, by simp [hk.1.1], hk.1.2.1, hk.1.2.2, hk.2⟩
  · exact .inr ⟨u, h, hp, hs, hk, ha⟩

/-- The events of CONSTRUCT. -/
def constructEvents (c : Cfg) (v : BitVec 2) : List WireEvent := resetEvents c ++ rotProgram c v

/-- Everything CONSTRUCT of a legal rotation can do up to its status: performed whole; stopped in its reset; or stopped
past it. -/
theorem construct_cases (v : BitVec 2) (s : State) :
    (∃ u, (resetSequence s).andThen (rotSequence v) = .done u ∧
      performed s.answers (constructEvents s.cfg v).length = (constructEvents s.cfg v).length ∧
      Sent (constructEvents s.cfg v) s u ∧ u.fsm = .ready ∧
      u.ds = DeviceState.rotate s.cfg v { s.ds with inversion := true } ∧ u.faulted = false ∧
      u.completion = s.completion) ∨
    (∃ u, (resetSequence s).andThen (rotSequence v) = .failed u ∧
      performed s.answers (constructEvents s.cfg v).length < (constructEvents s.cfg v).length ∧
      Emits ((constructEvents s.cfg v).take (performed s.answers (constructEvents s.cfg v).length)) s u ∧
      u.answers = s.answers.drop (performed s.answers (constructEvents s.cfg v).length + 1) ∧
      u.completion = s.completion ∧
      ((performed s.answers (resetEvents s.cfg).length < (resetEvents s.cfg).length ∧ u.ds = s.ds ∧
        u.faulted = s.faulted ∧
        u.fsm = if performed s.answers (resetEvents s.cfg).length < (pulseEvents s.cfg).length then .resetting
          else .initializing) ∨
       (performed s.answers (resetEvents s.cfg).length = (resetEvents s.cfg).length ∧
        u.ds = { s.ds with inversion := true } ∧ u.faulted = false ∧ u.fsm = .ready))) := by
  simp only [constructEvents, List.length_append]
  obtain ⟨t, h, hp, hs, hf, hd, hm, hc⟩ | ⟨t, h, hp, hs, ha, hf, hd, hm, hc⟩ := reset_cases s
  · have hcfg : t.cfg = s.cfg := hs.1.2.2.2.1
    have hrot := rot_cases v t
    rw [hcfg, hs.2] at hrot
    obtain ⟨u, h', hp', hs', hd', hf', hm', hc'⟩ | ⟨u, h', hp', hs', hk', ha'⟩ := hrot
    · refine .inl ⟨u, by rw [h]; exact h', by rw [performed_append_full hp, hp'], sent_append hs hs',
        hf'.trans hf, by rw [hd', hd], hm'.trans hm, hc'.trans hc⟩
    · refine .inr ⟨u, by rw [h]; exact h', by rw [performed_append_full hp]; omega, ?_, ?_, hk'.2.trans hc,
        .inr ⟨hp, hk'.1.1.trans hd, hk'.1.2.2.trans hm, hk'.1.2.1.trans hf⟩⟩
      · rw [performed_append_full hp]; exact emits_take_append hs.1 hs'
      · rw [performed_append_full hp, ha', List.drop_drop]; congr 1
  · refine .inr ⟨t, by rw [h]; rfl, by rw [performed_append_short hp]; omega, ?_, by rw [performed_append_short hp, ha],
      hc, .inl ⟨hp, hd, hm, hf⟩⟩
    rw [performed_append_short hp, List.take_append_of_le_length hp.le]
    exact hs

end Sys2Proof.Machine
end

