-- ==== Sys2Proof/Laws/Run.lean ====
section
/-! SUPPORT. What running a plan does, said once for all plans: its events, performed whole or up to the first failure,
and the registers in each case. -/

namespace Sys2Proof.Machine

/-- The wire program of a plan. -/
def Plan.events (c : Cfg) : Plan → List WireEvent
  | .refuse _ | .answer _ _ => []
  | .program es => es
  | .reset => resetEvents c
  | .construct v => constructEvents c v
  | .setrot v => rotProgram c v
  | .setinv v => invProgram c v

/-- `DS` after a plan that was performed whole. -/
def Plan.dsDone (c : Cfg) (ds : DeviceState) : Plan → DeviceState
  | .refuse _ | .answer _ _ | .program _ => ds
  | .reset => { ds with inversion := true }
  | .construct v => DeviceState.rotate c v { ds with inversion := true }
  | .setrot v => ds.rotate c v
  | .setinv v => { ds with inversion := v }

/-- The plan resets. -/
def Plan.resets : Plan → Bool
  | .reset | .construct _ => true
  | .refuse _ | .answer _ _ | .program _ | .setrot _ | .setinv _ => false

/-- How many of a plan's events the transport performs. -/
def Plan.count (pl : Plan) (s : State) : Nat := performed s.answers (pl.events s.cfg).length

/-- Where a plan that stopped left the registers. -/
def Plan.Stopped (pl : Plan) (s t : State) : Prop :=
  if pl.resets then
    (performed s.answers (resetEvents s.cfg).length < (resetEvents s.cfg).length ∧ t.ds = s.ds ∧
      t.fsm = if performed s.answers (resetEvents s.cfg).length < (pulseEvents s.cfg).length then .resetting
        else .initializing) ∨
    (performed s.answers (resetEvents s.cfg).length = (resetEvents s.cfg).length ∧ (∃ v, pl = .construct v) ∧
      t.ds = { s.ds with inversion := true } ∧ t.fsm = .ready)
  else t.ds = s.ds ∧ t.fsm = s.fsm

/-- Everything a plan can do. -/
theorem Plan.run_next {pl : Plan} {s t : State} (h : pl.run s = .next t) :
    (∃ st r, pl = .answer st r ∧ t = s.complete st r) ∨
    ((∀ st r, pl ≠ .answer st r) ∧ pl.count s = (pl.events s.cfg).length ∧ Sent (pl.events s.cfg) s t ∧
      t.ds = pl.dsDone s.cfg s.ds ∧
      t.fsm = (if pl.resets then .ready else s.fsm) ∧ t.faulted = (if pl.resets then false else s.faulted) ∧
      EndedOk .none t) ∨
    (pl.count s < (pl.events s.cfg).length ∧ Emits ((pl.events s.cfg).take (pl.count s)) s t ∧
      t.answers = s.answers.drop (pl.count s + 1) ∧ t.faulted = true ∧
      t.completion = some ⟨.transportError, .none⟩ ∧ pl.Stopped s t) := by
  have fin : ∀ {u : State}, Emits [] u (u.complete .ok .none) := emits_nil ⟨rfl, rfl, rfl, rfl, rfl⟩
  have err : ∀ {u : State}, Emits [] u ((u.setFaulted true).complete .transportError .none) :=
    emits_nil ⟨rfl, rfl, rfl, rfl, rfl⟩
  have done : ∀ {es : List WireEvent} {u : State}, Sent es s u → Sent es s (u.complete .ok .none) := fun hs =>
    ⟨by simpa using emits_append hs.1 fin, hs.2⟩
  have fail : ∀ {es : List WireEvent} {u : State}, Emits es s u →
      Emits es s ((u.setFaulted true).complete .transportError .none) := fun hs => by simpa using emits_append hs err
  cases pl with
  | refuse r => cases h
  | answer st r => cases h; exact .inl ⟨st, r, rfl, rfl⟩
  | program es =>
    obtain ⟨u, hu, hp⟩ := runProgram_performs es s
    obtain rfl : u = t := by simpa [Plan.run, hu] using h
    rcases Nat.lt_or_eq_of_le (performed_le s.answers es.length) with hk | hk
    · obtain ⟨h1, h2, h3, h4⟩ := hp.failed hk
      exact .inr (.inr ⟨hk, h1, h2, h3, h4, ⟨hp.ds, hp.fsm⟩⟩)
    · obtain ⟨h1, h2, h3⟩ := hp.ok hk
      exact .inr (.inl ⟨nofun, hk, h1, hp.ds, hp.fsm, h2, h3⟩)
  | reset =>
    obtain ⟨u, hu, hp, hs, hf, hd, hm, -⟩ | ⟨u, hu, hp, hs, ha, hf, hd, -, -⟩ := reset_cases s
    · obtain rfl : u.complete .ok .none = t := by simpa [Plan.run, hu, finish, respond] using h
      exact .inr (.inl ⟨nofun, hp, done hs, hd, hf, hm, rfl⟩)
    · obtain rfl : (u.setFaulted true).complete .transportError .none = t := by
        simpa [Plan.run, hu, finish, transportError] using h
      exact .inr (.inr ⟨hp, fail hs, ha, rfl, rfl, .inl ⟨hp, hd, hf⟩⟩)
  | construct v =>
    obtain ⟨u, hu, hp, hs, hf, hd, hm, -⟩ | ⟨u, hu, hp, hs, ha, -, hr⟩ := construct_cases v s
    · obtain rfl : u.complete .ok .none = t := by simpa [Plan.run, hu, finish, respond] using h
      exact .inr (.inl ⟨nofun, hp, done hs, hd, hf, hm, rfl⟩)
    · obtain rfl : (u.setFaulted true).complete .transportError .none = t := by
        simpa [Plan.run, hu, finish, transportError] using h
      refine .inr (.inr ⟨hp, fail hs, ha, rfl, rfl, ?_⟩)
      obtain ⟨h1, h2, -, h4⟩ | ⟨h1, h2, -, h4⟩ := hr
      · exact .inl ⟨h1, h2, h4⟩
      · exact .inr ⟨h1, ⟨v, rfl⟩, h2, h4⟩
  | setrot v =>
    obtain ⟨u, hu, hp, hs, hd, hf, hm, -⟩ | ⟨u, hu, hp, hs, hk, ha⟩ := rot_cases v s
    · obtain rfl : u.complete .ok .none = t := by simpa [Plan.run, hu, finish, respond] using h
      exact .inr (.inl ⟨nofun, hp, done hs, hd, hf, hm, rfl⟩)
    · obtain rfl : (u.setFaulted true).complete .transportError .none = t := by
        simpa [Plan.run, hu, finish, transportError] using h
      exact .inr (.inr ⟨hp, fail hs, ha, rfl, rfl, ⟨hk.1.1, hk.1.2.1⟩⟩)
  | setinv v =>
    obtain ⟨u, hu, hp, hs, hd, hf, hm, -⟩ | ⟨u, hu, hp, hs, hk, ha⟩ := inv_cases v s
    · obtain rfl : u.complete .ok .none = t := by simpa [Plan.run, hu, finish, respond] using h
      exact .inr (.inl ⟨nofun, hp, done hs, hd, hf, hm, rfl⟩)
    · obtain rfl : (u.setFaulted true).complete .transportError .none = t := by
        simpa [Plan.run, hu, finish, transportError] using h
      exact .inr (.inr ⟨hp, fail hs, ha, rfl, rfl, ⟨hk.1.1, hk.1.2.1⟩⟩)

/-- A plan that is not a refusal answers a next state. -/
theorem Plan.run_isNext (pl : Plan) (s : State) (h : ∀ r, pl ≠ .refuse r) : ∃ t, pl.run s = .next t := by
  have fin : ∀ e : Emitted, ∃ t, finish e = .next t := fun e => by cases e <;> exact ⟨_, rfl⟩
  cases pl with
  | refuse r => exact absurd rfl (h r)
  | answer st r => exact ⟨_, rfl⟩
  | program es => exact fin _
  | reset => exact fin _
  | construct v => exact fin _
  | setrot v => exact fin _
  | setinv v => exact fin _

end Sys2Proof.Machine
end

