-- ==== Sys2Proof/Laws/Items.lean ====
section
/-! SUPPORT. Wire programs as whole items: what the observer makes of a program, of a part of one, and that programs stay
in the trace grammar. -/

namespace Sys2Proof.Machine

/-- One item of a wire program (40_transport.md R149): a command bracket, a data bracket, or an event between brackets. -/
inductive Item
  | cmd (code : Byte)
  | data (bytes : List Byte)
  | rst (v : Bool)
  | bl (v : Bool)
  | delay (n : Nat)

/-- The events of an item. -/
def Item.events : Item → List WireEvent
  | .cmd code => cmdFrame code
  | .data bytes => dataFrame bytes
  | .rst v => [.rst v]
  | .bl v => [.bl v]
  | .delay n => [.delay n]

/-- The events of some items. -/
def itemEvents (xs : List Item) : List WireEvent := xs.flatMap Item.events

/-- What the observer makes of an item. -/
def Panel.read (c : Cfg) (p : Panel) : Item → Panel
  | .cmd code => p.command c code
  | .data bytes => bytes.foldl (fun q b => q.data c b) p
  | .rst v => p.observe c false (.rst v)
  | .bl _ | .delay _ => p

/-- What the observer makes of some items. -/
def Panel.readAll (c : Cfg) (p : Panel) (xs : List Item) : Panel := xs.foldl (Panel.read c) p

/-- A program that stopped: whole items, and then at most some bytes of a data bracket. -/
inductive Truncated : List Item → List Item → Prop
  | none (xs : List Item) : Truncated [] xs
  | bytes (n : Nat) (bs : List Byte) (xs : List Item) : Truncated [.data (bs.take n)] (.data bs :: xs)
  | cons (x : Item) {ys xs : List Item} (h : Truncated ys xs) : Truncated (x :: ys) (x :: xs)

theorem Truncated.whole (xs : List Item) : Truncated xs xs := by
  induction xs with
  | nil => exact .none []
  | cons x xs ih => exact .cons x ih

@[simp] theorem itemEvents_nil : itemEvents [] = [] := rfl

@[simp] theorem itemEvents_cons (x : Item) (xs : List Item) : itemEvents (x :: xs) = x.events ++ itemEvents xs := rfl

@[simp] theorem itemEvents_append (xs ys : List Item) : itemEvents (xs ++ ys) = itemEvents xs ++ itemEvents ys := by
  simp [itemEvents]

@[simp] theorem Panel.readAll_nil (c : Cfg) (p : Panel) : p.readAll c [] = p := rfl

@[simp] theorem Panel.readAll_cons (c : Cfg) (p : Panel) (x : Item) (xs : List Item) :
    p.readAll c (x :: xs) = (p.read c x).readAll c xs := rfl

@[simp] theorem Panel.readAll_append (c : Cfg) (p : Panel) (xs ys : List Item) :
    p.readAll c (xs ++ ys) = (p.readAll c xs).readAll c ys := by
  simp [Panel.readAll]

theorem watch_bytes (c : Cfg) (bs : List Byte) (es : List WireEvent) (p : Panel) :
    p.watch c true (bs.map .tx ++ es) = (bs.foldl (fun q b => q.data c b) p).watch c true es := by
  induction bs generalizing p with
  | nil => rfl
  | cons b bs ih => simpa [Panel.watch, Panel.observe] using ih (p.data c b)

/-- An item read event by event is the item read at once, whatever the line's level was. -/
theorem watch_item (c : Cfg) (dc : Bool) (x : Item) (es : List WireEvent) (p : Panel) :
    ∃ dc', p.watch c dc (x.events ++ es) = (p.read c x).watch c dc' es := by
  cases x with
  | cmd code => exact ⟨false, by simp [Item.events, cmdFrame, Panel.watch, Panel.observe, Panel.read]⟩
  | data bytes =>
    refine ⟨true, ?_⟩
    simp only [Item.events, dataFrame, Panel.watch, Panel.observe, Panel.read, List.cons_append, List.nil_append,
      List.append_assoc]
    rw [watch_bytes]
    rfl
  | rst v => exact ⟨dc, by cases v <;> rfl⟩
  | bl v => exact ⟨dc, rfl⟩
  | delay n => exact ⟨dc, rfl⟩

/-- A program read whole. -/
theorem watch_items (c : Cfg) (dc : Bool) (xs : List Item) (p : Panel) :
    p.watch c dc (itemEvents xs) = p.readAll c xs := by
  induction xs generalizing p dc with
  | nil => rfl
  | cons x xs ih =>
    obtain ⟨dc', h⟩ := watch_item c dc x (itemEvents xs) p
    rw [itemEvents_cons, h, ih, Panel.readAll_cons]

/-- Part of a data bracket. -/
theorem watch_part_data (c : Cfg) (dc : Bool) (bs : List Byte) (k : Nat) (p : Panel) :
    ∃ n, p.watch c dc ((dataFrame bs).take k) = p.read c (.data (bs.take n)) := by
  match k with
  | 0 => exact ⟨0, rfl⟩
  | 1 => exact ⟨0, rfl⟩
  | k + 2 =>
    refine ⟨k, ?_⟩
    have h : (dataFrame bs).take (k + 2) =
        .sel :: .dc true :: ((bs.take k).map .tx ++ [WireEvent.desel].take (k - bs.length)) := by
      simp [dataFrame, List.take_append, List.map_take]
    rw [h]
    simp only [Panel.watch, Panel.observe, Panel.read]
    rw [watch_bytes]
    cases k - bs.length <;> simp [Panel.watch, Panel.observe]

/-- Part of an item. -/
theorem watch_part_item (c : Cfg) (dc : Bool) (x : Item) (k : Nat) (p : Panel) (xs : List Item) :
    ∃ ys, Truncated ys (x :: xs) ∧ p.watch c dc (x.events.take k) = p.readAll c ys := by
  cases x with
  | cmd code =>
    match k with
    | 0 => exact ⟨[], .none _, rfl⟩
    | 1 => exact ⟨[], .none _, rfl⟩
    | 2 => exact ⟨[], .none _, rfl⟩
    | 3 => exact ⟨[.cmd code], .cons _ (.none _), rfl⟩
    | k + 4 => exact ⟨[.cmd code], .cons _ (.none _), by simp [Item.events, cmdFrame]; rfl⟩
  | data bytes =>
    obtain ⟨n, h⟩ := watch_part_data c dc bytes k p
    exact ⟨[.data (bytes.take n)], .bytes n bytes xs, h⟩
  | rst v =>
    match k with
    | 0 => exact ⟨[], .none _, rfl⟩
    | k + 1 => exact ⟨[.rst v], .cons _ (.none _), by cases v <;> simp [Item.events] <;> rfl⟩
  | bl v => exact ⟨[], .none _, by cases k <;> simp [Item.events, Panel.watch, Panel.observe]⟩
  | delay n => exact ⟨[], .none _, by cases k <;> simp [Item.events, Panel.watch, Panel.observe]⟩

/-- Part of a program is a truncated program read whole. -/
theorem watch_part (c : Cfg) (dc : Bool) (xs : List Item) (k : Nat) (p : Panel) :
    ∃ ys, Truncated ys xs ∧ p.watch c dc ((itemEvents xs).take k) = p.readAll c ys := by
  induction xs generalizing p dc k with
  | nil => exact ⟨[], .none _, by simp⟩
  | cons x xs ih =>
    rw [itemEvents_cons, List.take_append]
    rcases Nat.lt_or_ge k x.events.length with hk | hk
    · rw [show k - x.events.length = 0 by omega, List.take_zero, List.append_nil]
      exact watch_part_item c dc x k p xs
    · rw [List.take_of_length_le hk]
      obtain ⟨dc', h⟩ := watch_item c dc x ((itemEvents xs).take (k - x.events.length)) p
      obtain ⟨ys, h1, h2⟩ := ih dc' (k - x.events.length) (p.read c x)
      exact ⟨x :: ys, .cons x h1, by rw [h, h2, Panel.readAll_cons]⟩

/-! ## The programs as items -/

/-- A command with its data. -/
def commandItems (code : Byte) (data : List Byte) : List Item := .cmd code :: if data.isEmpty then [] else [.data data]

theorem commandProgram_items (code : Byte) (data : List Byte) :
    commandProgram code data = itemEvents (commandItems code data) := by
  unfold commandProgram commandItems
  split <;> simp [Item.events]

/-- A delay. -/
def delayItems (n : Nat) : List Item := if 0 < n then [.delay n] else []

theorem delayProgram_items (n : Nat) : delayProgram n = itemEvents (delayItems n) := by
  unfold delayProgram delayItems
  split <;> rfl

/-- The reset pulse. -/
def pulseItems (c : Cfg) : List Item :=
  if c.hasRst then [.rst false, .delay c.tRstLow, .rst true, .delay c.tRstHigh] else []

theorem rstPulse_items (c : Cfg) : rstPulse c = itemEvents (pulseItems c) := by
  unfold rstPulse pulseItems
  split <;> rfl

/-- An entry of the table. -/
def entryItems (e : InitEntry) : List Item := commandItems e.cmd e.data ++ delayItems e.delay

/-- The register-configuration sequence. -/
def initItems (c : Cfg) : List Item := c.initTable.flatMap entryItems

theorem initProgram_items (c : Cfg) : initProgram c = itemEvents (initItems c) := by
  unfold initProgram initItems
  induction c.initTable with
  | nil => rfl
  | cons e t ih =>
    simp only [List.flatMap_cons, itemEvents_append, ← ih]
    simp [entryProgram, entryItems, commandProgram_items, delayProgram_items]

/-- RESET. -/
def resetItems (c : Cfg) : List Item := pulseItems c ++ initItems c

theorem resetEvents_items (c : Cfg) : resetEvents c = itemEvents (resetItems c) := by
  rw [resetEvents_eq, rstPulse_items, initProgram_items, resetItems, itemEvents_append]

/-- SETROT. -/
def rotItems (c : Cfg) (v : BitVec 2) : List Item := [.cmd (c.code .madctl), .data [(c.rot v).madctl]]

theorem rotProgram_items (c : Cfg) (v : BitVec 2) : rotProgram c v = itemEvents (rotItems c v) := by
  simp [rotProgram, rotItems, Item.events]

/-- SETWIN. -/
def winItems (c : Cfg) (ds : DeviceState) (x0 y0 x1 y1 : Int) : List Item :=
  [.cmd (c.code .caset), .data (be16 (x0 + ds.colstart.toNat) ++ be16 (x1 + ds.colstart.toNat)),
   .cmd (c.code .raset), .data (be16 (y0 + ds.rowstart.toNat) ++ be16 (y1 + ds.rowstart.toNat)), .cmd (c.code .ramwr)]

theorem winProgram_items (c : Cfg) (ds : DeviceState) (x0 y0 x1 y1 : Int) :
    winProgram c ds x0 y0 x1 y1 = itemEvents (winItems c ds x0 y0 x1 y1) := by
  simp [winProgram, winItems, Item.events]

theorem writeProgram_items (c : Cfg) (ds : DeviceState) (x y w h : Int) (buf : List Byte) :
    writeProgram c ds x y w h buf = itemEvents (winItems c ds x y (x + w - 1) (y + h - 1) ++ [.data buf]) := by
  simp [writeProgram, winProgram_items, Item.events]

/-! ## The trace grammar -/

theorem scanTrace_append (p : TracePhase) (xs ys : List WireEvent) :
    scanTrace p (xs ++ ys) = (scanTrace p xs).bind fun q => scanTrace q ys := by
  induction xs generalizing p with
  | nil => rfl
  | cons e xs ih =>
    simp only [List.cons_append, scanTrace]
    cases p.next e with
    | none => rfl
    | some q => exact ih q

theorem scanTrace_bytes (p : TracePhase) (hp : p = .dataOpen ∨ p = .dataSent) (b : Byte) (bs : List Byte) :
    scanTrace p ((b :: bs).map .tx) = some .dataSent := by
  induction bs generalizing p b with
  | nil => rcases hp with rfl | rfl <;> rfl
  | cons b' bs ih => rcases hp with rfl | rfl <;> exact ih _ (.inr rfl) b'

/-- Items in the order the grammar allows: a data bracket is not empty and directly follows a command. -/
def itemsOk : Bool → List Item → Bool
  | _, [] => true
  | _, .cmd _ :: xs => itemsOk true xs
  | d, .data bs :: xs => d && !bs.isEmpty && itemsOk false xs
  | _, .rst _ :: xs | _, .bl _ :: xs | _, .delay _ :: xs => itemsOk false xs

/-- Items in order lead from between brackets to between brackets. -/
theorem scanTrace_items {d : Bool} {xs : List Item} (h : itemsOk d xs = true) :
    ∃ d', scanTrace (.between d) (itemEvents xs) = some (.between d') := by
  induction xs generalizing d with
  | nil => exact ⟨d, rfl⟩
  | cons x xs ih =>
    rw [itemEvents_cons, scanTrace_append]
    cases x with
    | cmd code => exact ih (d := true) h
    | data bs =>
      simp only [itemsOk, Bool.and_eq_true] at h
      obtain ⟨⟨rfl, hb⟩, h⟩ := h
      cases bs with
      | nil => cases hb
      | cons b bs =>
        have : scanTrace (.between true) (Item.events (.data (b :: bs))) = some (.between false) := by
          simp only [Item.events, dataFrame, List.append_assoc]
          rw [scanTrace_append]
          simp only [scanTrace, TracePhase.next, Option.bind_some]
          rw [scanTrace_append, scanTrace_bytes _ (.inl rfl)]
          rfl
        rw [this]
        exact ih h
    | rst v => exact ih (d := false) h
    | bl v => exact ih (d := false) h
    | delay n => exact ih (d := false) h

/-- A trace in the grammar stays in it when ordered items that start with no data bracket follow. -/
theorem traceOk_append {es : List WireEvent} {xs : List Item} (h : traceOk es = true)
    (hx : ∀ d, itemsOk d xs = true) : traceOk (es ++ itemEvents xs) = true := by
  unfold traceOk at h ⊢
  rw [scanTrace_append]
  split at h
  · rename_i d hd
    rw [hd, Option.bind_some]
    obtain ⟨d', h'⟩ := scanTrace_items (hx d)
    rw [h']
  · cases h

end Sys2Proof.Machine
end

