-- ==== Sys2Proof/Laws/Memory.lean ====
section
/-! SUPPORT. Byte memory: a read after a write, and every write keeps the canonical form. -/

namespace Sys2Proof.Machine

theorem Memory.read_write (m : Memory) (a c : Nat) (b : Byte) :
    (m.write a b).read c = if c = a then some b else m.read c := by
  induction m with
  | nil => rfl
  | cons x m ih =>
    obtain ⟨k, v⟩ := x
    simp only [Memory.write]
    split
    · rfl
    · split
      · simp only [Memory.read]; grind
      · simp only [Memory.read, ih]; grind

theorem Memory.risesFrom_write (m : Memory) (k a : Nat) (b : Byte) (h : m.risesFrom k = true) (hk : k < a) :
    (m.write a b).risesFrom k = true := by
  induction m generalizing k with
  | nil => simpa [Memory.write, Memory.risesFrom]
  | cons x m ih =>
    obtain ⟨j, v⟩ := x
    simp only [Memory.risesFrom, Bool.and_eq_true, decide_eq_true_eq] at h
    simp only [Memory.write]
    split <;> rename_i h1
    · simp [Memory.risesFrom, hk, h1, h.2]
    · split <;> rename_i h2
      · subst h2; simp [Memory.risesFrom, hk, h.2]
      · simp [Memory.risesFrom, h.1, ih j h.2 (by omega)]

/-- A write keeps the canonical form. -/
theorem Memory.write_wf (m : Memory) (a : Nat) (b : Byte) (h : m.wf = true) : (m.write a b).wf = true := by
  cases m with
  | nil => rfl
  | cons x m =>
    obtain ⟨k, v⟩ := x
    simp only [Memory.wf] at h
    simp only [Memory.write]
    split <;> rename_i h1
    · simp [Memory.wf, Memory.risesFrom, h1, h]
    · split <;> rename_i h2
      · subst h2; exact h
      · exact Memory.risesFrom_write m k a b h (by omega)

theorem Memory.setPixel_wf (m : Memory) (x y : Word) (p : PixelCode) (h : m.wf = true) : (m.setPixel x y p).wf = true :=
  Memory.write_wf _ _ _ (Memory.write_wf _ _ _ h)

theorem Memory.read_setPixel (m : Memory) (x y : Word) (p : PixelCode) (a : Nat) :
    (m.setPixel x y p).read a =
      if a = frameAddr x.toNat y.toNat + 1 then some p.lo else if a = frameAddr x.toNat y.toNat then some p.hi
      else m.read a := by
  simp [Memory.setPixel, Memory.read_write]

/-- Two pixels share no byte. -/
theorem frameAddr_ne {x y u v : Word} (h : ¬ (x = u ∧ y = v)) :
    frameAddr x.toNat y.toNat ≠ frameAddr u.toNat v.toNat ∧
    frameAddr x.toNat y.toNat ≠ frameAddr u.toNat v.toNat + 1 ∧
    frameAddr x.toNat y.toNat + 1 ≠ frameAddr u.toNat v.toNat := by
  have hx := x.isLt
  have hu := u.isLt
  unfold frameAddr
  refine ⟨fun e => h ?_, by omega, by omega⟩
  constructor <;> apply BitVec.eq_of_toNat_eq <;> omega

theorem Memory.pixel_setPixel (m : Memory) (x y u v : Word) (p : PixelCode) :
    (m.setPixel x y p).pixel u v = if u = x ∧ v = y then some p else m.pixel u v := by
  by_cases h : u = x ∧ v = y
  · obtain ⟨rfl, rfl⟩ := h
    simp [Memory.pixel, Memory.read_setPixel]
  · obtain ⟨h1, h2, h3⟩ := frameAddr_ne h
    simp [Memory.pixel, Memory.read_setPixel, h, h1, h2, h3]

end Sys2Proof.Machine
end

