-- ==== Sys2Proof/Laws/Observer.lean ====
section
/-! SUPPORT. The observer: what each command and each data byte changes, when the frame memory is left alone, and where
a pixel stream stores. -/

namespace Sys2Proof

theorem WireCmd.mem_all (k : WireCmd) : k ∈ WireCmd.all := by cases k <;> decide

/-- The command codes of a legal configuration are distinct (00_scope.md R7). -/
theorem Cfg.wf_nodup {c : Cfg} (h : c.wf = true) : (WireCmd.all.map c.code).Nodup := by
  simp only [Cfg.wf, Bool.and_eq_true, decide_eq_true_eq] at h
  exact h.1.1.2

theorem Cfg.code_inj {c : Cfg} (h : c.wf = true) {k j : WireCmd} (e : c.code k = c.code j) : k = j :=
  List.inj_on_of_nodup_map (Cfg.wf_nodup h) k.mem_all j.mem_all e

theorem Cfg.code_eq {c : Cfg} (h : c.wf = true) (k j : WireCmd) : c.code k = c.code j ↔ k = j :=
  ⟨Cfg.code_inj h, fun e => e ▸ rfl⟩

namespace Machine

variable {c : Cfg} {p : Panel}

@[simp] theorem Panel.command_gram (b : Byte) : (p.command c b).gram = p.gram := by
  unfold Panel.command
  split_ifs <;> rfl

@[simp] theorem Panel.command_lastcmd (b : Byte) : (p.command c b).lastcmd = some b := by
  unfold Panel.command
  split_ifs <;> rfl

@[simp] theorem Panel.command_params (b : Byte) : (p.command c b).params = [] := by
  unfold Panel.command
  split_ifs <;> rfl

@[simp] theorem Panel.command_half (b : Byte) : (p.command c b).half = none := by
  unfold Panel.command
  split_ifs <;> rfl

@[simp] theorem Panel.command_armed (b : Byte) : (p.command c b).armed = (b == c.code .ramwr) := by
  unfold Panel.command
  split_ifs <;> rfl

/-- No command but software-reset changes the window. -/
theorem Panel.command_window {b : Byte} (h : b ≠ c.code .swreset) :
    (p.command c b).xs = p.xs ∧ (p.command c b).xe = p.xe ∧ (p.command c b).ys = p.ys ∧ (p.command c b).ye = p.ye := by
  unfold Panel.command
  split_ifs <;> exact ⟨rfl, rfl, rfl, rfl⟩

/-- Memory-write puts the pointer at the window's first corner. -/
theorem Panel.command_ramwr :
    p.command c (c.code .ramwr) = { p.latch c (c.code .ramwr) with px := p.xs, py := p.ys } := by
  simp [Panel.command]

@[simp] theorem Panel.setColumns_lastcmd : p.setColumns.lastcmd = p.lastcmd := by unfold Panel.setColumns; split <;> rfl
@[simp] theorem Panel.setColumns_gram : p.setColumns.gram = p.gram := by unfold Panel.setColumns; split <;> rfl
@[simp] theorem Panel.setRows_lastcmd : p.setRows.lastcmd = p.lastcmd := by unfold Panel.setRows; split <;> rfl
@[simp] theorem Panel.setRows_gram : p.setRows.gram = p.gram := by unfold Panel.setRows; split <;> rfl
@[simp] theorem Panel.setMadctl_lastcmd : p.setMadctl.lastcmd = p.lastcmd := by unfold Panel.setMadctl; split <;> rfl
@[simp] theorem Panel.setMadctl_gram : p.setMadctl.gram = p.gram := by unfold Panel.setMadctl; split <;> rfl
@[simp] theorem Panel.advance_gram : p.advance.gram = p.gram := by unfold Panel.advance; split_ifs <;> rfl

@[simp] theorem Panel.advance_lastcmd : p.advance.lastcmd = p.lastcmd := by unfold Panel.advance; split_ifs <;> rfl

theorem Panel.pixelByte_lastcmd (b : Byte) : (p.pixelByte b).lastcmd = p.lastcmd := by
  unfold Panel.pixelByte
  split <;> simp

@[simp] theorem Panel.data_lastcmd (b : Byte) : (p.data c b).lastcmd = p.lastcmd := by
  unfold Panel.data
  split
  · rfl
  · split_ifs <;> simp [Panel.pixelByte_lastcmd]

/-- A data byte stores nothing unless the last command was memory-write. -/
theorem Panel.data_gram {b : Byte} (h : p.lastcmd ≠ some (c.code .ramwr)) : (p.data c b).gram = p.gram := by
  unfold Panel.data
  split
  · rfl
  · rename_i k hk
    split_ifs with h1 h2 h3 h4
    · simp
    · simp
    · simp
    · subst h4; exact absurd hk h
    · rfl

/-- A data byte after memory-write. -/
theorem Panel.data_ramwr {b : Byte} (hc : c.wf = true) (h : p.lastcmd = some (c.code .ramwr)) :
    p.data c b = Panel.pixelByte b { p with params := p.params ++ [b] } := by
  simp [Panel.data, h, Cfg.code_eq hc]

theorem Panel.data_wf {b : Byte} (h : p.gram.wf = true) : (p.data c b).gram.wf = true := by
  unfold Panel.data
  split
  · exact h
  · split_ifs
    · simpa
    · simpa
    · simpa
    · unfold Panel.pixelByte
      split
      · exact h
      · simpa using Memory.setPixel_wf _ _ _ _ h
    · exact h

/-! ## Programs -/

/-- Some items send no data byte to an armed panel. -/
def Harmless (c : Cfg) : Option Byte → List Item → Prop
  | _, [] => True
  | _, .cmd code :: xs => Harmless c (some code) xs
  | k, .data bs :: xs => (bs = [] ∨ k ≠ some (c.code .ramwr)) ∧ Harmless c k xs
  | _, .rst false :: xs => Harmless c none xs
  | k, .rst true :: xs | k, .bl _ :: xs | k, .delay _ :: xs => Harmless c k xs

theorem Panel.foldData_lastcmd (bs : List Byte) : (bs.foldl (fun q b => q.data c b) p).lastcmd = p.lastcmd := by
  induction bs generalizing p with
  | nil => rfl
  | cons b bs ih => rw [List.foldl_cons, ih, Panel.data_lastcmd]

theorem Panel.foldData_gram (h : p.lastcmd ≠ some (c.code .ramwr)) (bs : List Byte) :
    (bs.foldl (fun q b => q.data c b) p).gram = p.gram := by
  induction bs generalizing p with
  | nil => rfl
  | cons b bs ih => rw [List.foldl_cons, ih (by rwa [Panel.data_lastcmd]), Panel.data_gram h]

theorem Panel.foldData_wf (h : p.gram.wf = true) (bs : List Byte) :
    (bs.foldl (fun q b => q.data c b) p).gram.wf = true := by
  induction bs generalizing p with
  | nil => exact h
  | cons b bs ih => exact ih (Panel.data_wf h)

/-- Harmless items leave the frame memory alone. -/
theorem Panel.readAll_gram {xs : List Item} (h : Harmless c p.lastcmd xs) : (p.readAll c xs).gram = p.gram := by
  induction xs generalizing p with
  | nil => rfl
  | cons x xs ih =>
    rw [Panel.readAll_cons]
    cases x with
    | cmd code => rw [ih (by rw [Panel.read, Panel.command_lastcmd]; exact h)]; simp [Panel.read]
    | data bs =>
      rw [ih (by rw [Panel.read, Panel.foldData_lastcmd]; exact h.2)]
      rcases h.1 with rfl | h1
      · rfl
      · exact Panel.foldData_gram h1 bs
    | rst v => cases v <;> exact ih h
    | bl v => exact ih h
    | delay n => exact ih h

/-- Whatever is sent, the frame memory stays in canonical form. -/
theorem Panel.readAll_wf (h : p.gram.wf = true) (xs : List Item) : (p.readAll c xs).gram.wf = true := by
  induction xs generalizing p with
  | nil => exact h
  | cons x xs ih =>
    rw [Panel.readAll_cons]
    apply ih
    cases x with
    | cmd code => simpa [Panel.read]
    | data bs => exact Panel.foldData_wf h bs
    | rst v => cases v <;> exact h
    | bl v => exact h
    | delay n => exact h

theorem Truncated.harmless {ys xs : List Item} {k : Option Byte} (h : Truncated ys xs) (hx : Harmless c k xs) :
    Harmless c k ys := by
  induction h generalizing k with
  | none => trivial
  | bytes n bs xs =>
    refine ⟨?_, trivial⟩
    rcases hx.1 with rfl | h1
    · exact .inl (by simp)
    · exact .inr h1
  | cons x _ ih =>
    cases x with
    | cmd code => exact ih hx
    | data bs => exact ⟨hx.1, ih hx.2⟩
    | rst v => cases v <;> exact ih hx
    | bl v => exact ih hx
    | delay n => exact ih hx

/-- A command other than memory-write, with its data, is harmless, and so is what follows it if that is. -/
theorem harmless_command {code : Byte} {data : List Byte} {xs : List Item} {k : Option Byte}
    (h : code ≠ c.code .ramwr) (hx : Harmless c (some code) xs) : Harmless c k (commandItems code data ++ xs) := by
  unfold commandItems
  split
  · exact hx
  · exact ⟨.inr fun e => h (Option.some.inj e), hx⟩

/-- The bytes of the frame memory outside a rectangle of panel coordinates. -/
def GramOutside (x0 x1 y0 y1 : Nat) (m m' : Memory) : Prop :=
  ∀ a, (∀ x y, x0 ≤ x → x < x1 → y0 ≤ y → y < y1 → a ≠ frameAddr x y ∧ a ≠ frameAddr x y + 1) → m'.read a = m.read a

theorem GramOutside.refl (x0 x1 y0 y1 : Nat) (m : Memory) : GramOutside x0 x1 y0 y1 m m := fun _ _ => rfl

theorem GramOutside.trans {x0 x1 y0 y1 : Nat} {m m' m'' : Memory} (h : GramOutside x0 x1 y0 y1 m m')
    (h' : GramOutside x0 x1 y0 y1 m' m'') : GramOutside x0 x1 y0 y1 m m'' := fun a ha => (h' a ha).trans (h a ha)

/-- The pointer stands in the window `xs..xe` by `ys..ye`. -/
structure Panel.Within (xs xe ys ye : Nat) (p : Panel) : Prop where
  xs_eq : p.xs.toNat = xs
  xe_eq : p.xe.toNat = xe
  ys_eq : p.ys.toNat = ys
  ye_eq : p.ye.toNat = ye
  px_ge : xs ≤ p.px.toNat
  px_le : p.px.toNat ≤ xe
  py_ge : ys ≤ p.py.toNat
  py_le : p.py.toNat ≤ ye

theorem word_succ (v : Word) (h : v.toNat < 65535) : (v + 1).toNat = v.toNat + 1 := by
  have : (1 : Word).toNat = 1 := rfl
  rw [BitVec.toNat_add]
  omega

theorem Panel.advance_within {xs xe ys ye : Nat} (h : p.Within xs xe ys ye) : p.advance.Within xs xe ys ye := by
  obtain ⟨h1, h2, h3, h4, h5, h6, h7, h8⟩ := h
  have := p.xe.isLt
  have := p.ye.isLt
  unfold Panel.advance
  split_ifs with ha hb
  · have := word_succ p.px (by omega)
    exact ⟨h1, h2, h3, h4, by simp only; omega, by simp only; omega, h7, h8⟩
  · have := word_succ p.py (by omega)
    exact ⟨h1, h2, h3, h4, by simp only; omega, by simp only; omega, by simp only; omega, by simp only; omega⟩
  · exact ⟨h1, h2, h3, h4, by simp only; omega, by simp only; omega, by simp only; omega, by simp only; omega⟩

/-- A data byte of a pixel stream keeps the pointer in the window and stores only there. -/
theorem Panel.data_within {xs xe ys ye : Nat} {b : Byte} (hc : c.wf = true) (hl : p.lastcmd = some (c.code .ramwr))
    (h : p.Within xs xe ys ye) :
    (p.data c b).Within xs xe ys ye ∧ GramOutside xs (xe + 1) ys (ye + 1) p.gram (p.data c b).gram := by
  rw [Panel.data_ramwr hc hl]
  unfold Panel.pixelByte
  split
  · exact ⟨⟨h.1, h.2, h.3, h.4, h.5, h.6, h.7, h.8⟩, .refl _ _ _ _ _⟩
  · refine ⟨Panel.advance_within ⟨h.1, h.2, h.3, h.4, h.5, h.6, h.7, h.8⟩, fun a ha => ?_⟩
    obtain ⟨h1, h2⟩ := ha p.px.toNat p.py.toNat h.px_ge (by have := h.px_le; omega) h.py_ge (by have := h.py_le; omega)
    simp [Memory.read_setPixel, h1, h2]

/-- A pixel stream of any length stores only in the window. -/
theorem Panel.stream_within {xs xe ys ye : Nat} (hc : c.wf = true) (hl : p.lastcmd = some (c.code .ramwr))
    (h : p.Within xs xe ys ye) (bs : List Byte) :
    (bs.foldl (fun q b => q.data c b) p).Within xs xe ys ye ∧
    GramOutside xs (xe + 1) ys (ye + 1) p.gram (bs.foldl (fun q b => q.data c b) p).gram := by
  induction bs generalizing p with
  | nil => exact ⟨h, .refl _ _ _ _ _⟩
  | cons b bs ih =>
    obtain ⟨h1, h2⟩ := Panel.data_within (b := b) hc hl h
    obtain ⟨h3, h4⟩ := ih (by rwa [Panel.data_lastcmd]) h1
    exact ⟨h3, h2.trans h4⟩

/-- The columns after column-address-set with its four bytes. -/
theorem Panel.read_caset (hl : p.lastcmd = some (c.code .caset)) (hp : p.params = [])
    (b0 b1 b2 b3 : Byte) :
    p.read c (.data [b0, b1, b2, b3]) = { p with params := [b0, b1, b2, b3], xs := le16 b1 b0, xe := le16 b3 b2 } := by
  simp [Panel.read, Panel.data, Panel.setColumns, hl, hp]

/-- The rows after row-address-set with its four bytes. -/
theorem Panel.read_raset (hc : c.wf = true) (hl : p.lastcmd = some (c.code .raset)) (hp : p.params = [])
    (b0 b1 b2 b3 : Byte) :
    p.read c (.data [b0, b1, b2, b3]) = { p with params := [b0, b1, b2, b3], ys := le16 b1 b0, ye := le16 b3 b2 } := by
  simp [Panel.read, Panel.data, Panel.setRows, hl, hp, Cfg.code_eq hc]

/-- The rotation byte after rotation/mirror-control with its one byte. -/
theorem Panel.read_madctl (hc : c.wf = true) (hl : p.lastcmd = some (c.code .madctl)) (hp : p.params = []) (b : Byte) :
    p.read c (.data [b]) = { p with params := [b], madctl := b } := by
  simp [Panel.read, Panel.data, Panel.setMadctl, hl, hp, Cfg.code_eq hc]

end Machine

end Sys2Proof
end

