-- ==== Sys2Proof/Laws/InitTable.lean ====
section
/-! SUPPORT. What an admissible `INIT_TABLE` (41_protocol.md R163) makes of a reset: it sends no memory-write, and its
last six entries leave the window, the mirrors and the lines as R39 and R307 say. -/

namespace Sys2Proof

theorem Cfg.tableMatches_append {c : Cfg} {ks js : List (WireCmd × Option (List Byte))} :
    ∀ {es : List InitEntry}, c.tableMatches es (ks ++ js) = true →
      ∃ as bs, es = as ++ bs ∧ c.tableMatches as ks = true ∧ c.tableMatches bs js = true := by
  induction ks with
  | nil => exact fun h => ⟨[], _, rfl, rfl, h⟩
  | cons k ks ih =>
    intro es h
    match es with
    | [] => cases h
    | e :: es =>
      simp only [List.cons_append, Cfg.tableMatches, Bool.and_eq_true] at h
      obtain ⟨as, bs, rfl, h1, h2⟩ := ih h.2
      exact ⟨e :: as, bs, rfl, by simp only [Cfg.tableMatches, Bool.and_eq_true]; exact ⟨h.1, h1⟩, h2⟩

theorem Cfg.tableMatches_code {c : Cfg} {ks : List (WireCmd × Option (List Byte))} :
    ∀ {es : List InitEntry}, c.tableMatches es ks = true → ∀ e ∈ es, ∃ k ∈ ks, e.cmd = c.code k.1 := by
  induction ks with
  | nil => intro es h e he; cases es <;> simp_all [Cfg.tableMatches]
  | cons k ks ih =>
    intro es h e he
    match es with
    | [] => cases he
    | e' :: es =>
      simp only [Cfg.tableMatches, Bool.and_eq_true, beq_iff_eq] at h
      rcases List.mem_cons.mp he with rfl | he
      · exact ⟨k, List.mem_cons_self, h.1.1⟩
      · obtain ⟨j, hj, hc⟩ := ih h.2 e he
        exact ⟨j, List.mem_cons_of_mem _ hj, hc⟩

theorem Cfg.wf_initOk {c : Cfg} (h : c.wf = true) : ∃ g, c.tableMatches c.initTable (c.initSkeleton g) = true := by
  simp only [Cfg.wf, Bool.and_eq_true] at h
  have h := h.1.2
  simp only [Cfg.initOk, Bool.or_eq_true] at h
  rcases h with h | h
  · exact ⟨true, h⟩
  · exact ⟨false, h⟩

/-- The table holds no memory-write entry. -/
theorem Cfg.initTable_no_ramwr {c : Cfg} (h : c.wf = true) : ∀ e ∈ c.initTable, e.cmd ≠ c.code .ramwr := by
  obtain ⟨g, hg⟩ := Cfg.wf_initOk h
  intro e he hc
  obtain ⟨k, hk, hk'⟩ := Cfg.tableMatches_code hg e he
  rw [hc, Cfg.code_eq h] at hk'
  cases g <;> simp [Cfg.initSkeleton, Cfg.initHead, Cfg.initGamma, Cfg.initTail] at hk <;>
    rcases hk with rfl | rfl | rfl | rfl | rfl | rfl | rfl | rfl | rfl | rfl | rfl | rfl | rfl | rfl | rfl | rfl | rfl |
      rfl | hk <;>
    first
    | cases hk'
    | (rcases hk with rfl | rfl <;> cases hk')

/-- The table ends with the six entries 15 to 20. -/
theorem Cfg.initTable_tail {c : Cfg} (h : c.wf = true) :
    ∃ (hd : List InitEntry) (d1 d2 d3 d4 d5 d6 : Nat), c.initTable = hd ++
      [⟨c.code .colmod, [c.colmod16bpp], d1⟩,
       ⟨c.code .caset, boundBytes c.rot0.colstart.toNat (c.rot0.colstart.toNat + c.w0.toNat - 1), d2⟩,
       ⟨c.code .raset, boundBytes c.rot0.rowstart.toNat (c.rot0.rowstart.toNat + c.h0.toNat - 1), d3⟩,
       ⟨c.code .invon, [], d4⟩, ⟨c.code .noron, [], d5⟩, ⟨c.code .dispon, [], d6⟩] := by
  obtain ⟨g, hg⟩ := Cfg.wf_initOk h
  obtain ⟨hd, tl, he, -, ht⟩ := Cfg.tableMatches_append hg
  match tl with
  | [⟨c1, b1, d1⟩, ⟨c2, b2, d2⟩, ⟨c3, b3, d3⟩, ⟨c4, b4, d4⟩, ⟨c5, b5, d5⟩, ⟨c6, b6, d6⟩] =>
    simp [Cfg.tableMatches, Cfg.initTail] at ht
    obtain ⟨⟨rfl, rfl⟩, ⟨rfl, rfl⟩, ⟨rfl, rfl⟩, ⟨rfl, rfl⟩, ⟨rfl, rfl⟩, ⟨rfl, rfl⟩⟩ := ht
    exact ⟨hd, d1, d2, d3, d4, d5, d6, he⟩
  | [] | [_] | [_, _] | [_, _, _] | [_, _, _, _] | [_, _, _, _, _] | _ :: _ :: _ :: _ :: _ :: _ :: _ :: _ =>
    simp [Cfg.tableMatches, Cfg.initTail] at ht

namespace Machine

variable {c : Cfg} {p : Panel}

theorem Panel.readAll_delay (n : Nat) : p.readAll c (delayItems n) = p := by
  unfold delayItems
  split <;> rfl

/-- What the observer makes of a table entry. -/
theorem Panel.readAll_entry (e : InitEntry) : p.readAll c (entryItems e) = (p.command c e.cmd).read c (.data e.data) := by
  unfold entryItems commandItems
  rw [Panel.readAll_append, Panel.readAll_delay]
  split <;> rename_i h
  · rw [List.isEmpty_iff.mp h]; rfl
  · rfl

theorem harmless_delay {k : Option Byte} {n : Nat} {xs : List Item} (h : Harmless c k xs) :
    Harmless c k (delayItems n ++ xs) := by
  unfold delayItems
  split
  · exact h
  · exact h

theorem harmless_entries {es : List InitEntry} (h : ∀ e ∈ es, e.cmd ≠ c.code .ramwr) (k : Option Byte) :
    Harmless c k (es.flatMap entryItems) := by
  induction es generalizing k with
  | nil => trivial
  | cons e es ih =>
    rw [List.flatMap_cons, entryItems, List.append_assoc]
    exact harmless_command (h e List.mem_cons_self)
      (harmless_delay (ih (fun e' he => h e' (List.mem_cons_of_mem _ he)) _))

/-- A reset leaves the frame memory alone. -/
theorem harmless_reset (h : c.wf = true) (k : Option Byte) : Harmless c k (resetItems c) := by
  have h1 : ∀ j, Harmless c j (initItems c) := harmless_entries (Cfg.initTable_no_ramwr h)
  unfold resetItems pulseItems
  split
  · exact h1 none
  · exact h1 k

/-- A 16-bit bound read back from its two bytes. -/
theorem le16_bound (n : Nat) (h : n ≤ 65535) : (le16 (BitVec.ofNat 8 (n % 256)) (BitVec.ofNat 8 (n / 256))).toNat = n := by
  rw [le16_toNat, BitVec.toNat_ofNat, BitVec.toNat_ofNat]
  omega

/-- The observer after the whole of a reset. -/
theorem Panel.readAll_reset (h : c.wf = true) (hx : c.rot0.colstart.toNat + c.w0.toNat - 1 ≤ 65535)
    (hy : c.rot0.rowstart.toNat + c.h0.toNat - 1 ≤ 65535) :
    (p.readAll c (resetItems c)).armed = false ∧ (p.readAll c (resetItems c)).lastcmd = some (c.code .dispon) ∧
    (p.readAll c (resetItems c)).inv = true ∧ (p.readAll c (resetItems c)).disp = true ∧
    (p.readAll c (resetItems c)).xs = c.rot0.colstart ∧
    (p.readAll c (resetItems c)).xe.toNat = c.rot0.colstart.toNat + c.w0.toNat - 1 ∧
    (p.readAll c (resetItems c)).ys = c.rot0.rowstart ∧
    (p.readAll c (resetItems c)).ye.toNat = c.rot0.rowstart.toNat + c.h0.toNat - 1 := by
  obtain ⟨hd, d1, d2, d3, d4, d5, d6, ht⟩ := Cfg.initTable_tail h
  have e1 : ∀ v : Word, le16 (BitVec.ofNat 8 (v.toNat % 256)) (BitVec.ofNat 8 (v.toNat / 256)) = v := fun v =>
    BitVec.eq_of_toNat_eq (le16_bound _ (by have := v.isLt; omega))
  simp only [resetItems, initItems, ht, List.flatMap_append, Panel.readAll_append, List.flatMap_cons, List.flatMap_nil,
    Panel.readAll_nil]
  generalize Panel.readAll c (Panel.readAll c p (pulseItems c)) (hd.flatMap entryItems) = q
  simp only [Panel.readAll_entry, boundBytes]
  generalize Panel.read c (q.command c (c.code .colmod)) (.data [c.colmod16bpp]) = q
  rw [Panel.read_caset (p := q.command c (c.code .caset)) (by simp) (by simp), Panel.read_raset h (by simp) (by simp)]
  simp [Panel.read, Panel.command, Panel.latch, Cfg.code_eq h, e1, le16_bound _ hx, le16_bound _ hy]

end Machine

end Sys2Proof
end

