-- ==== Sys2Proof/Laws/Shapes.lean ====
section
/-! SUPPORT. The edge policy and the strict check in closed form, solid buffers, and the bounds a legal configuration
gives the screen. -/

namespace Sys2Proof

theorem Cfg.wf_native {c : Cfg} (h : c.wf = true) :
    1 ≤ c.w0.toNat ∧ c.w0.toNat ≤ 32767 ∧ 1 ≤ c.h0.toNat ∧ c.h0.toNat ≤ 32767 := by
  simp only [Cfg.wf, Bool.and_eq_true, decide_eq_true_eq] at h
  exact ⟨h.1.1.1.1.1.1.1, h.1.1.1.1.1.1.2, h.1.1.1.1.1.2, h.1.1.1.1.2⟩

/-- Every tuple of a legal configuration swaps exactly for odd rotations, and every bound fits 16 bits. -/
theorem Cfg.wf_rot {c : Cfg} (h : c.wf = true) (r : BitVec 2) :
    (c.rot r).swap = decide (r.toNat % 2 = 1) ∧ (c.rot r).colstart.toNat + max c.w0.toNat c.h0.toNat - 1 ≤ 65535 ∧
    (c.rot r).rowstart.toNat + max c.w0.toNat c.h0.toNat - 1 ≤ 65535 := by
  simp only [Cfg.wf, Bool.and_eq_true] at h
  have h := h.1.1.1.2
  have hr : r = 0 ∨ r = 1 ∨ r = 2 ∨ r = 3 := by revert r; decide
  have hk : c.rotOk r = true := by
    rcases hr with rfl | rfl | rfl | rfl
    exacts [h.1.1.1, h.1.1.2, h.1.2, h.2]
  simpa [Cfg.rotOk, and_assoc] using hk

namespace Machine

/-- EDGE in closed form. -/
theorem edgePolicy_eq (w0 h0 : Int) (q : Rect) :
    edgePolicy w0 h0 q =
      if q.x < 0 ∨ q.y < 0 ∨ q.w ≤ 0 ∨ q.h ≤ 0 ∨ w0 < q.x ∨ h0 < q.y then .error .invalidArgument
      else .ok ⟨min q.x (w0 - 1), min q.y (h0 - 1), min q.w (w0 - min q.x (w0 - 1)), min q.h (h0 - min q.y (h0 - 1))⟩ := by
  unfold edgePolicy
  split_ifs <;> first
    | rfl
    | omega
    | (simp only [Except.ok.injEq, Rect.mk.injEq]; omega)

theorem edgePolicy_error {w0 h0 : Int} {q : Rect} {e : Raise} (h : edgePolicy w0 h0 q = .error e) :
    e = .invalidArgument := by
  rw [edgePolicy_eq] at h
  split at h
  · cases h; rfl
  · cases h

/-- What EDGE returns lies on the screen. -/
theorem edgePolicy_ok {w0 h0 : Int} {q r : Rect} (hw : 1 ≤ w0) (hh : 1 ≤ h0) (h : edgePolicy w0 h0 q = .ok r) :
    0 ≤ r.x ∧ 0 ≤ r.y ∧ 1 ≤ r.w ∧ 1 ≤ r.h ∧ r.x + r.w ≤ w0 ∧ r.y + r.h ≤ h0 := by
  rw [edgePolicy_eq] at h
  split at h
  · cases h
  · cases h
    simp only
    omega

/-- STRICT in closed form. -/
theorem strictCheck_eq (w0 h0 : Int) (q : Rect) :
    strictCheck w0 h0 q =
      if q.x < 0 ∨ q.y < 0 ∨ q.w ≤ 0 ∨ q.h ≤ 0 ∨ q.x + q.w > w0 ∨ q.y + q.h > h0 then .error .invalidArgument
      else .ok () := by
  unfold strictCheck
  split_ifs <;> first
    | rfl
    | omega

theorem rep_length (n : Nat) (p : PixelCode) : (rep n p).length = 2 * n := by
  induction n with
  | zero => rfl
  | succ n ih => simp only [rep, List.replicate_succ, List.flatten_cons, List.length_append, List.length_cons,
      List.length_nil] at ih ⊢; omega

theorem rep_get (n : Nat) (p : PixelCode) (k : Nat) (h : k < n) :
    (rep n p)[2 * k]? = some p.hi ∧ (rep n p)[2 * k + 1]? = some p.lo := by
  induction n generalizing k with
  | zero => omega
  | succ n ih =>
    cases k with
    | zero => exact ⟨rfl, rfl⟩
    | succ k =>
      have := ih k (by omega)
      simp only [rep, List.replicate_succ, List.flatten_cons] at this ⊢
      rw [show 2 * (k + 1) = 2 * k + 1 + 1 by omega]
      simpa using this

/-- On a legal machine the screen has at least one pixel, and every panel coordinate of it is a 16-bit value. -/
theorem screen_bounds {s : State} (h : Inv s) :
    1 ≤ s.ds.width.toNat ∧ 1 ≤ s.ds.height.toNat ∧ s.ds.width.toNat ≤ 32767 ∧ s.ds.height.toNat ≤ 32767 ∧
    s.ds.colstart.toNat + s.ds.width.toNat ≤ 65536 ∧ s.ds.rowstart.toNat + s.ds.height.toNat ≤ 65536 := by
  obtain ⟨h1, h2, h3, h4⟩ := h.ds
  obtain ⟨a1, a2, a3, a4⟩ := Cfg.wf_native h.cfg
  obtain ⟨-, b1, b2⟩ := Cfg.wf_rot h.cfg s.ds.rotation
  rw [← h3] at b1
  rw [← h4] at b2
  have h1' := congrArg BitVec.toNat h1
  have h2' := congrArg BitVec.toNat h2
  split at h1' <;> rename_i hr <;> simp only [hr, if_true, if_false] at h2' <;> omega

/-- `be16` of a 16-bit value. -/
theorem be16_nat (v : Nat) (h : v ≤ 65535) : be16 v = [BitVec.ofNat 8 (v / 256), BitVec.ofNat 8 (v % 256)] := by
  have e : BitVec.ofInt 16 (v : Int) = BitVec.ofNat 16 v := by simp
  simp only [be16, be16Bytes, e]
  rw [if_pos (by omega)]
  congr 1
  · apply BitVec.eq_of_toNat_eq
    rw [highByte_toNat, BitVec.toNat_ofNat, BitVec.toNat_ofNat]
    omega
  · congr 1
    apply BitVec.eq_of_toNat_eq
    rw [lowByte_toNat, BitVec.toNat_ofNat, BitVec.toNat_ofNat]
    omega

end Machine

end Sys2Proof
end

