-- ==== Sys2Proof/Laws/Fill.lean ====
section
/-! SUPPORT. What a window and its pixel stream do to the observer (45_wire_observer.md R306). -/

namespace Sys2Proof.Machine

variable {c : Cfg} {p : Panel}

/-- The items of a window given by its four panel bounds. -/
def windowItems (c : Cfg) (x0 x1 y0 y1 : Nat) : List Item :=
  [.cmd (c.code .caset), .data (be16 x0 ++ be16 x1), .cmd (c.code .raset), .data (be16 y0 ++ be16 y1), .cmd (c.code .ramwr)]

/-- A window armed for a stream: its bounds, and the pointer at its first corner. -/
structure Panel.Armed (c : Cfg) (x0 x1 y0 y1 : Nat) (p : Panel) : Prop where
  lastcmd : p.lastcmd = some (c.code .ramwr)
  armed   : p.armed = true
  half    : p.half = none
  xs      : p.xs.toNat = x0
  xe      : p.xe.toNat = x1
  ys      : p.ys.toNat = y0
  ye      : p.ye.toNat = y1
  px      : p.px = p.xs
  py      : p.py = p.ys

/-- The observer after a window. -/
theorem Panel.readAll_window (hc : c.wf = true) {x0 x1 y0 y1 : Nat} (h0 : x0 ≤ 65535) (h1 : x1 ≤ 65535)
    (h2 : y0 ≤ 65535) (h3 : y1 ≤ 65535) :
    (p.readAll c (windowItems c x0 x1 y0 y1)).Armed c x0 x1 y0 y1 ∧
    (p.readAll c (windowItems c x0 x1 y0 y1)).gram = p.gram := by
  have hg := Panel.readAll_gram (c := c) (p := p) (xs := windowItems c x0 x1 y0 y1)
    ⟨.inr (by simp [Cfg.code_eq hc]), .inr (by simp [Cfg.code_eq hc]), trivial⟩
  refine ⟨?_, hg⟩
  simp only [windowItems, Panel.readAll_cons, Panel.readAll_nil, be16_nat _ h0, be16_nat _ h1, be16_nat _ h2,
    be16_nat _ h3, List.cons_append, List.nil_append]
  simp only [show ∀ (q : Panel) b, q.read c (.cmd b) = q.command c b from fun _ _ => rfl]
  rw [Panel.read_caset (p := p.command c (c.code .caset)) (by simp) (by simp), Panel.read_raset hc (by simp) (by simp)]
  constructor <;> simp [Panel.command, Panel.latch, Cfg.code_eq hc, le16_bound, h0, h1, h2, h3]

theorem windowItems_harmless (hc : c.wf = true) (x0 x1 y0 y1 : Nat) (k : Option Byte) :
    Harmless c k (windowItems c x0 x1 y0 y1) :=
  ⟨.inr (by simp [Cfg.code_eq hc]), .inr (by simp [Cfg.code_eq hc]), trivial⟩

theorem Panel.Armed.within {x0 x1 y0 y1 : Nat} (h : p.Armed c x0 x1 y0 y1) (hx : x0 ≤ x1) (hy : y0 ≤ y1) :
    p.Within x0 x1 y0 y1 :=
  ⟨h.xs, h.xe, h.ys, h.ye, by rw [h.px, h.xs], by rw [h.px, h.xs]; exact hx, by rw [h.py, h.ys], by rw [h.py, h.ys]; exact hy⟩

theorem Truncated.append {ys xs zs : List Item} (h : Truncated ys (xs ++ zs)) :
    Truncated ys xs ∨ ∃ ws, ys = xs ++ ws ∧ Truncated ws zs := by
  induction xs generalizing ys with
  | nil => exact .inr ⟨ys, rfl, h⟩
  | cons x xs ih =>
    rw [List.cons_append] at h
    cases h with
    | none => exact .inl (.none _)
    | bytes n bs => exact .inl (.bytes n bs xs)
    | cons _ t =>
      rcases ih t with t | ⟨ws, rfl, t2⟩
      · exact .inl (.cons x t)
      · exact .inr ⟨ws, rfl, t2⟩

/-- A window and its stream, however much of them is sent, store only in the window. -/
theorem Panel.readAll_write_outside (hc : c.wf = true) {x0 x1 y0 y1 : Nat} (h1 : x1 ≤ 65535) (h3 : y1 ≤ 65535)
    (hx : x0 ≤ x1) (hy : y0 ≤ y1) {buf : List Byte} {ys : List Item}
    (h : Truncated ys (windowItems c x0 x1 y0 y1 ++ [.data buf])) :
    GramOutside x0 (x1 + 1) y0 (y1 + 1) p.gram (p.readAll c ys).gram := by
  rcases h.append with hh | ⟨ws, rfl, h2⟩
  · rw [Panel.readAll_gram (hh.harmless (windowItems_harmless hc _ _ _ _ _))]
    exact .refl _ _ _ _ _
  · obtain ⟨ha, hg⟩ := Panel.readAll_window (p := p) hc (x0 := x0) (x1 := x1) (y0 := y0) (y1 := y1) (by omega) h1
      (by omega) h3
    rw [Panel.readAll_append, ← hg]
    generalize p.readAll c (windowItems c x0 x1 y0 y1) = q at ha
    have key : ∀ bs, GramOutside x0 (x1 + 1) y0 (y1 + 1) q.gram (q.readAll c [.data bs]).gram := fun bs =>
      (Panel.stream_within hc ha.lastcmd (ha.within hx hy) bs).2
    cases h2 with
    | none => exact .refl _ _ _ _ _
    | bytes n bs => exact key _
    | cons _ t => cases t; exact key _

/-- A pixel: its two bytes store the code at the pointer and advance it. -/
theorem Panel.data_pixel (hc : c.wf = true) (hl : p.lastcmd = some (c.code .ramwr)) (hh : p.half = none) (hi lo : Byte) :
    ((p.data c hi).data c lo) =
      Panel.advance { p with params := p.params ++ [hi] ++ [lo], gram := p.gram.setPixel p.px p.py ⟨hi, lo⟩, half := none } := by
  rw [Panel.data_ramwr hc (by rwa [Panel.data_lastcmd]), Panel.data_ramwr hc hl]
  simp [Panel.pixelByte, hh]

/-- The observer after `n` whole pixels of a stream into an armed window of `w` by `h` pixels. -/
structure Panel.Filled (c : Cfg) (x0 y0 w h : Nat) (buf : List Byte) (n : Nat) (p q : Panel) : Prop where
  lastcmd : q.lastcmd = some (c.code .ramwr)
  armed   : q.armed = true
  half    : q.half = none
  xs      : q.xs = p.xs
  xe      : q.xe = p.xe
  ys      : q.ys = p.ys
  ye      : q.ye = p.ye
  inside  : n < w * h → q.px.toNat = x0 + n % w ∧ q.py.toNat = y0 + n / w
  done    : n = w * h → q.px = q.xs ∧ q.py = q.ys
  gram    : ∀ (u v : Word) (col row : Nat), col < w → row < h → u.toNat = x0 + col → v.toNat = y0 + row →
    row * w + col < n → q.gram.pixel u v = some ⟨buf.getD (2 * (row * w + col)) 0, buf.getD (2 * (row * w + col) + 1) 0⟩

theorem cell_eq {w col row n : Nat} (hc : col < w) : row * w + col = n ↔ n % w = col ∧ n / w = row := by
  constructor
  · rintro rfl
    rw [Nat.mul_comm, Nat.mul_add_mod, Nat.mod_eq_of_lt hc, Nat.mul_add_div (by omega), Nat.div_eq_of_lt hc]
    simp
  · rintro ⟨rfl, rfl⟩
    rw [Nat.mul_comm]
    exact Nat.div_add_mod n w

theorem take_two {buf : List Byte} {n : Nat} (h : 2 * n + 2 ≤ buf.length) :
    buf.take (2 * (n + 1)) = buf.take (2 * n) ++ [buf.getD (2 * n) 0, buf.getD (2 * n + 1) 0] := by
  rw [show 2 * (n + 1) = 2 * n + 1 + 1 by omega, List.take_succ_eq_append_getElem (by omega),
    List.take_succ_eq_append_getElem (by omega)]
  simp only [List.getD_eq_getElem?_getD, List.getElem?_eq_getElem (show 2 * n < buf.length by omega),
    List.getElem?_eq_getElem (show 2 * n + 1 < buf.length by omega), Option.getD_some, List.append_assoc, List.cons_append,
    List.nil_append]

theorem Panel.fill (hc : c.wf = true) {x0 y0 w h : Nat} (hw : 1 ≤ w) (_hx : x0 + w ≤ 65536)
    (_hy : y0 + h ≤ 65536) (ha : p.Armed c x0 (x0 + w - 1) y0 (y0 + h - 1)) {buf : List Byte} (n : Nat)
    (hn : n ≤ w * h) (hb : 2 * n ≤ buf.length) :
    p.Filled c x0 y0 w h buf n ((buf.take (2 * n)).foldl (fun q b => q.data c b) p) := by
  induction n with
  | zero =>
    refine ⟨ha.lastcmd, ha.armed, ha.half, rfl, rfl, rfl, rfl, fun _ => ?_, fun _ => ⟨ha.px, ha.py⟩, fun _ _ _ _ _ _ _ _ hh => ?_⟩
    · simp [ha.px, ha.py, ha.xs, ha.ys]
    · omega
  | succ n ih =>
    have ih := ih (by omega) (by omega)
    obtain ⟨hpx, hpy⟩ := ih.inside (by omega)
    rw [take_two (by omega), List.foldl_append, List.foldl_cons, List.foldl_cons, List.foldl_nil]
    generalize (buf.take (2 * n)).foldl (fun q b => q.data c b) p = q at ih hpx hpy
    rw [Panel.data_pixel hc ih.lastcmd ih.half]
    have hxe : q.xe.toNat = x0 + w - 1 := by rw [ih.xe, ha.xe]
    have hye : q.ye.toNat = y0 + h - 1 := by rw [ih.ye, ha.ye]
    have hxs : q.xs.toNat = x0 := by rw [ih.xs, ha.xs]
    have hys : q.ys.toNat = y0 := by rw [ih.ys, ha.ys]
    have hm : n % w < w := Nat.mod_lt _ (by omega)
    have hd : n / w < h := Nat.div_lt_of_lt_mul (by omega)
    have hnw : w * (n / w) + n % w = n := Nat.div_add_mod n w
    have hgram : ∀ (u v : Word) (col row : Nat), col < w → row < h → u.toNat = x0 + col → v.toNat = y0 + row →
        row * w + col < n + 1 → (q.gram.setPixel q.px q.py ⟨buf.getD (2 * n) 0, buf.getD (2 * n + 1) 0⟩).pixel u v =
          some ⟨buf.getD (2 * (row * w + col)) 0, buf.getD (2 * (row * w + col) + 1) 0⟩ := by
      intro u v col row h1 h2 h3 h4 h5
      rw [Memory.pixel_setPixel]
      by_cases he : row * w + col = n
      · obtain ⟨e1, e2⟩ := (cell_eq h1).mp he
        rw [if_pos ⟨BitVec.eq_of_toNat_eq (by omega), BitVec.eq_of_toNat_eq (by omega)⟩, he]
      · rw [if_neg ?_]
        · exact ih.gram u v col row h1 h2 h3 h4 (by omega)
        · rintro ⟨rfl, rfl⟩
          exact he ((cell_eq h1).mpr ⟨by omega, by omega⟩)
    unfold Panel.advance
    simp only
    split_ifs with h1 h2
    · have := word_succ q.px (by omega)
      have e1 : (n + 1) % w = n % w + 1 ∧ (n + 1) / w = n / w :=
        (cell_eq (by omega)).mp (by rw [Nat.mul_comm]; omega)
      refine ⟨ih.lastcmd, ih.armed, rfl, ih.xs, ih.xe, ih.ys, ih.ye, fun _ => ⟨by simp only; omega, by simp only; omega⟩,
        fun he => ?_, hgram⟩
      exfalso
      have : (n / w + 1) * w ≤ h * w := Nat.mul_le_mul_right w (by omega)
      rw [Nat.add_mul, Nat.mul_comm (n / w)] at this
      rw [Nat.mul_comm h] at this
      omega
    · have := word_succ q.py (by omega)
      have e1 : (n + 1) % w = 0 ∧ (n + 1) / w = n / w + 1 :=
        (cell_eq (by omega)).mp (by rw [Nat.add_mul, Nat.mul_comm]; omega)
      refine ⟨ih.lastcmd, ih.armed, rfl, ih.xs, ih.xe, ih.ys, ih.ye, fun _ => ⟨by simp only; omega, by simp only; omega⟩,
        fun he => ?_, hgram⟩
      exfalso
      have : (n / w + 1 + 1) * w ≤ h * w := Nat.mul_le_mul_right w (by omega)
      rw [Nat.add_mul, Nat.add_mul, Nat.mul_comm (n / w), Nat.mul_comm h] at this
      omega
    · refine ⟨ih.lastcmd, ih.armed, rfl, ih.xs, ih.xe, ih.ys, ih.ye, fun he => ?_, fun _ => ⟨rfl, rfl⟩, hgram⟩
      exfalso
      clear hgram ih
      generalize n / w = D at *
      generalize n % w = M at *
      obtain rfl : D = h - 1 := by omega
      obtain rfl : M = w - 1 := by omega
      rw [Nat.mul_sub, Nat.mul_one] at hnw
      have : w ≤ w * h := Nat.le_mul_of_pos_right w (by omega)
      omega

/-! ## What data bytes leave alone -/

/-- What data bytes leave of the observer. -/
structure Same (c : Cfg) (p q : Panel) (b : List Byte) : Prop where
  params : q.params = p.params ++ b
  armed : q.armed = p.armed
  inv : q.inv = p.inv
  disp : q.disp = p.disp
  mad : p.lastcmd ≠ some (c.code .madctl) → q.madctl = p.madctl
  xs : p.lastcmd ≠ some (c.code .caset) → q.xs = p.xs ∧ q.xe = p.xe
  ys : p.lastcmd ≠ some (c.code .raset) → q.ys = p.ys ∧ q.ye = p.ye
  pt : p.lastcmd ≠ some (c.code .ramwr) → q.px = p.px ∧ q.py = p.py ∧ q.half = p.half

theorem data_same (hc : c.wf = true) (b : Byte) : Same c p (p.data c b) [b] := by
  unfold Panel.data
  split
  · constructor <;> first | rfl | (intro; first | rfl | exact ⟨rfl, rfl⟩ | exact ⟨rfl, rfl, rfl⟩)
  · rename_i k h
    split_ifs with h1 h2 h3 h4
    · subst h1; unfold Panel.setColumns; split <;> constructor <;> simp_all [Cfg.code_eq hc]
    · subst h2; unfold Panel.setRows; split <;> constructor <;> simp_all [Cfg.code_eq hc]
    · subst h3; unfold Panel.setMadctl; split <;> constructor <;> simp_all [Cfg.code_eq hc]
    · subst h4; unfold Panel.pixelByte Panel.advance
      split <;> (try split_ifs) <;> constructor <;> simp_all [Cfg.code_eq hc]
    · constructor <;> simp

theorem fold_same (hc : c.wf = true) (bs : List Byte) : Same c p (bs.foldl (fun q b => q.data c b) p) bs := by
  induction bs generalizing p with
  | nil => constructor <;> simp
  | cons b bs ih =>
    have h1 := data_same (p := p) hc b
    have h2 := ih (p := p.data c b)
    have hl := Panel.data_lastcmd (c := c) (p := p) b
    rw [List.foldl_cons]
    refine ⟨by rw [h2.params, h1.params]; simp, h2.armed.trans h1.armed, h2.inv.trans h1.inv,
      h2.disp.trans h1.disp, fun h => (h2.mad (by rwa [hl])).trans (h1.mad h), fun h => ?_, fun h => ?_,
      fun h => ?_⟩
    · obtain ⟨a, b⟩ := h2.xs (by rwa [hl]); obtain ⟨a', b'⟩ := h1.xs h; exact ⟨a.trans a', b.trans b'⟩
    · obtain ⟨a, b⟩ := h2.ys (by rwa [hl]); obtain ⟨a', b'⟩ := h1.ys h; exact ⟨a.trans a', b.trans b'⟩
    · obtain ⟨a, b, e⟩ := h2.pt (by rwa [hl])
      obtain ⟨a', b', e'⟩ := h1.pt h
      exact ⟨a.trans a', b.trans b', e.trans e'⟩

end Sys2Proof.Machine
end

