-- ==== Sys2Proof/Laws/Lines.lean ====
section
/-! SUPPORT. What whole items do to the line registers (10_state.md R31), and the levels a reset leaves (R39). -/

namespace Sys2Proof.Machine

/-- The lines after an item. -/
def Lines.read (l : Lines) : Item → Lines
  | .cmd _ => { l with cs := true, dc := false }
  | .data _ => { l with cs := true, dc := true }
  | .rst v => { l with rst := v }
  | .bl v => { l with bl := v }
  | .delay _ => l

theorem drive_bytes (l : Lines) (bs : List Byte) : (bs.map WireEvent.tx).foldl Lines.drive l = l := by
  induction bs with
  | nil => rfl
  | cons b bs ih => exact ih

theorem drive_item (l : Lines) (x : Item) : x.events.foldl Lines.drive l = l.read x := by
  cases x with
  | data bs =>
    simp only [Item.events, dataFrame, List.foldl_append, drive_bytes]
    rfl
  | _ => rfl

theorem drive_items (l : Lines) (xs : List Item) : (itemEvents xs).foldl Lines.drive l = xs.foldl Lines.read l := by
  induction xs generalizing l with
  | nil => rfl
  | cons x xs ih => rw [itemEvents_cons, List.foldl_append, drive_item, ih, List.foldl_cons]

/-- Chip-select, once released, is released after whole items. -/
theorem Lines.read_cs {l : Lines} (h : l.cs = true) (xs : List Item) : (xs.foldl Lines.read l).cs = true := by
  induction xs generalizing l with
  | nil => exact h
  | cons x xs ih =>
    apply ih
    cases x with
    | cmd | data => rfl
    | rst | bl | delay => exact h

theorem Lines.read_delay (l : Lines) (n : Nat) : (delayItems n).foldl Lines.read l = l := by
  unfold delayItems
  split <;> rfl

theorem Lines.read_entry (l : Lines) (e : InitEntry) :
    (entryItems e).foldl Lines.read l = ⟨true, !e.data.isEmpty, l.rst, l.bl⟩ := by
  unfold entryItems commandItems
  rw [List.foldl_append, Lines.read_delay]
  cases e.data <;> rfl

theorem Lines.read_entries (l : Lines) (es : List InitEntry) :
    ((es.flatMap entryItems).foldl Lines.read l).rst = l.rst ∧ ((es.flatMap entryItems).foldl Lines.read l).bl = l.bl := by
  induction es generalizing l with
  | nil => exact ⟨rfl, rfl⟩
  | cons e es ih =>
    rw [List.flatMap_cons, List.foldl_append, Lines.read_entry]
    exact ih _

/-- The lines after the whole of a reset. -/
theorem Lines.read_reset {c : Cfg} (h : c.wf = true) (l : Lines) :
    (resetItems c).foldl Lines.read l = ⟨true, false, c.hasRst || l.rst, l.bl⟩ := by
  obtain ⟨hd, d1, d2, d3, d4, d5, d6, ht⟩ := Cfg.initTable_tail h
  rw [resetItems, List.foldl_append]
  have hp : (pulseItems c).foldl Lines.read l = { l with rst := c.hasRst || l.rst } := by
    unfold pulseItems
    split <;> rename_i hr <;> simp [hr, Lines.read]
  rw [hp, initItems, ht]
  simp only [List.flatMap_append, List.flatMap_cons, List.flatMap_nil, List.append_nil, List.foldl_append,
    Lines.read_entry]
  obtain ⟨h1, h2⟩ := Lines.read_entries { l with rst := c.hasRst || l.rst } hd
  simp [h1, h2]

end Sys2Proof.Machine
end

