-- ==== Sys2Proof/Laws/Parties.lean ====
section
/-! SUPPORT. What each move can do, what the host sees of an operation, and that the panel's receiving of an operation's
events makes the step whole. -/

namespace Sys2Proof.Machine

variable {s t : State} {x y : Execution}

@[simp] theorem State.present_cfg (s : State) (d : List Byte) : (s.present d).cfg = s.cfg := rfl
@[simp] theorem State.present_ds (s : State) (d : List Byte) : (s.present d).ds = s.ds := rfl
@[simp] theorem State.present_fsm (s : State) (d : List Byte) : (s.present d).fsm = s.fsm := rfl
@[simp] theorem State.present_lines (s : State) (d : List Byte) : (s.present d).lines = s.lines := rfl
@[simp] theorem State.present_trace (s : State) (d : List Byte) : (s.present d).trace = s.trace := rfl
@[simp] theorem State.present_faulted (s : State) (d : List Byte) : (s.present d).faulted = s.faulted := rfl
@[simp] theorem State.present_completion (s : State) (d : List Byte) : (s.present d).completion = none := rfl
@[simp] theorem State.present_port (s : State) (d : List Byte) : (s.present d).port = d := rfl
@[simp] theorem State.present_answers (s : State) (d : List Byte) : (s.present d).answers = s.answers := rfl
@[simp] theorem State.present_panel (s : State) (d : List Byte) : (s.present d).panel = s.panel := rfl

@[simp] theorem State.setPanel_cfg (s : State) (v : Panel) : (s.setPanel v).cfg = s.cfg := rfl
@[simp] theorem State.setPanel_ds (s : State) (v : Panel) : (s.setPanel v).ds = s.ds := rfl
@[simp] theorem State.setPanel_fsm (s : State) (v : Panel) : (s.setPanel v).fsm = s.fsm := rfl
@[simp] theorem State.setPanel_lines (s : State) (v : Panel) : (s.setPanel v).lines = s.lines := rfl
@[simp] theorem State.setPanel_trace (s : State) (v : Panel) : (s.setPanel v).trace = s.trace := rfl
@[simp] theorem State.setPanel_faulted (s : State) (v : Panel) : (s.setPanel v).faulted = s.faulted := rfl
@[simp] theorem State.setPanel_completion (s : State) (v : Panel) : (s.setPanel v).completion = s.completion := rfl
@[simp] theorem State.setPanel_port (s : State) (v : Panel) : (s.setPanel v).port = s.port := rfl
@[simp] theorem State.setPanel_answers (s : State) (v : Panel) : (s.setPanel v).answers = s.answers := rfl
@[simp] theorem State.setPanel_panel (s : State) (v : Panel) : (s.setPanel v).panel = v := rfl

/-! ## The engine's part -/

/-- Whatever an operation does, its events are appended to the trace, the lines follow them, and the panel reads them. -/
theorem exec_emits {i : Instr} (h : exec i s = .next t) : ∃ es, Emits es s t := by
  rw [exec_eq] at h
  obtain ⟨st, r, -, rfl⟩ | ⟨-, -, hs, -⟩ | ⟨-, hs, -⟩ := Plan.run_next h
  · exact ⟨[], emits_nil ⟨rfl, rfl, rfl, rfl, rfl⟩⟩
  · exact ⟨_, hs.1⟩
  · exact ⟨_, hs⟩

/-- Every operation that has a next state ends with a status. -/
theorem exec_ended {i : Instr} (h : exec i s = .next t) : ∃ st, Ended st t := by
  rw [exec_eq] at h
  obtain ⟨st, r, -, rfl⟩ | ⟨-, -, -, -, -, -, he⟩ | ⟨-, -, -, -, hc, -⟩ := Plan.run_next h
  · exact ⟨st, r, rfl⟩
  · exact ⟨_, _, he⟩
  · exact ⟨_, _, hc⟩

/-- The same of a step, but for the port. -/
theorem step_emits (h : step s = .next t) : ∃ es, t.trace = s.trace ++ es ∧ t.lines = es.foldl Lines.drive s.lines ∧
    t.panel = s.panel.watch s.cfg s.lines.dc es ∧ t.cfg = s.cfg := by
  obtain rfl | ⟨i, rest, -, hx⟩ := step_next h
  · exact ⟨[], by simp⟩
  · obtain ⟨es, h1, h2, h3, h4, -⟩ := exec_emits hx
    exact ⟨es, h1, h2, h3, h4⟩

/-- An event is the transport's answer and, if it is *done*, the engine's record of what the panel received. -/
theorem emit_cons {a : Answer} {as : List Answer} (e : WireEvent) (h : s.answers = a :: as) :
    emit e s = match a with
      | .done => .done (((s.setAnswers as).receive e).record e)
      | .failed => .failed (s.setAnswers as) := by
  cases a <;> simp [emit, h, State.accept]

/-! ## Moves -/

theorem hostIssues_eq_some {i : Instr} : hostIssues i x = some y ↔
    x.state.port = [] ∧ i.wf = true ∧ ∃ d, encode i = some d ∧ { x with state := x.state.present d } = y := by
  unfold hostIssues
  split
  · rename_i h; simp [h.1, h.2]
  · rename_i h
    constructor
    · intro h'; cases h'
    · rintro ⟨h1, h2, -⟩; exact absurd ⟨h1, h2⟩ h

theorem engineRuns_eq_some : engineRuns x = some y ↔ x.unread = [] ∧ ∃ t, step x.state = .next t ∧
    ⟨t.setPanel x.state.panel, t.trace.drop x.state.trace.length, x.state.lines⟩ = y := by
  unfold engineRuns
  split
  · rename_i h; cases step x.state <;> simp [h]
  · rename_i h; simp [h]

theorem panelReceives_nil (h : x.unread = []) : panelReceives x = none := by
  unfold panelReceives
  rw [h]

/-- The panel receives any number of events. -/
theorem runMoves_panel (s : State) (es : List WireEvent) (l : Lines) :
    runMoves (List.replicate es.length .panel) ⟨s, es, l⟩ =
      some ⟨s.setPanel (s.panel.watch s.cfg l.dc es), [], es.foldl Lines.drive l⟩ := by
  induction es generalizing s l with
  | nil => rfl
  | cons e es ih =>
    have h := ih (s.setPanel (s.panel.observe s.cfg l.dc e)) (l.drive e)
    rw [List.length_cons, List.replicate_succ]
    refine Eq.trans h ?_
    cases e <;> rfl

/-- A step is the engine's move and then the panel's receiving of every event of it. -/
theorem step_eq_moves (hx : x.unread = []) (h : step x.state = .next t) :
    ∃ y, engineRuns x = some y ∧ runMoves (List.replicate y.unread.length .panel) y = some ⟨t, [], t.lines⟩ := by
  obtain ⟨es, h1, h2, h3, h4⟩ := step_emits h
  have hd : t.trace.drop x.state.trace.length = es := by rw [h1, List.drop_left]
  refine ⟨_, engineRuns_eq_some.mpr ⟨hx, t, h, rfl⟩, ?_⟩
  rw [hd, runMoves_panel, h2]
  congr 2
  cases t
  simp_all [State.setPanel]

end Sys2Proof.Machine
end

