-- ==== Sys2Proof/Laws/PerInstr.lean ====
section
/-! SUPPORT. A family of statements about every constructor of `Instr` as syntax: the length and the opcode of its
descriptor (30_encoding.md R101, R103). -/

namespace Sys2Proof.Laws.DescriptorShape

/-- An operation's descriptor is not empty, starts with an opcode of R101, and has the length R103 gives it; only host
operations and queries have one (30_encoding.md R101, R103, R104). -/
def Statement (i : Instr) : Prop :=
  (encode i).isSome = i.isHost ∧
  ∀ d, encode i = some d → d.length = descriptorLength i ∧ ∃ k bs, d = HostOp.opcode k :: bs

theorem of_none {i : Instr} (h1 : encode i = none) (h2 : i.isHost = false) : Statement i :=
  ⟨by rw [h1, h2]; rfl, fun d h => by rw [h1] at h; cases h⟩

theorem of_some {i : Instr} {k : HostOp} {bs : List Byte} (h1 : encode i = some (HostOp.opcode k :: bs))
    (h2 : i.isHost = true) (h3 : bs.length + 1 = descriptorLength i) : Statement i :=
  ⟨by rw [h1, h2]; rfl, fun d h => by
    rw [h1] at h
    cases h
    exact ⟨h3, k, bs, rfl⟩⟩

theorem construct (r : Byte) : Statement (.construct r) := of_some rfl rfl rfl

theorem reset : Statement .reset := of_some rfl rfl rfl

theorem turnOn : Statement .turnOn := of_some rfl rfl rfl

theorem turnOff : Statement .turnOff := of_some rfl rfl rfl

theorem setrot (r : Byte) : Statement (.setrot r) := of_some rfl rfl rfl

theorem setbl (v : Byte) : Statement (.setbl v) := of_some rfl rfl rfl

theorem setinv (v : Byte) : Statement (.setinv v) := of_some rfl rfl rfl

theorem clear : Statement .clear := of_some rfl rfl rfl

theorem fillscreen (c : Colour) : Statement (.fillscreen c) := of_some rfl rfl rfl

theorem fillrect (x y w h : Word) (c : Colour) : Statement (.fillrect x y w h c) := of_some rfl rfl rfl

theorem drawpixel (x y : Word) (c : Colour) : Statement (.drawpixel x y c) := of_some rfl rfl rfl

theorem drawline (x y len : Word) (c : Colour) : Statement (.drawline x y len c) := of_some rfl rfl rfl

theorem drawimage (x y w h : Word) (img : List Byte) :
    Statement (.drawimage x y w h img) :=
  of_some rfl rfl (by simp [descriptorLength, wordBytes, nat32Bytes]; omega)

theorem drawtext (flags : Byte) (x y w h : Word) (align : Byte) (fg bg : Colour) (txt : List Word) (font : List Byte) :
    Statement (.drawtext flags x y w h align fg bg txt font) :=
  of_some rfl rfl (by simp [descriptorLength, wordBytes, nat32Bytes, nat16Bytes, colourBytes]; omega)

theorem measure (txt : List Word) (font : List Byte) :
    Statement (.measure txt font) :=
  of_some rfl rfl (by simp [descriptorLength, nat32Bytes, nat16Bytes]; omega)

theorem encodeColour (c : Colour) : Statement (.encodeColour c) := of_some rfl rfl rfl

theorem decodeCode (hi lo : Byte) : Statement (.decodeCode hi lo) := of_some rfl rfl rfl

theorem sendcmd (code : Byte) : Statement (.sendcmd code) := of_none rfl rfl

theorem senddata (bytes : List Byte) : Statement (.senddata bytes) := of_none rfl rfl

theorem rstpulse : Statement .rstpulse := of_none rfl rfl

theorem blset (v : Bool) : Statement (.blset v) := of_none rfl rfl

theorem delay (n : Nat) : Statement (.delay n) := of_none rfl rfl

theorem setwin (x0 y0 x1 y1 : Int) : Statement (.setwin x0 y0 x1 y1) := of_none rfl rfl

theorem stream (buf : List Byte) : Statement (.stream buf) := of_none rfl rfl

theorem writewin (x y w h : Int) (buf : List Byte) : Statement (.writewin x y w h buf) := of_none rfl rfl

theorem edge (x y w h : Int) : Statement (.edge x y w h) := of_none rfl rfl

theorem strict (x y w h : Int) : Statement (.strict x y w h) := of_none rfl rfl

theorem solid (w h : Nat) (c : Colour) : Statement (.solid w h c) := of_none rfl rfl

theorem fonthdr (font : List Byte) : Statement (.fonthdr font) := of_none rfl rfl

theorem dirent (font : List Byte) (hdr : FontHdr) (code : Word) : Statement (.dirent font hdr code) := of_none rfl rfl

theorem textwidth (txt : List Word) (font : List Byte) (hdr : FontHdr) :
    Statement (.textwidth txt font hdr) :=
  of_none rfl rfl

theorem taalloc (w h : Nat) (bg : PixelCode) : Statement (.taalloc w h bg) := of_none rfl rfl

theorem tagrow (ta : TextArea) (nw nh : Nat) (bg : PixelCode) : Statement (.tagrow ta nw nh bg) := of_none rfl rfl

theorem place (ta : TextArea) (cx cy gw gh gbase : Nat) (fg bg : PixelCode) (font : List Byte) :
    Statement (.place ta cx cy gw gh gbase fg bg font) :=
  of_none rfl rfl

theorem cmdSwreset : Statement .cmdSwreset := of_none rfl rfl

theorem cmdSlpout : Statement .cmdSlpout := of_none rfl rfl

theorem cmdNoron : Statement .cmdNoron := of_none rfl rfl

theorem cmdInvoff : Statement .cmdInvoff := of_none rfl rfl

theorem cmdInvon : Statement .cmdInvon := of_none rfl rfl

theorem cmdDispoff : Statement .cmdDispoff := of_none rfl rfl

theorem cmdDispon : Statement .cmdDispon := of_none rfl rfl

theorem cmdCaset (x0 x1 : Word) : Statement (.cmdCaset x0 x1) := of_none rfl rfl

theorem cmdRaset (y0 y1 : Word) : Statement (.cmdRaset y0 y1) := of_none rfl rfl

theorem cmdRamwr (pixels : List Byte) : Statement (.cmdRamwr pixels) := of_none rfl rfl

theorem cmdMadctl (b : Byte) : Statement (.cmdMadctl b) := of_none rfl rfl

theorem cmdColmod : Statement .cmdColmod := of_none rfl rfl

theorem cmdFrmctr1 (data : List Byte) : Statement (.cmdFrmctr1 data) := of_none rfl rfl

theorem cmdFrmctr2 (data : List Byte) : Statement (.cmdFrmctr2 data) := of_none rfl rfl

theorem cmdFrmctr3 (data : List Byte) : Statement (.cmdFrmctr3 data) := of_none rfl rfl

theorem cmdInvctr (data : List Byte) : Statement (.cmdInvctr data) := of_none rfl rfl

theorem cmdPwctr1 (data : List Byte) : Statement (.cmdPwctr1 data) := of_none rfl rfl

theorem cmdPwctr2 (data : List Byte) : Statement (.cmdPwctr2 data) := of_none rfl rfl

theorem cmdPwctr3 (data : List Byte) : Statement (.cmdPwctr3 data) := of_none rfl rfl

theorem cmdPwctr4 (data : List Byte) : Statement (.cmdPwctr4 data) := of_none rfl rfl

theorem cmdPwctr5 (data : List Byte) : Statement (.cmdPwctr5 data) := of_none rfl rfl

theorem cmdVmctr1 (data : List Byte) : Statement (.cmdVmctr1 data) := of_none rfl rfl

theorem cmdGmctrp1 (data : List Byte) : Statement (.cmdGmctrp1 data) := of_none rfl rfl

theorem cmdGmctrn1 (data : List Byte) : Statement (.cmdGmctrn1 data) := of_none rfl rfl

end Sys2Proof.Laws.DescriptorShape
end

