-- ==== Sys2Proof/Laws/Text.lean ====
section
/-! SUPPORT. The text area pixel by pixel, the font directory, glyph bitstreams, and placing a text. -/

namespace Sys2Proof.Machine

theorem flat_length {α : Type} {f : Nat → List α} {n : Nat} (hf : ∀ i, (f i).length = n) (m : Nat) :
    ((List.range m).flatMap f).length = m * n := by
  induction m with
  | zero => simp
  | succ m ih => rw [List.range_succ, List.flatMap_append, List.length_append, ih]; simp [hf, Nat.add_mul]

theorem flat_get {α : Type} {f : Nat → List α} {n : Nat} (hf : ∀ i, (f i).length = n) (m i j : Nat) (hi : i < m)
    (hj : j < n) : ((List.range m).flatMap f)[i * n + j]? = (f i)[j]? := by
  induction m with
  | zero => omega
  | succ m ih =>
    rw [List.range_succ, List.flatMap_append]
    rcases Nat.lt_or_ge i m with h | h
    · rw [List.getElem?_append_left, ih h]
      rw [flat_length hf]
      calc i * n + j < i * n + n := by omega
        _ = (i + 1) * n := by rw [Nat.add_mul, Nat.one_mul]
        _ ≤ m * n := Nat.mul_le_mul_right n h
    · obtain rfl : i = m := by omega
      rw [List.getElem?_append_right (by rw [flat_length hf]; omega), flat_length hf]
      simp

theorem areaBuffer_length (w h : Nat) (f : Nat → Nat → PixelCode) : (areaBuffer w h f).length = 2 * w * h := by
  unfold areaBuffer
  rw [flat_length (n := w * 2)]
  · rw [Nat.mul_comm w 2, Nat.mul_comm]
  · exact fun r => flat_length (n := 2) (fun _ => rfl) w

theorem areaBuffer_get (w h : Nat) (f : Nat → Nat → PixelCode) (c r : Nat) (hc : c < w) (hr : r < h) :
    (areaBuffer w h f)[2 * (r * w + c)]? = some (f c r).hi ∧ (areaBuffer w h f)[2 * (r * w + c) + 1]? = some (f c r).lo := by
  have hf : ∀ r, ((List.range w).flatMap fun c => [(f c r).hi, (f c r).lo]).length = w * 2 := fun r =>
    flat_length (n := 2) (fun _ => rfl) w
  have e : 2 * (r * w + c) = r * (w * 2) + c * 2 := by rw [Nat.mul_add, Nat.mul_comm 2, Nat.mul_assoc, Nat.mul_comm 2]
  unfold areaBuffer
  constructor
  · rw [e, flat_get hf h r (c * 2) hr (by omega)]
    exact flat_get (n := 2) (fun _ => rfl) w c 0 hc (by omega)
  · rw [e, Nat.add_assoc, flat_get hf h r (c * 2 + 1) hr (by omega)]
    exact flat_get (n := 2) (fun _ => rfl) w c 1 hc (by omega)

theorem TextArea.wf_iff (ta : TextArea) : ta.wf = true ↔ ta.buf.length = 2 * ta.w * ta.h := by simp [TextArea.wf]

/-- A byte that the buffer has is the buffer's; no free value stands for it. -/
theorem areaByte_of_getElem? {ta : TextArea} {k : Nat} {b : Byte} (h : ta.buf[k]? = some b) : areaByte ta k = b := by
  simp [areaByte, List.getD_eq_getElem?_getD, h]

theorem areaByte_lt {ta : TextArea} {k : Nat} (h : k < ta.buf.length) : areaByte ta k = ta.buf.getD k 0 := by
  rw [areaByte_of_getElem? (List.getElem?_eq_getElem h), List.getD_eq_getElem?_getD, List.getElem?_eq_getElem h]
  rfl

/-- A pixel whose two bytes the buffer has. -/
theorem areaPixel_of_getElem? {ta : TextArea} {c r : Nat} {p : PixelCode}
    (h1 : ta.buf[2 * (r * ta.w + c)]? = some p.hi) (h2 : ta.buf[2 * (r * ta.w + c) + 1]? = some p.lo) :
    areaPixel ta c r = p := by
  rw [areaPixel, areaByte_of_getElem? h1, areaByte_of_getElem? h2]

theorem areaPixel_areaBuffer (w h : Nat) (f : Nat → Nat → PixelCode) (tail : List Byte) (c r : Nat) (hc : c < w)
    (hr : r < h) : areaPixel ⟨w, h, areaBuffer w h f ++ tail⟩ c r = f c r := by
  obtain ⟨h1, h2⟩ := areaBuffer_get w h f c r hc hr
  exact areaPixel_of_getElem? (by rw [List.getElem?_append_left ((List.getElem?_eq_some_iff.mp h1).1), h1])
    (by rw [List.getElem?_append_left ((List.getElem?_eq_some_iff.mp h2).1), h2])

theorem areaAlloc_wf (w h : Nat) (bg : PixelCode) : (areaAlloc w h bg).wf = true := by
  rw [TextArea.wf_iff]
  simp only [areaAlloc, rep_length, Nat.mul_assoc]

/-- A cell of a row-major area. -/
theorem cell_lt {w h c r : Nat} (hc : c < w) (hr : r < h) : r * w + c < w * h := by
  calc r * w + c < r * w + w := by omega
    _ = (r + 1) * w := by rw [Nat.add_mul, Nat.one_mul]
    _ ≤ h * w := Nat.mul_le_mul_right w hr
    _ = w * h := Nat.mul_comm h w

theorem areaAlloc_pixel (w h : Nat) (bg : PixelCode) (c r : Nat) (hc : c < w) (hr : r < h) :
    areaPixel (areaAlloc w h bg) c r = bg := by
  obtain ⟨h1, h2⟩ := rep_get (w * h) bg _ (cell_lt hc hr)
  exact areaPixel_of_getElem? h1 h2

/-- The pixels of a well-formed area are those of its buffer. -/
theorem areaPixel_wf {ta : TextArea} (hwf : ta.wf = true) {c r : Nat} (hc : c < ta.w) (hr : r < ta.h) :
    areaPixel ta c r = ⟨ta.buf.getD (2 * (r * ta.w + c)) 0, ta.buf.getD (2 * (r * ta.w + c) + 1) 0⟩ := by
  rw [TextArea.wf_iff, Nat.mul_assoc] at hwf
  have := cell_lt hc hr
  rw [areaPixel, areaByte_lt (by omega), areaByte_lt (by omega)]

theorem areaGrow_wf (ta : TextArea) (nw nh : Nat) (bg : PixelCode) : (areaGrow ta nw nh bg).wf = true := by
  rw [TextArea.wf_iff]
  exact areaBuffer_length _ _ _

theorem areaGrow_pixel (ta : TextArea) (nw nh : Nat) (bg : PixelCode) (c r : Nat) (hc : c < nw) (hr : r < nh) :
    areaPixel (areaGrow ta nw nh bg) c r = if c < ta.w ∧ r < ta.h then areaPixel ta c r else bg := by
  have h := areaPixel_areaBuffer nw nh (fun c r => if c < ta.w ∧ r < ta.h then areaPixel ta c r else bg) [] c r hc hr
  rwa [List.append_nil] at h

/-- Everything TAGROW can do: the new size and a whole buffer always; the pixels where the new size is not below the old
one. -/
theorem areaResize_spec (ta : TextArea) (nw nh : Nat) (bg : PixelCode) :
    (areaResize ta nw nh bg).w = nw ∧ (areaResize ta nw nh bg).h = nh ∧ (areaResize ta nw nh bg).wf = true ∧
    (ta.w ≤ nw → ta.h ≤ nh → ∀ c r, c < nw → r < nh → areaPixel (areaResize ta nw nh bg) c r =
      if c < ta.w ∧ r < ta.h then areaPixel ta c r else bg) := by
  unfold areaResize
  split
  · exact ⟨rfl, rfl, areaGrow_wf _ _ _ _, fun _ _ => areaGrow_pixel _ _ _ _⟩
  · rename_i h
    exact ⟨rfl, rfl, by simp [TextArea.wf_iff], fun h1 h2 => absurd ⟨h1, h2⟩ h⟩

theorem areaFit_spec (ta : TextArea) (cx cy gw gh : Nat) (bg : PixelCode) :
    (ta.wf = true → (areaFit ta cx cy gw gh bg).wf = true) ∧ (areaFit ta cx cy gw gh bg).w = max ta.w (cx + gw) ∧
    (areaFit ta cx cy gw gh bg).h = max ta.h (cy + gh) ∧
    ∀ c r, c < max ta.w (cx + gw) → r < max ta.h (cy + gh) → areaPixel (areaFit ta cx cy gw gh bg) c r =
      if c < ta.w ∧ r < ta.h then areaPixel ta c r else bg := by
  unfold areaFit
  split
  · exact ⟨fun _ => areaGrow_wf _ _ _ _, rfl, rfl, areaGrow_pixel _ _ _ _⟩
  · rename_i h
    have h : max ta.w (cx + gw) = ta.w ∧ max ta.h (cy + gh) = ta.h := by omega
    refine ⟨id, h.1.symm, h.2.symm, fun c r hc hr => ?_⟩
    rw [h.1] at hc
    rw [h.2] at hr
    rw [if_pos ⟨hc, hr⟩]

theorem areaStamp_spec (ta : TextArea) (cx cy gw gh : Nat) (bits : List Bool) (fg bg : PixelCode) :
    2 * ta.w * ta.h ≤ (areaStamp ta cx cy gw gh bits fg bg).buf.length ∧
    (ta.wf = true → (areaStamp ta cx cy gw gh bits fg bg).wf = true) ∧
    ∀ c r, c < ta.w → r < ta.h → areaPixel (areaStamp ta cx cy gw gh bits fg bg) c r =
      if cx ≤ c ∧ c < cx + gw ∧ cy ≤ r ∧ r < cy + gh then
        (if bits.getD ((r - cy) + (c - cx) * gh) false then fg else bg)
      else areaPixel ta c r := by
  have hl : (areaStamp ta cx cy gw gh bits fg bg).buf.length = 2 * ta.w * ta.h + (ta.buf.length - 2 * ta.w * ta.h) := by
    rw [areaStamp, List.length_append, areaBuffer_length, List.length_drop]
  refine ⟨by omega, fun hwf => ?_, fun c r hc hr => areaPixel_areaBuffer ta.w ta.h _ _ c r hc hr⟩
  rw [TextArea.wf_iff] at hwf ⊢
  rw [hl, hwf]
  exact Nat.add_sub_cancel' (le_refl _)

/-! ## Font table reads -/

theorem fontRead_ok {font : List Byte} {a : Nat} {b : Byte} : fontRead font a = .ok b ↔ font[a]? = some b := by
  unfold fontRead
  split <;> rename_i h <;> simp [h]

theorem fontRead_lt {font : List Byte} {a : Nat} (h : a < font.length) : fontRead font a = .ok (font.getD a 0) := by
  rw [fontRead_ok, List.getD_eq_getElem?_getD, List.getElem?_eq_getElem h]
  rfl

theorem fontRead_ge {font : List Byte} {a : Nat} (h : font.length ≤ a) : fontRead font a = .error .fontError := by
  simp [fontRead, List.getElem?_eq_none h]

theorem fontRead_error {font : List Byte} {a : Nat} {e : Raise} (h : fontRead font a = .error e) : e = .fontError := by
  unfold fontRead at h
  split at h <;> cases h
  rfl

theorem fontHeader_error {font : List Byte} {e : Raise} (h : fontHeader font = .error e) : e = .fontError := by
  unfold fontHeader at h
  split at h
  · split_ifs at h <;> cases h <;> rfl
  · cases h; rfl

/-- A glyph's bits, when its table holds them all. -/
theorem glyphBits_ok {font : List Byte} {gbase : Nat} (n k : Nat) (h : n = 0 ∨ gbase + (k + n - 1) / 8 < font.length) :
    ∃ bits, glyphBits font gbase k n = .ok bits ∧ bits.length = n ∧
      ∀ j, j < n → bits.getD j false = (font.getD (gbase + (k + j) / 8) 0).getLsbD ((k + j) % 8) := by
  induction n generalizing k with
  | zero => exact ⟨[], rfl, rfl, by omega⟩
  | succ n ih =>
    have h : gbase + (k + (n + 1) - 1) / 8 < font.length := by omega
    obtain ⟨bits, h1, h2, h3⟩ := ih (k + 1) (by
      rcases Nat.eq_zero_or_pos n with h0 | h0
      · exact .inl h0
      · exact .inr (by rw [show k + 1 + n - 1 = k + (n + 1) - 1 by omega]; exact h))
    have hlt : gbase + k / 8 < font.length := by
      have : k / 8 ≤ (k + (n + 1) - 1) / 8 := Nat.div_le_div_right (by omega)
      omega
    refine ⟨(font.getD (gbase + k / 8) 0).getLsbD (k % 8) :: bits, ?_, by simp [h2], fun j hj => ?_⟩
    · simp [glyphBits, glyphBit, fontRead_lt hlt, h1]
    · cases j with
      | zero => rfl
      | succ j => rw [List.getD_cons_succ, h3 j (by omega), show k + 1 + j = k + (j + 1) by omega]

/-- A glyph whose last bit lies past the table. -/
theorem glyphBits_error {font : List Byte} {gbase : Nat} (n k : Nat) (hn : 0 < n)
    (h : font.length ≤ gbase + (k + n - 1) / 8) : glyphBits font gbase k n = .error .fontError := by
  induction n generalizing k with
  | zero => omega
  | succ n ih =>
    unfold glyphBits
    cases hb : glyphBit font gbase k with
    | error e =>
      unfold glyphBit at hb
      split at hb
      · cases hb
      · rename_i h'
        cases hb
        simp [fontRead_error h']
    | ok b =>
      rcases Nat.eq_zero_or_pos n with rfl | h0
      · exfalso
        unfold glyphBit at hb
        rw [fontRead_ge (by simpa using h)] at hb
        cases hb
      · simp [ih (k + 1) h0 (by rw [show k + 1 + n - 1 = k + (n + 1) - 1 by omega]; exact h)]

theorem placeGlyph_zero (ta : TextArea) (cx cy gh gbase : Nat) (fg bg : PixelCode) (font : List Byte) :
    placeGlyph ta cx cy 0 gh gbase fg bg font = .ok ta := rfl

theorem placeGlyph_error {ta : TextArea} {cx cy gw gh gbase : Nat} {fg bg : PixelCode} {font : List Byte}
    (hn : 0 < gw * gh) (h : font.length ≤ gbase + (gw * gh - 1) / 8) :
    placeGlyph ta cx cy gw gh gbase fg bg font = .error .fontError := by
  have hw : gw ≠ 0 := by rintro rfl; simp at hn
  unfold placeGlyph
  rw [if_neg hw, glyphBits_error _ 0 hn (by simpa using h)]

theorem placeGlyph_ok {ta : TextArea} {cx cy gw gh gbase : Nat} {fg bg : PixelCode} {font : List Byte}
    (hw : gw ≠ 0) (h : gh = 0 ∨ gbase + (gw * gh - 1) / 8 < font.length) :
    ∃ ta', placeGlyph ta cx cy gw gh gbase fg bg font = .ok ta' ∧ (ta.wf = true → ta'.wf = true) ∧
      2 * ta'.w * ta'.h ≤ ta'.buf.length ∧ ta'.w = max ta.w (cx + gw) ∧
      ta'.h = max ta.h (cy + gh) ∧
      (∀ col row, col < gw → row < gh → areaPixel ta' (cx + col) (cy + row) = glyphPixel font gbase gh col row fg bg) ∧
      (∀ c r, c < ta'.w → r < ta'.h → ¬ (cx ≤ c ∧ c < cx + gw ∧ cy ≤ r ∧ r < cy + gh) →
        areaPixel ta' c r = if c < ta.w ∧ r < ta.h then areaPixel ta c r else bg) := by
  obtain ⟨bits, h1, h2, h3⟩ := glyphBits_ok (font := font) (gbase := gbase) (gw * gh) 0 (by
    rcases h with rfl | h
    · exact .inl (by simp)
    · exact .inr (by simpa using h))
  obtain ⟨f1, f2, f3, f4⟩ := areaFit_spec ta cx cy gw gh bg
  obtain ⟨s0, s1, s2⟩ := areaStamp_spec (areaFit ta cx cy gw gh bg) cx cy gw gh bits fg bg
  refine ⟨_, by rw [placeGlyph, if_neg hw, h1], fun hwf => s1 (f1 hwf), s0, f2, f3, fun col row hc hr => ?_, fun c r hc hr hn => ?_⟩
  · have hlt : row + col * gh < gw * gh := by
      have := cell_lt hr hc
      rw [Nat.mul_comm gw gh]
      omega
    rw [s2 _ _ (by rw [f2]; omega) (by rw [f3]; omega), if_pos ⟨by omega, by omega, by omega, by omega⟩,
      show cy + row - cy + (cx + col - cx) * gh = row + col * gh by simp, h3 _ hlt, Nat.zero_add, glyphPixel]
  · rw [s2 c r hc hr, if_neg hn, f4 c r (f2 ▸ hc) (f3 ▸ hr)]

theorem placeGlyph_cases {ta ta' : TextArea} {cx cy gw gh gbase : Nat} {fg bg : PixelCode} {font : List Byte}
    (h : placeGlyph ta cx cy gw gh gbase fg bg font = .ok ta') :
    gw = 0 ∧ ta' = ta ∨ gw ≠ 0 ∧ (gh = 0 ∨ gbase + (gw * gh - 1) / 8 < font.length) := by
  by_cases hw : gw = 0
  · subst hw
    rw [placeGlyph_zero] at h
    cases h
    exact .inl ⟨rfl, rfl⟩
  · refine .inr ⟨hw, ?_⟩
    by_contra hc
    rw [not_or, not_lt] at hc
    rw [placeGlyph_error (Nat.mul_pos (by omega) (by omega)) hc.2] at h
    cases h

theorem placeGlyph_raises {ta : TextArea} {cx cy gw gh gbase : Nat} {fg bg : PixelCode} {font : List Byte} {e : Raise}
    (h : placeGlyph ta cx cy gw gh gbase fg bg font = .error e) : e = .fontError := by
  by_cases hw : gw = 0
  · subst hw; cases h
  by_cases hg : gh = 0 ∨ gbase + (gw * gh - 1) / 8 < font.length
  · obtain ⟨ta', h', -⟩ := placeGlyph_ok (ta := ta) (fg := fg) (bg := bg) (cx := cx) (cy := cy) hw hg
    rw [h] at h'
    cases h'
  · rw [not_or, not_lt] at hg
    rw [placeGlyph_error (Nat.mul_pos (by omega) (by omega)) hg.2] at h
    cases h
    rfl

/-! ## Placing a text -/

/-- A placed text keeps the area well formed. -/
theorem placeText_wf {c : Cfg} {font : List Byte} {h : FontHdr} {cy : Nat} {fg bg : PixelCode} {txt : List Word}
    {cx : Nat} {ta ta' : TextArea} (hwf : ta.wf = true) (hp : placeText c font h cy fg bg txt cx ta = .ok ta') :
    ta'.wf = true := by
  induction txt generalizing cx ta with
  | nil => cases hp; exact hwf
  | cons code txt ih =>
    unfold placeText at hp
    split at hp
    · cases hp
    · split at hp
      · cases hp
      · rename_i gw gbase hd tb hb
        refine ih ?_ hp
        obtain ⟨-, rfl⟩ | ⟨hw, hg⟩ := placeGlyph_cases hb
        · exact hwf
        · obtain ⟨tc, h1, h2, -⟩ := placeGlyph_ok (ta := ta) (fg := fg) (bg := bg) (cx := cx) (cy := cy) hw hg
          rw [hb] at h1
          cases h1
          exact h2 hwf

theorem TextOp.layout_ok {o : TextOp} {c : Cfg} {ds : DeviceState} {ta : TextArea} (h : o.layout c ds = .ok ta) :
    ∃ hd tw, fontHeader o.font = .ok hd ∧ textWidth c o.font hd o.txt = .ok tw ∧ o.badGeometry = false ∧
      o.compose c hd tw = .ok ta ∧ o.outOfScreen ds ta = false := by
  unfold TextOp.layout at h
  split at h
  · cases h
  · split at h
    · cases h
    · split at h
      · cases h
      · split at h
        · cases h
        · split at h
          · cases h
          · cases h
            rename_i hd h1 _ tw h2 h3 _ h4 h5
            exact ⟨_, _, h1, h2, by simpa using h3, h4, by simpa using h5⟩

/-- What DRAWTEXT sends is not empty. -/
theorem TextOp.layout_spec {o : TextOp} {c : Cfg} {ds : DeviceState} {ta : TextArea} (h : o.layout c ds = .ok ta) :
    ta.wf = true ∧ 1 ≤ ta.w ∧ 1 ≤ ta.h ∧ 0 ≤ o.x ∧ 0 ≤ o.y ∧ o.x + ta.w ≤ ds.width.toNat ∧ o.y + ta.h ≤ ds.height.toNat := by
  obtain ⟨hd, tw, h1, h2, h3, h4, h5⟩ := TextOp.layout_ok h
  refine ⟨placeText_wf (areaAlloc_wf _ _ _) h4, ?_⟩
  simp only [TextOp.outOfScreen, TextOp.badGeometry, Bool.or_eq_false_iff, decide_eq_false_iff_not] at h3 h5
  omega

theorem TextOp.layout_ne_nil {o : TextOp} {c : Cfg} {ds : DeviceState} {ta : TextArea} (h : o.layout c ds = .ok ta) :
    ta.buf ≠ [] := by
  obtain ⟨h1, h2, h3, -⟩ := TextOp.layout_spec h
  rw [TextArea.wf_iff] at h1
  have : 0 < 2 * ta.w * ta.h := Nat.mul_pos (by omega) (by omega)
  intro e
  simp [e] at h1
  omega

/-! ## Headers, entries and widths in closed form -/

theorem le16_ofNat (a b : Byte) : le16 a b = BitVec.ofNat 16 (a.toNat + 256 * b.toNat) := by
  apply BitVec.eq_of_toNat_eq
  rw [le16_toNat, BitVec.toNat_ofNat]; have := a.isLt; have := b.isLt; omega

theorem fontHeader_eq (font : List Byte) : fontHeader font =
    (if font.length < 7 ∨ (font.getD 4 0).toNat + 256 * (font.getD 5 0).toNat <
        (font.getD 2 0).toNat + 256 * (font.getD 3 0).toNat ∨ font.getD 6 0 = 0 then .error .fontError
    else .ok ⟨BitVec.ofNat 16 ((font.getD 2 0).toNat + 256 * (font.getD 3 0).toNat),
      BitVec.ofNat 16 ((font.getD 4 0).toNat + 256 * (font.getD 5 0).toNat), font.getD 6 0⟩) := by
  match font with
  | [] | [_] | [_, _] | [_, _, _] | [_, _, _, _] | [_, _, _, _, _] | [_, _, _, _, _, _] => simp [fontHeader]
  | a :: b :: f0 :: f1 :: l0 :: l1 :: gh :: rest =>
    unfold fontHeader
    simp only [le16_toNat, List.getD_cons_succ, List.getD_cons_zero, List.length_cons, ← le16_ofNat]
    split_ifs <;> first | rfl | omega | (exfalso; simp_all; omega) | simp_all

theorem le24_eq (a b c : Byte) : le24 a b c = a.toNat + 256 * b.toNat + 65536 * c.toNat := by
  have := a.isLt; have := b.isLt; have := c.isLt
  unfold le24
  have h1 := Nat.shiftLeft_add_eq_or_of_lt (a := b.toNat) (b := a.toNat) (i := 8) (by omega)
  rw [Nat.lor_comm a.toNat, ← h1]
  have h2 := Nat.shiftLeft_add_eq_or_of_lt (a := c.toNat) (b := b.toNat <<< 8 + a.toNat) (i := 16)
    (by rw [Nat.shiftLeft_eq]; omega)
  rw [Nat.lor_comm, ← h2, Nat.shiftLeft_eq, Nat.shiftLeft_eq]; omega

/-- The directory entries of a text, in order. -/
abbrev Glyphs (c : Cfg) (font : List Byte) (h : FontHdr) : List Word → List (Nat × Nat) → Prop :=
  List.Forall₂ fun code g => dirEntry c font h code = .ok g

theorem widthSum_ok {c : Cfg} {font : List Byte} {h : FontHdr} {txt : List Word} {gs : List (Nat × Nat)}
    (hf : Glyphs c font h txt gs) : widthSum c font h txt = .ok ((gs.map Prod.fst).sum + txt.length) := by
  induction hf with
  | nil => rfl
  | cons h1 _ ih => simp only [widthSum, h1, ih, List.map_cons, List.sum_cons, List.length_cons]; congr 1; omega

theorem widthSum_error {c : Cfg} {font : List Byte} {h : FontHdr} {pre post : List Word} {code : Word}
    {e : Raise} {gs : List (Nat × Nat)} (hf : Glyphs c font h pre gs) (he : dirEntry c font h code = .error e) :
    widthSum c font h (pre ++ code :: post) = .error e := by
  induction hf with
  | nil => simp [widthSum, he]
  | cons h1 _ ih => simp [widthSum, h1, ih]

theorem textWidth_ok {c : Cfg} {font : List Byte} {h : FontHdr} {txt : List Word} {gs : List (Nat × Nat)}
    (hf : Glyphs c font h txt gs) : textWidth c font h txt = .ok ((gs.map Prod.fst).sum + txt.length - 1) := by
  cases txt with
  | nil => cases hf; rfl
  | cons a t => simp only [textWidth, widthSum_ok hf]

theorem textWidth_error {c : Cfg} {font : List Byte} {h : FontHdr} {pre post : List Word} {code : Word}
    {e : Raise} {gs : List (Nat × Nat)} (hf : Glyphs c font h pre gs) (he : dirEntry c font h code = .error e) :
    textWidth c font h (pre ++ code :: post) = .error e := by
  have := widthSum_error (post := post) hf he
  unfold textWidth
  split
  · rename_i h; simp at h
  · rw [this]

theorem forall2_of_widthSum {c : Cfg} {font : List Byte} {h : FontHdr} {txt : List Word} {n : Nat}
    (hw : widthSum c font h txt = .ok n) : ∃ gs, Glyphs c font h txt gs := by
  induction txt generalizing n with
  | nil => exact ⟨[], .nil⟩
  | cons a t ih =>
    simp only [widthSum] at hw
    split at hw
    · cases hw
    · rename_i gw gb hd
      split at hw
      · cases hw
      · rename_i m hm
        obtain ⟨gs, hg⟩ := ih hm
        exact ⟨_, .cons hd hg⟩
theorem forall2_of_textWidth {c : Cfg} {font : List Byte} {h : FontHdr} {txt : List Word} {n : Nat}
    (hw : textWidth c font h txt = .ok n) : ∃ gs, Glyphs c font h txt gs := by
  cases txt with
  | nil => exact ⟨[], .nil⟩
  | cons a t =>
    simp only [textWidth] at hw
    split at hw
    · cases hw
    · exact forall2_of_widthSum (by assumption)

/-! ## The composed area -/

theorem cursorAt_succ (a gw : Nat) (gws : List Nat) (k : Nat) :
    cursorAt a (gw :: gws) (k + 1) = cursorAt (a + gw + 1) gws k := by
  simp only [cursorAt, List.take_succ_cons, List.map_cons, List.sum_cons]; omega
theorem cursorAt_ge (a : Nat) (gws : List Nat) (k : Nat) : a ≤ cursorAt a gws k := by simp [cursorAt]

/-- The area `ta` that placing glyphs `gs` from column `cx0` makes of an area `ta0`. -/
structure Placed (font : List Byte) (gh cy : Nat) (fg bg : PixelCode) (gs : List (Nat × Nat)) (cx0 : Nat)
    (ta0 ta : TextArea) : Prop where
  wf : ta.wf = true
  w : ta0.w ≤ ta.w
  h : ta0.h ≤ ta.h
  glyph : ∀ (k col row : Nat) (hk : k < gs.length), col < gs[k].1 → row < gh →
    cursorAt cx0 (gs.map Prod.fst) k + col < ta.w ∧ cy + row < ta.h ∧
    areaPixel ta (cursorAt cx0 (gs.map Prod.fst) k + col) (cy + row) = glyphPixel font gs[k].2 gh col row fg bg
  rest : ∀ p q, p < ta.w → q < ta.h → (∀ (k : Nat) (hk : k < gs.length),
      ¬ (cursorAt cx0 (gs.map Prod.fst) k ≤ p ∧ p < cursorAt cx0 (gs.map Prod.fst) k + gs[k].1 ∧ cy ≤ q ∧ q < cy + gh)) →
    areaPixel ta p q = if p < ta0.w ∧ q < ta0.h then areaPixel ta0 p q else bg
  grewW : ta0.w < ta.w → ∃ (k : Nat) (hk : k < gs.length),
    gs[k].1 ≠ 0 ∧ ta.w = cursorAt cx0 (gs.map Prod.fst) k + gs[k].1
  grewH : ta0.h < ta.h → ta.h = cy + gh

theorem placed_step {font : List Byte} {gh cy : Nat} {fg bg : PixelCode} {gw gb : Nat} {gs : List (Nat × Nat)}
    {cx0 : Nat} {ta0 ta1 ta : TextArea} (h1 : ta0.w ≤ ta1.w) (h2 : ta0.h ≤ ta1.h)
    (hp : ∀ col row, col < gw → row < gh → cx0 + col < ta1.w ∧ cy + row < ta1.h ∧
      areaPixel ta1 (cx0 + col) (cy + row) = glyphPixel font gb gh col row fg bg)
    (hr : ∀ p q, p < ta1.w → q < ta1.h → ¬ (cx0 ≤ p ∧ p < cx0 + gw ∧ cy ≤ q ∧ q < cy + gh) →
      areaPixel ta1 p q = if p < ta0.w ∧ q < ta0.h then areaPixel ta0 p q else bg)
    (gW : ta0.w < ta1.w → gw ≠ 0 ∧ ta1.w = cx0 + gw)
    (gH : ta0.h < ta1.h → ta1.h = cy + gh)
    (ih : Placed font gh cy fg bg gs (cx0 + gw + 1) ta1 ta) :
    Placed font gh cy fg bg ((gw, gb) :: gs) cx0 ta0 ta := by
  have hc0 : ∀ gws, cursorAt cx0 gws 0 = cx0 := fun gws => by simp [cursorAt]
  refine ⟨ih.wf, h1.trans ih.w, h2.trans ih.h, fun k col row hk hc hrow => ?_,
    fun p q hpw hqh hn => ?_, fun hw => ?_, fun hh => ?_⟩
  · cases k with
    | zero =>
      simp only [List.getElem_cons_zero] at hc ⊢
      rw [hc0]
      obtain ⟨a, b, e⟩ := hp col row hc hrow
      refine ⟨lt_of_lt_of_le a ih.w, lt_of_lt_of_le b ih.h, ?_⟩
      rw [ih.rest _ _ (lt_of_lt_of_le a ih.w) (lt_of_lt_of_le b ih.h), if_pos ⟨a, b⟩, e]
      intro k hk
      have := cursorAt_ge (cx0 + gw + 1) (gs.map Prod.fst) k
      omega
    | succ k =>
      simp only [List.map_cons, cursorAt_succ, List.getElem_cons_succ] at hc ⊢
      exact ih.glyph k col row (by simpa using hk) hc hrow
  · have hn0 := hn 0 (by simp)
    rw [hc0] at hn0
    rw [ih.rest p q hpw hqh fun k hk => by
      have := hn (k + 1) (by simpa using hk)
      simpa only [List.map_cons, cursorAt_succ, List.getElem_cons_succ] using this]
    split
    · rename_i h; exact hr p q h.1 h.2 hn0
    · rename_i h; rw [if_neg (by omega)]
  · by_cases h : ta1.w < ta.w
    · obtain ⟨k, hk, a, b⟩ := ih.grewW h
      exact ⟨k + 1, by simpa using hk, by simpa using a, by simpa [cursorAt_succ] using b⟩
    · have e : ta1.w = ta.w := le_antisymm ih.w (by omega)
      obtain ⟨a, b⟩ := gW (by omega)
      exact ⟨0, by simp, a, by rw [hc0]; simp only [List.getElem_cons_zero]; omega⟩
  · by_cases h : ta1.h < ta.h
    · exact ih.grewH h
    · have := ih.h; rw [← gH (by omega)]; omega

/-- What placing a text makes of an area. -/
theorem placeText_spec {c : Cfg} {font : List Byte} {h : FontHdr} {cy : Nat} {fg bg : PixelCode}
    {txt : List Word} {gs : List (Nat × Nat)} (hf : Glyphs c font h txt gs) :
    ∀ {cx0 ta0 ta}, ta0.wf = true → placeText c font h cy fg bg txt cx0 ta0 = .ok ta →
      Placed font h.gh.toNat cy fg bg gs cx0 ta0 ta := by
  induction hf with
  | nil =>
    intro cx0 ta0 ta hwf h
    cases h
    refine ⟨hwf, le_refl _, le_refl _, fun k _ _ hk => by simp at hk,
      fun p q hp hq _ => by rw [if_pos ⟨hp, hq⟩], fun h => by omega, fun h => by omega⟩
  | cons h1 _ ih =>
    rename_i code g txt gs _
    obtain ⟨gw, gb⟩ := g
    intro cx0 ta0 ta hwf h
    simp only [placeText, h1] at h
    split at h
    · cases h
    · rename_i ta1 hta
      obtain ⟨rfl, rfl⟩ | ⟨k1, k2⟩ := placeGlyph_cases hta
      · exact placed_step (le_refl _) (le_refl _) (by omega) (fun p q a b _ => by rw [if_pos ⟨a, b⟩])
          (by omega) (by omega) (ih hwf h)
      · obtain ⟨tc, g1, g2, -, g3, g4, g5, g6⟩ := placeGlyph_ok (ta := ta0) (fg := fg) (bg := bg) (cx := cx0) (cy := cy) k1 k2
        rw [hta] at g1; cases g1
        exact placed_step (by omega) (by omega) (fun col row a b => ⟨by omega, by omega, g5 col row a b⟩) g6
          (by omega) (by omega) (ih (g2 hwf) h)

/-- A text whose glyphs all have their bitmaps in the table is placed, into any area. -/
theorem placeText_ok {c : Cfg} {font : List Byte} {h : FontHdr} {cy : Nat} {fg bg : PixelCode} {txt : List Word}
    {gs : List (Nat × Nat)} (hf : Glyphs c font h txt gs) (hb : ∀ code ∈ txt, ∀ gw gb,
      dirEntry c font h code = .ok (gw, gb) → gw ≠ 0 → gb + (gw * h.gh.toNat - 1) / 8 < font.length) :
    ∀ cx ta, ∃ ta', placeText c font h cy fg bg txt cx ta = .ok ta' := by
  induction hf with
  | nil => exact fun _ ta => ⟨ta, rfl⟩
  | cons h1 _ ih =>
    rename_i code g txt gs _
    obtain ⟨gw, gb⟩ := g
    intro cx ta
    obtain ⟨ta1, e⟩ : ∃ ta1, placeGlyph ta cx cy gw h.gh.toNat gb fg bg font = .ok ta1 := by
      by_cases hw : gw = 0
      · exact ⟨ta, by rw [hw, placeGlyph_zero]⟩
      · obtain ⟨ta1, e, -⟩ := placeGlyph_ok (ta := ta) (fg := fg) (bg := bg) (cx := cx) (cy := cy) hw
          (.inr (hb code (by simp) gw gb h1 hw))
        exact ⟨ta1, e⟩
    simp only [placeText, h1, e]
    exact ih (fun d hd => hb d (by simp [hd])) _ _

/-- A text is not placed where the table ends before the bitmap of one of its glyphs does. -/
theorem placeText_short {c : Cfg} {font : List Byte} {h : FontHdr} {cy : Nat} {fg bg : PixelCode} {txt : List Word}
    {gs : List (Nat × Nat)} (hf : Glyphs c font h txt gs) (hg : h.gh ≠ 0) {code : Word} {gw gb : Nat} (hm : code ∈ txt)
    (hd : dirEntry c font h code = .ok (gw, gb)) (hw : gw ≠ 0)
    (hs : font.length ≤ gb + (gw * h.gh.toNat - 1) / 8) :
    ∀ cx ta, placeText c font h cy fg bg txt cx ta = .error .fontError := by
  induction hf with
  | nil => simp at hm
  | cons h1 _ ih =>
    rename_i code' g txt gs _
    obtain ⟨gw', gb'⟩ := g
    intro cx ta
    simp only [placeText, h1]
    split
    · rename_i e he; rw [placeGlyph_raises he]
    · rename_i ta1 he
      rcases List.mem_cons.mp hm with rfl | hm
      · rw [hd] at h1; cases h1
        have h0 : 0 < h.gh.toNat := Nat.pos_of_ne_zero fun h0 => hg (BitVec.eq_of_toNat_eq h0)
        rw [placeGlyph_error (Nat.mul_pos (Nat.pos_of_ne_zero hw) h0) hs] at he
        cases he
      · exact ih hm _ _

/-- The only error of placing a text whose characters all have an entry. -/
theorem placeText_raises {c : Cfg} {font : List Byte} {h : FontHdr} {cy : Nat} {fg bg : PixelCode} {txt : List Word}
    {gs : List (Nat × Nat)} (hf : Glyphs c font h txt gs) {e : Raise} :
    ∀ {cx ta}, placeText c font h cy fg bg txt cx ta = .error e → e = .fontError := by
  induction hf with
  | nil => intro cx ta he; cases he
  | cons h1 _ ih =>
    intro cx ta he
    simp only [placeText, h1] at he
    split at he
    · rename_i hp; cases he; exact placeGlyph_raises hp
    · exact ih he

end Sys2Proof.Machine
end

