-- ==== Sys2Proof/Laws/Programs.lean ====
section
/-! SUPPORT. The wire program of any operation as whole items: which operations send nothing that stores, and that a host
operation's items are in the order of the trace grammar (40_transport.md R149). -/

namespace Sys2Proof.Machine

/-- The items of an operation that sends no pixel stream are harmless; a host operation's are in grammar order. -/
structure GoodItems (c : Cfg) (i : Instr) (xs : List Item) : Prop where
  harmless : c.wf = true → mayStore i = false → ∀ k, Harmless c k xs
  ordered  : i.isHost = true → ∀ d, itemsOk d xs = true

theorem GoodItems.nil (c : Cfg) (i : Instr) : GoodItems c i [] := ⟨fun _ _ _ => trivial, fun _ _ => rfl⟩

theorem GoodItems.command {c : Cfg} {i : Instr} (k : WireCmd) (data : List Byte) (h : mayStore i = false → k ≠ .ramwr) :
    GoodItems c i (commandItems (c.code k) data) := by
  refine ⟨fun hc hi j => ?_, fun _ d => ?_⟩
  · have := harmless_command (c := c) (data := data) (xs := []) (k := j)
      (fun e => h hi (Cfg.code_inj hc e)) trivial
    simpa using this
  · unfold commandItems
    split <;> rename_i hd <;> simp [itemsOk, hd]

theorem itemsOk_write (c : Cfg) (ds : DeviceState) (a b x y : Int) {buf : List Byte} (h : buf ≠ []) (d : Bool) :
    itemsOk d (winItems c ds a b x y ++ [.data buf]) = true := by
  have hb : ∀ u v : Int, be16 u ++ be16 v ≠ [] := fun u v => by unfold be16; split <;> simp [be16Bytes]
  simp [winItems, itemsOk, hb, h]

theorem itemsOk_entries (es : List InitEntry) (d : Bool) : itemsOk d (es.flatMap entryItems) = true := by
  induction es generalizing d with
  | nil => rfl
  | cons e es ih =>
    have hd : ∀ d' n, itemsOk d' (delayItems n ++ es.flatMap entryItems) = true := by
      intro d' n
      unfold delayItems
      split <;> exact ih _
    rw [List.flatMap_cons, entryItems, commandItems, List.append_assoc]
    split <;> rename_i he
    · exact hd true _
    · simp only [List.cons_append, List.nil_append, itemsOk, hd false, Bool.true_and, Bool.and_true]
      simpa using he

theorem itemsOk_reset (c : Cfg) (d : Bool) : itemsOk d (resetItems c) = true := by
  unfold resetItems pulseItems
  split
  · exact itemsOk_entries _ false
  · exact itemsOk_entries _ d

theorem itemsOk_append {xs ys : List Item} {d : Bool} (h1 : itemsOk d xs = true) (h2 : ∀ d, itemsOk d ys = true) :
    itemsOk d (xs ++ ys) = true := by
  induction xs generalizing d with
  | nil => exact h2 d
  | cons x xs ih =>
    cases x with
    | cmd code => exact ih (d := true) h1
    | data bs =>
      simp only [itemsOk, List.cons_append, Bool.and_eq_true] at h1 ⊢
      exact ⟨h1.1, ih h1.2⟩
    | rst v => exact ih (d := false) h1
    | bl v => exact ih (d := false) h1
    | delay n => exact ih (d := false) h1

theorem solidBuffer_ne_nil {w h : Nat} (c : Colour) (hw : 1 ≤ w) (hh : 1 ≤ h) : solidBuffer w h c ≠ [] := by
  have hl := rep_length (w * h) (codecEncode c)
  have hp : 0 < w * h := Nat.mul_pos hw hh
  intro e
  rw [solidBuffer] at e
  rw [e, List.length_nil] at hl
  omega

/-- A rectangle that EDGE returns is not empty, on any screen. -/
theorem edgePolicy_pos {w0 h0 : Int} {q r : Rect} (h : edgePolicy w0 h0 q = .ok r) : 1 ≤ r.w ∧ 1 ≤ r.h := by
  rw [edgePolicy_eq] at h
  split at h
  · cases h
  · cases h
    simp only
    omega

theorem Harmless.append {c : Cfg} {xs ys : List Item} {k : Option Byte} (h1 : Harmless c k xs)
    (h2 : ∀ k, Harmless c k ys) : Harmless c k (xs ++ ys) := by
  induction xs generalizing k with
  | nil => exact h2 k
  | cons x xs ih =>
    cases x with
    | cmd code => exact ih (k := some code) h1
    | data bs => exact ⟨h1.1, ih h1.2⟩
    | rst v => cases v <;> exact ih h1
    | bl v => exact ih (k := k) h1
    | delay n => exact ih (k := k) h1

/-- The items of any operation. -/
theorem planOf_items (i : Instr) (c : Cfg) (ds : DeviceState) (f : Fsm) :
    ∃ xs, (planOf i c ds f).events c = itemEvents xs ∧ GoodItems c i xs := by
  have ready : ∀ (j : Instr) (pl : Plan), (∃ xs, pl.events c = itemEvents xs ∧ GoodItems c j xs) →
      ∃ xs, (Plan.whenReady f pl).events c = itemEvents xs ∧ GoodItems c j xs := by
    intro j pl h
    unfold Plan.whenReady
    split
    · exact h
    · exact ⟨[], rfl, .nil c j⟩
  have none : ∀ j, ∃ xs, ([] : List WireEvent) = itemEvents xs ∧ GoodItems c j xs := fun j => ⟨[], rfl, .nil c j⟩
  have res : ∀ (j : Instr) {α : Type} (r : α → Result) (x : Except Raise α),
      ∃ xs, (Plan.result r x).events c = itemEvents xs ∧ GoodItems c j xs := by
    intro j α r x
    cases x <;> exact none j
  have cmd : ∀ (j : Instr) (k : WireCmd) (data : List Byte), (mayStore j = false → k ≠ .ramwr) →
      ∃ xs, commandProgram (c.code k) data = itemEvents xs ∧ GoodItems c j xs :=
    fun j k data h => ⟨_, commandProgram_items _ _, .command k data h⟩
  have one : ∀ (j : Instr) (k : WireCmd), k ≠ .ramwr →
      ∃ xs, cmdFrame (c.code k) = itemEvents xs ∧ GoodItems c j xs := by
    intro j k h
    obtain ⟨xs, h1, h2⟩ := cmd j k [] fun _ => h
    exact ⟨xs, by rw [← h1]; simp [commandProgram], h2⟩
  have fill : ∀ (j : Instr) (q : Rect) (col : Colour), mayStore j = true →
      ∃ xs, (fillPlan c ds q col).events c = itemEvents xs ∧ GoodItems c j xs := by
    intro j q col hj
    unfold fillPlan
    split
    · exact none j
    · rename_i r hr
      obtain ⟨h1, h2⟩ := edgePolicy_pos hr
      exact ⟨_, writeProgram_items _ _ _ _ _ _ _, fun _ h => (by rw [hj] at h; cases h), fun _ d =>
        itemsOk_write _ _ _ _ _ _ (solidBuffer_ne_nil _ (by omega) (by omega)) d⟩
  have bl : ∀ (j : Instr) (v : Bool), ∃ xs, blProgram c v = itemEvents xs ∧ GoodItems c j xs := by
    intro j v
    unfold blProgram
    split
    · exact ⟨[.bl v], rfl, fun _ _ _ => trivial, fun _ _ => rfl⟩
    · exact none j
  have rot : ∀ v, rotProgram c v = itemEvents (rotItems c v) := rotProgram_items c
  have hrot : ∀ (hc : c.wf = true) (v : BitVec 2) (k : Option Byte), Harmless c k (rotItems c v) := fun hc v k =>
    ⟨.inr (by simp [Cfg.code_eq hc]), trivial⟩
  cases i with
  | turnOn | turnOff => exact ready _ _ (one _ _ (by decide))
  | fillrect | drawpixel | drawline | fillscreen | clear => exact ready _ _ (fill _ _ _ rfl)
  | reset => exact ⟨_, resetEvents_items c, fun hc _ => harmless_reset hc, fun _ => itemsOk_reset c⟩
  | construct r =>
    simp only [planOf]
    cases legalRotation r with
    | none => exact none _
    | some v =>
      refine ⟨resetItems c ++ rotItems c v, ?_, fun hc _ k => ?_, fun _ d => itemsOk_append (itemsOk_reset c d) fun _ => rfl⟩
      · simp [Plan.events, constructEvents, resetEvents_items, rotProgram_items]
      · exact Harmless.append (harmless_reset hc k) (hrot hc v)
  | setrot r =>
    refine ready _ _ ?_
    cases legalRotation r with
    | none => exact none _
    | some v => exact ⟨_, rot v, fun hc _ => hrot hc v, fun _ _ => rfl⟩
  | setinv r =>
    refine ready _ _ ?_
    cases legalBool r with
    | none => exact none _
    | some v => exact one _ _ (by cases v <;> decide)
  | setbl r =>
    refine ready _ _ ?_
    cases legalBool r with
    | none => exact none _
    | some v => exact bl _ v
  | drawimage x y w h img =>
    refine ready _ _ ?_
    unfold imagePlan
    split
    · exact none _
    · split
      · exact none _
      · rename_i hs hl
        rw [strictCheck_eq] at hs
        split at hs
        · cases hs
        · rename_i hn
          simp only at hn
          have : 0 < coord w * coord h := Int.mul_pos (by omega) (by omega)
          refine ⟨_, writeProgram_items _ _ _ _ _ _ _, nofun, fun _ d => itemsOk_write _ _ _ _ _ _ ?_ d⟩
          rintro rfl
          rw [not_not] at hl
          rw [Int.mul_assoc] at hl
          simp at hl
          omega
  | drawtext fl x y w h al fg bg txt font =>
    refine ready _ _ ?_
    unfold textPlan
    split
    · exact none _
    · split
      · exact none _
      · rename_i o ho ta hta
        exact ⟨_, writeProgram_items _ _ _ _ _ _ _, nofun, fun _ d =>
          itemsOk_write _ _ _ _ _ _ (TextOp.layout_ne_nil hta) d⟩
  | measure | edge | strict | fonthdr | dirent | textwidth | place => exact res _ _ _
  | encodeColour | decodeCode | solid | taalloc | tagrow => exact none _
  | sendcmd code => exact ⟨[.cmd code], rfl, fun _ _ _ => trivial, nofun⟩
  | senddata bs => exact ⟨[.data bs], by simp [planOf, Plan.events, Item.events], nofun, nofun⟩
  | stream bs => exact ⟨[.data bs], by simp [planOf, Plan.events, Item.events], nofun, nofun⟩
  | rstpulse => exact ⟨_, rstPulse_items c, fun _ _ k => by unfold pulseItems; split <;> trivial, nofun⟩
  | blset v => exact bl _ v
  | delay n => exact ⟨_, delayProgram_items n, fun _ _ k => by unfold delayItems; split <;> trivial, nofun⟩
  | setwin => exact ⟨_, winProgram_items _ _ _ _ _ _, fun hc _ k =>
      ⟨.inr (by simp [Cfg.code_eq hc]), .inr (by simp [Cfg.code_eq hc]), trivial⟩, nofun⟩
  | writewin => exact ⟨_, writeProgram_items _ _ _ _ _ _ _, nofun, nofun⟩
  | cmdRamwr px => exact cmd _ _ _ nofun
  | _ => exact cmd _ _ _ fun _ => by decide

end Sys2Proof.Machine
end

