-- ==== Sys2Proof/Laws/Write.lean ====
section
/-! SUPPORT. What any operation leaves in the observer; how an operation can end; and the write of a rectangle on the
screen: it stores only there, and without failure it fills it (45_wire_observer.md R306). -/

namespace Sys2Proof.Machine

theorem complete_ended {s : State} {st st' : Status} {r : Result} : Ended st' (s.complete st r) ↔ st' = st := by
  simp [Ended, State.complete, eq_comm]

theorem EndedOk.status {r : Result} {t : State} {st : Status} (h : EndedOk r t) (h' : Ended st t) : st = .ok := by
  obtain ⟨r', h'⟩ := h'
  rw [h] at h'
  simp at h'
  exact h'.1.symm

theorem transportError_status {t : State} {st : Status} (h : t.completion = some ⟨.transportError, .none⟩)
    (h' : Ended st t) : st = .transportError := by
  obtain ⟨r', h'⟩ := h'
  rw [h] at h'
  simp at h'
  exact h'.1.symm

theorem performed_noFailure {s : State} (h : s.NoFailure) (n : Nat) : performed s.answers n = n :=
  performed_of_quiet fun a ha => h a (List.mem_of_mem_take ha)

theorem legalRotation_setWidth (v : BitVec 2) : legalRotation (v.setWidth 8) = some v := by revert v; decide

theorem legalBool_eq (v : Byte) (hv : v.toNat ≤ 1) : legalBool v = some (v == 1) := by
  have : v = 0 ∨ v = 1 := by
    rcases Nat.lt_or_ge v.toNat 1 with h | h
    · exact .inl (BitVec.eq_of_toNat_eq (by simp; omega))
    · exact .inr (BitVec.eq_of_toNat_eq (by simp; omega))
  rcases this with rfl | rfl <;> rfl

theorem dsOk_rotate {c : Cfg} (hc : c.wf = true) (v : BitVec 2) (ds : DeviceState) : DsOk c (ds.rotate c v) := by
  obtain ⟨h, -⟩ := Cfg.wf_rot hc v
  simp [DsOk, DeviceState.rotate, h]

/-- Whatever the transport answers, the observer has read the operation's items, perhaps cut short. -/
theorem exec_panel {i : Instr} {s t : State} (h : exec i s = .next t) :
    ∃ xs ys, GoodItems s.cfg i xs ∧ Truncated ys xs ∧ t.panel = s.panel.readAll s.cfg ys := by
  obtain ⟨xs, hx, hg⟩ := planOf_items i s.cfg s.ds s.fsm
  rw [exec_eq] at h
  obtain ⟨st', r, -, rfl⟩ | ⟨-, -, hs, -⟩ | ⟨-, hs, -⟩ := Plan.run_next h
  · exact ⟨xs, [], hg, .none _, rfl⟩
  · exact ⟨xs, xs, hg, .whole _, by rw [hs.1.2.2.1, hx, watch_items]⟩
  · obtain ⟨ys, h1, h2⟩ := watch_part s.cfg s.lines.dc xs ((planOf i s.cfg s.ds s.fsm).count s) s.panel
    exact ⟨xs, ys, hg, h1, by rw [hs.2.2.1, hx, h2]⟩

/-- The same of an operation whose whole effect is known. -/
theorem Performs.panel {es : List WireEvent} {xs : List Item} {s t : State} (h : Performs es s t)
    (hx : es = itemEvents xs) : ∃ ys, Truncated ys xs ∧ t.panel = s.panel.readAll s.cfg ys := by
  subst hx
  rcases Nat.lt_or_eq_of_le (performed_le s.answers (itemEvents xs).length) with hk | hk
  · obtain ⟨ys, h1, h2⟩ := watch_part s.cfg s.lines.dc xs (performed s.answers (itemEvents xs).length) s.panel
    exact ⟨ys, h1, by rw [(h.failed hk).1.2.2.1, h2]⟩
  · exact ⟨xs, .whole _, by rw [(h.ok hk).1.1.2.2.1, watch_items]⟩

theorem edgePolicy_onScreen {s : State} {q r : Rect} (hi : Inv s)
    (h : edgePolicy s.screenW s.screenH q = .ok r) : OnScreen s r := by
  obtain ⟨h1, h2, -⟩ := screen_bounds hi
  obtain ⟨a, b, c, d, e, f⟩ := edgePolicy_ok (by simp [State.screenW]; omega) (by simp [State.screenH]; omega) h
  exact ⟨a, b, c, d, e, f⟩

theorem strictCheck_onScreen {s : State} {q : Rect} (h : strictCheck s.screenW s.screenH q = .ok ()) :
    OnScreen s q := by
  rw [strictCheck_eq] at h
  split at h
  · cases h
  · rename_i hn
    simp only [State.screenW, State.screenH] at hn
    refine ⟨?_, ?_, ?_, ?_, ?_, ?_⟩ <;> omega

/-- The window of a rectangle on the screen, in panel coordinates. -/
theorem winItems_onScreen {s : State} {r : Rect} (ho : OnScreen s r) :
    winItems s.cfg s.ds r.x r.y (r.x + r.w - 1) (r.y + r.h - 1) =
      windowItems s.cfg (s.ds.colstart.toNat + r.x.toNat) (s.ds.colstart.toNat + r.x.toNat + r.w.toNat - 1)
        (s.ds.rowstart.toNat + r.y.toNat) (s.ds.rowstart.toNat + r.y.toNat + r.h.toNat - 1) := by
  obtain ⟨h1, h2, h3, h4, -, -⟩ := ho
  unfold winItems windowItems
  rw [show r.x + (s.ds.colstart.toNat : Int) = ((s.ds.colstart.toNat + r.x.toNat : Nat) : Int) by omega,
    show r.x + r.w - 1 + (s.ds.colstart.toNat : Int) =
      ((s.ds.colstart.toNat + r.x.toNat + r.w.toNat - 1 : Nat) : Int) by omega,
    show r.y + (s.ds.rowstart.toNat : Int) = ((s.ds.rowstart.toNat + r.y.toNat : Nat) : Int) by omega,
    show r.y + r.h - 1 + (s.ds.rowstart.toNat : Int) =
      ((s.ds.rowstart.toNat + r.y.toNat + r.h.toNat - 1 : Nat) : Int) by omega]

/-- A write of a rectangle on the screen, however much of it is sent, stores only there. -/
theorem write_outside {s t : State} {r : Rect} {buf : List Byte} {ys : List Item} (hi : Inv s)
    (ho : OnScreen s r)
    (ht : Truncated ys (winItems s.cfg s.ds r.x r.y (r.x + r.w - 1) (r.y + r.h - 1) ++ [.data buf]))
    (hp : t.panel = s.panel.readAll s.cfg ys) : SameOutsideRect r s t := by
  obtain ⟨b1, b2, b3, b4, b5, b6⟩ := screen_bounds hi
  rw [winItems_onScreen ho] at ht
  obtain ⟨h1, h2, h3, h4, h5, h6⟩ := ho
  have := Panel.readAll_write_outside (p := s.panel) hi.cfg (by omega) (by omega) (by omega) (by omega) ht
  intro a ha
  rw [hp]
  apply this
  intro x y g1 g2 g3 g4
  exact ha x y g1 (by omega) g3 (by omega)

/-- A write of a rectangle on the screen, performed whole: the window, every cell, and the pointer. -/
theorem Performs.fills {s t : State} {r : Rect} {buf : List Byte} (hi : Inv s) (ho : OnScreen s r)
    (hb : (buf.length : Int) = 2 * r.w * r.h) (hn : s.NoFailure)
    (h : Performs (writeProgram s.cfg s.ds r.x r.y r.w r.h buf) s t) :
      EndedOk .none t ∧
      t.panel.xs.toNat = s.ds.colstart.toNat + r.x.toNat ∧
      t.panel.xe.toNat = s.ds.colstart.toNat + r.x.toNat + r.w.toNat - 1 ∧
      t.panel.ys.toNat = s.ds.rowstart.toNat + r.y.toNat ∧
      t.panel.ye.toNat = s.ds.rowstart.toNat + r.y.toNat + r.h.toNat - 1 ∧
      (∀ (u v : Word) (col row : Nat), col < r.w.toNat → row < r.h.toNat →
        u.toNat = s.ds.colstart.toNat + r.x.toNat + col → v.toNat = s.ds.rowstart.toNat + r.y.toNat + row →
        t.panel.gram.pixel u v =
          some ⟨buf.getD (2 * (row * r.w.toNat + col)) 0, buf.getD (2 * (row * r.w.toNat + col) + 1) 0⟩) ∧
      SameOutsideRect r s t ∧ t.panel.armed = true ∧ t.panel.px = t.panel.xs ∧ t.panel.py = t.panel.ys ∧
      t.panel.half = none := by
  obtain ⟨b1, b2, b3, b4, b5, b6⟩ := screen_bounds hi
  have hk := h.ok (performed_noFailure hn _)
  have hp := hk.1.1.2.2.1
  rw [writeProgram_items, watch_items] at hp
  have hout := write_outside hi ho (.whole _) hp
  rw [winItems_onScreen ho, Panel.readAll_append] at hp
  obtain ⟨h1, h2, h3, h4, h5, h6⟩ := ho
  obtain ⟨ha, hg⟩ := Panel.readAll_window (p := s.panel) hi.cfg (x0 := s.ds.colstart.toNat + r.x.toNat)
    (x1 := s.ds.colstart.toNat + r.x.toNat + r.w.toNat - 1) (y0 := s.ds.rowstart.toNat + r.y.toNat)
    (y1 := s.ds.rowstart.toNat + r.y.toNat + r.h.toNat - 1) (by omega) (by omega) (by omega) (by omega)
  have hlen : buf.length = 2 * (r.w.toNat * r.h.toNat) := by
    have : ((r.w.toNat * r.h.toNat : Nat) : Int) = r.w * r.h := by
      rw [Nat.cast_mul, Int.toNat_of_nonneg (by omega), Int.toNat_of_nonneg (by omega)]
    rw [Int.mul_assoc, ← this] at hb
    omega
  have hf := Panel.fill hi.cfg (w := r.w.toNat) (h := r.h.toNat) (by omega) (by omega) (by omega) ha (buf := buf)
    (r.w.toNat * r.h.toNat) (le_refl _) (by omega)
  rw [← hlen, List.take_length] at hf
  have hp' : t.panel = List.foldl (fun q b => Panel.data s.cfg b q)
    (s.panel.readAll s.cfg (windowItems s.cfg _ _ _ _)) buf := hp
  rw [← hp'] at hf
  obtain ⟨d1, d2⟩ := hf.done rfl
  exact ⟨hk.2.2, by rw [hf.xs, ha.xs], by rw [hf.xe, ha.xe], by rw [hf.ys, ha.ys], by rw [hf.ye, ha.ye],
    fun u v col row g1 g2 g3 g4 => hf.gram u v col row g1 g2 g3 g4 (cell_lt g1 g2), hout, hf.armed, d1, d2, hf.half⟩

end Sys2Proof.Machine
end

