-- ==== Sys2Proof/Tests/Slice0.lean ====
section
/-! SUPPORT. The model's own tests. Expected results come from the spec's worked examples and derived vectors
(95_test_vectors.md); the witnesses show for each obligation with hypotheses a state and operands that meet them. -/

namespace Sys2Proof.Tests

open Sys2Proof Sys2Proof.Machine

/-! ## Helpers -/

/-- `Ready`, rotation 0, test configuration T1 (95_test_vectors.md 2.4). -/
def ready : State := { State.powerOn Cfg.t1 with fsm := .ready, ds := ⟨80, 160, 26, 1, 0, true⟩ }

/-- `Ready`, rotation 1. -/
def ready1 : State := { ready with ds := ⟨160, 80, 1, 26, 1, true⟩ }

/-- The first coming event fails. -/
def failing (s : State) : State := s.setAnswers [.failed]

/-- A state whose trace is empty, after an operation: what was sent. -/
def sent : Out → List WireEvent
  | .next t => t.trace
  | .fault _ | .refused _ => []

/-- The status and the result the host received. -/
def received : Out → Option Completion
  | .next t => t.completion
  | .fault _ | .refused _ => none

/-- The operation answers a next state with a property. -/
def gives (o : Out) (p : State → Bool) : Bool :=
  match o with
  | .next t => p t
  | .fault _ | .refused _ => false

/-- The operation ended with a status. -/
def ended (st : Status) (t : State) : Bool := t.completion.map (·.status) == some st

theorem gives_next {o : Out} {p : State → Bool} (h : gives o p = true) : ∃ t, o = .next t ∧ p t = true := by
  cases o with
  | next t => exact ⟨t, rfl, h⟩
  | fault f => cases h
  | refused r => cases h

theorem ended_iff {st : Status} {t : State} (h : ended st t = true) : Ended st t := by
  unfold ended at h
  cases hc : t.completion with
  | none => rw [hc] at h; cases h
  | some c =>
    rw [hc] at h
    obtain ⟨st', r⟩ := c
    obtain rfl : st' = st := by simpa using h
    exact ⟨r, hc⟩

theorem gives_ended {o : Out} {st : Status} (h : gives o (ended st) = true) : ∃ t, o = .next t ∧ Ended st t := by
  obtain ⟨t, h1, h2⟩ := gives_next h
  exact ⟨t, h1, ended_iff h2⟩

/-- `cmd(b)` of 95_test_vectors.md. -/
def cmd (b : Byte) : List WireEvent := [.sel, .dc false, .tx b, .desel]

/-- `data(...)` of 95_test_vectors.md. -/
def data (bs : List Byte) : List WireEvent := .sel :: .dc true :: (bs.map .tx ++ [.desel])

/-- Font F1 (44_text.md R250). -/
def f1 : List Byte :=
  [0x00, 0x00, 0x41, 0x00, 0x43, 0x00, 0x05, 0x03, 0x00, 0x00, 0x00, 0x02, 0x02, 0x00, 0x00, 0x01, 0x04, 0x00, 0x00, 0xBE,
   0x78, 0xBF, 0x02, 0x1B]

/-- The header of F1 (V-X20). -/
def h1 : FontHdr := ⟨0x41, 0x43, 5⟩

def white : PixelCode := ⟨0xFF, 0xFF⟩
def black : PixelCode := ⟨0, 0⟩

theorem wf_t1 : Cfg.t1.wf = true := by decide +kernel

theorem inv_ready : Inv ready := ⟨wf_t1, ⟨rfl, rfl, rfl, rfl⟩, rfl, fun _ => rfl, fun _ => .inr rfl⟩

theorem inv_ready1 : Inv ready1 := ⟨wf_t1, ⟨rfl, rfl, rfl, rfl⟩, rfl, fun _ => rfl, fun _ => .inr rfl⟩

theorem noFailure_ready : ready.NoFailure := nofun

/-! ## WellFormed -/

theorem test_wf_drawimage : (Instr.drawimage 1 1 1 1 (List.replicate (2 ^ 32) 0)).wf = false := by
  simp only [Instr.wf, List.length_replicate]
  decide

theorem test_wf_drawtext :
    (Instr.drawtext 0 0 0 0 0 0 ⟨0, 0, 0⟩ ⟨0, 0, 0⟩ (List.replicate (2 ^ 16) 0) []).wf = false ∧
    (Instr.drawtext 0 0 0 0 0 0 ⟨0, 0, 0⟩ ⟨0, 0, 0⟩ [] (List.replicate (2 ^ 32) 0)).wf = false := by
  simp only [Instr.wf, List.length_replicate]
  decide

theorem test_wf_measure : (Instr.measure (List.replicate (2 ^ 16) 0) []).wf = false ∧
    (Instr.measure [] (List.replicate (2 ^ 32) 0)).wf = false := by
  simp only [Instr.wf, List.length_replicate]
  decide

theorem test_wf_transport : (Instr.senddata []).wf = false ∧ (Instr.stream [0]).wf = false ∧
    (Instr.stream [0, 0, 0]).wf = false ∧ (Instr.cmdRamwr [0]).wf = false := by decide

theorem test_wf_setwin : (Instr.setwin (-1) 0 0 0).wf = false ∧ (Instr.setwin 1 0 0 0).wf = false ∧
    (Instr.setwin 0 (-1) 0 0).wf = false ∧ (Instr.setwin 0 1 0 0).wf = false := by decide

theorem test_wf_writewin : (Instr.writewin (-1) 0 1 1 [0, 0]).wf = false ∧
    (Instr.writewin 0 (-1) 1 1 [0, 0]).wf = false ∧ (Instr.writewin 0 0 0 1 []).wf = false ∧
    (Instr.writewin 0 0 1 0 []).wf = false ∧ (Instr.writewin 0 0 1 1 [0]).wf = false := by decide

theorem test_wf_shapes_text : (Instr.solid 0 1 ⟨0, 0, 0⟩).wf = false ∧ (Instr.solid 1 0 ⟨0, 0, 0⟩).wf = false ∧
    (Instr.taalloc 0 0 black).wf = false ∧ (Instr.tagrow ⟨1, 1, [0]⟩ 1 1 black).wf = false ∧
    (Instr.tagrow ⟨1, 1, [0, 0]⟩ 0 1 black).wf = false ∧ (Instr.tagrow ⟨1, 1, [0, 0]⟩ 1 0 black).wf = false ∧
    (Instr.place ⟨1, 1, []⟩ 0 0 1 1 0 white black []).wf = false := by decide

/-! ## Decoding: the descriptors of 95_test_vectors.md 2.6, and the wire bytes of 30_encoding.md R104 and R111 -/

theorem test_decode_protocol :
    decode [0x00, 0x00] = .ok (.construct 0, []) ∧ decode [0x01] = .ok (.reset, []) ∧
    decode [0x02] = .ok (.turnOn, []) ∧ decode [0x03] = .ok (.turnOff, []) ∧
    decode [0x04, 0x01] = .ok (.setrot 1, []) ∧ decode [0x05, 0x01] = .ok (.setbl 1, []) ∧
    decode [0x06, 0x00] = .ok (.setinv 0, []) := by decide +kernel

theorem test_decode_shapes :
    decode [0x10] = .ok (.clear, []) ∧ decode [0x11, 0x00, 0x00, 0x00] = .ok (.fillscreen ⟨0, 0, 0⟩, []) ∧
    decode [0x12, 0x46, 0x00, 0x96, 0x00, 0x14, 0x00, 0x14, 0x00, 0x00, 0xFF, 0x00] =
      .ok (.fillrect 70 150 20 20 ⟨0, 255, 0⟩, []) ∧
    decode [0x13, 0x50, 0x00, 0x00, 0x00, 0x00, 0x00, 0xFF] = .ok (.drawpixel 80 0 ⟨0, 0, 255⟩, []) ∧
    decode [0x14, 0x46, 0x00, 0x05, 0x00, 0x14, 0x00, 0x00, 0xFF, 0x00] = .ok (.drawline 70 5 20 ⟨0, 255, 0⟩, []) ∧
    decode [0x15, 0x01, 0x00, 0x02, 0x00, 0x02, 0x00, 0x01, 0x00, 0x04, 0x00, 0x00, 0x00, 0x12, 0x34, 0x56, 0x78] =
      .ok (.drawimage 1 2 2 1 [0x12, 0x34, 0x56, 0x78], []) := by decide +kernel

theorem test_decode_text :
    decode ([0x16, 0x0F, 0x00, 0x00, 0x00, 0x00, 0x0A, 0x00, 0x07, 0x00, 0x03, 0xFF, 0x00, 0x00, 0x00, 0x00, 0xFF, 0x02,
      0x00, 0x18, 0x00, 0x00, 0x00, 0x41, 0x00, 0x42, 0x00] ++ f1) =
      .ok (.drawtext 0x0F 0 0 10 7 3 ⟨255, 0, 0⟩ ⟨0, 0, 255⟩ [0x41, 0x42] f1, []) ∧
    decode ([0x17, 0x02, 0x00, 0x18, 0x00, 0x00, 0x00, 0x41, 0x00, 0x42, 0x00] ++ f1) =
      .ok (.measure [0x41, 0x42] f1, []) := by decide +kernel

theorem test_decode_codec :
    decode [0x18, 0xFF, 0x00, 0x00] = .ok (.encodeColour ⟨255, 0, 0⟩, []) ∧
    decode [0x19, 0xF8, 0x00] = .ok (.decodeCode 0xF8 0x00, []) := by decide +kernel

/-- The refused byte strings of 95_test_vectors.md 2.6. -/
theorem test_decode_refused :
    decode [0x07] = .error (.reservedOpcode 0x07) ∧ decode [0x0F, 0x00] = .error (.reservedOpcode 0x0F) ∧
    decode [0x1A] = .error (.reservedOpcode 0x1A) ∧ decode [0xFF] = .error (.reservedOpcode 0xFF) ∧
    decode [0x04] = .error .shortDescriptor ∧
    decode [0x12, 0x00, 0x00, 0x00, 0x00, 0x50, 0x00] = .error .shortDescriptor ∧
    decode ([0x16, 0x00, 0x0A, 0x00, 0x14, 0x00, 0x00, 0x00, 0x00, 0x00, 0x01, 0x00, 0x00, 0x00, 0x00, 0x00, 0x00, 0x02,
      0x00, 0x18, 0x00, 0x00, 0x00, 0x41, 0x00, 0x42, 0x00] ++ f1.take 23) = .error .shortDescriptor := by decide +kernel

theorem test_decodeWire_plain :
    decodeWire Cfg.t1 [0x01] = .ok .cmdSwreset ∧ decodeWire Cfg.t1 [0x11] = .ok .cmdSlpout ∧
    decodeWire Cfg.t1 [0x13] = .ok .cmdNoron ∧ decodeWire Cfg.t1 [0x20] = .ok .cmdInvoff ∧
    decodeWire Cfg.t1 [0x21] = .ok .cmdInvon ∧ decodeWire Cfg.t1 [0x28] = .ok .cmdDispoff ∧
    decodeWire Cfg.t1 [0x29] = .ok .cmdDispon := by decide +kernel

theorem test_decodeWire_window :
    decodeWire Cfg.t1 [0x2A, 0x00, 0x1A, 0x01, 0x69] = .ok (.cmdCaset 0x001A 0x0169) ∧
    decodeWire Cfg.t1 [0x2B, 0x00, 0x01, 0x00, 0xA0] = .ok (.cmdRaset 1 160) ∧
    decodeWire Cfg.t1 [0x2C, 0xF8, 0x00] = .ok (.cmdRamwr [0xF8, 0x00]) ∧
    decodeWire Cfg.t1 [0x36, 0xC8] = .ok (.cmdMadctl 0xC8) ∧ decodeWire Cfg.t1 [0x3A, 0x05] = .ok .cmdColmod ∧
    decodeWire Cfg.t1 [0x3A, 0x06] = .error (.wrongData .colmod) ∧
    decodeWire Cfg.t1 [0x2A, 0x00] = .error (.wrongData .caset) ∧
    decodeWire Cfg.t1 [0x02] = .error (.unknownCode 0x02) := by decide +kernel

theorem test_decodeWire_table :
    decodeWire Cfg.t1 [0xB1, 1] = .ok (.cmdFrmctr1 [1]) ∧ decodeWire Cfg.t1 [0xB2, 2] = .ok (.cmdFrmctr2 [2]) ∧
    decodeWire Cfg.t1 [0xB3, 3] = .ok (.cmdFrmctr3 [3]) ∧ decodeWire Cfg.t1 [0xB4, 4] = .ok (.cmdInvctr [4]) ∧
    decodeWire Cfg.t1 [0xC0, 5] = .ok (.cmdPwctr1 [5]) ∧ decodeWire Cfg.t1 [0xC1, 6] = .ok (.cmdPwctr2 [6]) ∧
    decodeWire Cfg.t1 [0xC2, 7] = .ok (.cmdPwctr3 [7]) ∧ decodeWire Cfg.t1 [0xC3, 8] = .ok (.cmdPwctr4 [8]) ∧
    decodeWire Cfg.t1 [0xC4, 9] = .ok (.cmdPwctr5 [9]) ∧ decodeWire Cfg.t1 [0xC5, 10] = .ok (.cmdVmctr1 [10]) ∧
    decodeWire Cfg.t1 [0xE0, 11] = .ok (.cmdGmctrp1 [11]) ∧ decodeWire Cfg.t1 [0xE1, 12] = .ok (.cmdGmctrn1 [12]) := by
  decide +kernel

/-- The table's bit numbering: byte 0 is bits 7:0. -/
theorem test_tableWord : decodeTableWord 16 0x0104 = some (.setrot 1) ∧
    decodeTableWord 96 0x00FF00001400140096004612 = some (.fillrect 70 150 20 20 ⟨0, 255, 0⟩) ∧
    decodeTableWord 8 0x1A = none := by decide +kernel

theorem test_withFetchWord : sent (step (ready.withFetchWord 16 0x0104)) = cmd 0x36 ++ data [0xA8] := by decide +kernel

/-! ## Vectors -/

/-- V-P1. -/
theorem test_reset :
    sent (exec .reset State.reset) = [.rst false, .delay 50, .rst true, .delay 50] ++ cmd 0x01 ++ [.delay 150] ++ cmd 0x11 ++
      [.delay 500] ++ (cmd 0xB1 ++ data [0x01, 0x2C, 0x2D]) ++ (cmd 0xB2 ++ data [0x01, 0x2C, 0x2D]) ++
      (cmd 0xB3 ++ data [0x01, 0x2C, 0x2D, 0x01, 0x2C, 0x2D]) ++ (cmd 0xB4 ++ data [0x07]) ++
      (cmd 0xC0 ++ data [0xA2, 0x02, 0x84]) ++ (cmd 0xC1 ++ data [0xC5]) ++ (cmd 0xC2 ++ data [0x0A, 0x00]) ++
      (cmd 0xC3 ++ data [0x8A, 0x2A]) ++ (cmd 0xC4 ++ data [0x8A, 0xEE]) ++ (cmd 0xC5 ++ data [0x0E]) ++
      (cmd 0xE0 ++ data [0x02, 0x1C, 0x07, 0x12, 0x37, 0x32, 0x29, 0x2D, 0x29, 0x25, 0x2B, 0x39, 0x00, 0x01, 0x03, 0x10]) ++
      (cmd 0xE1 ++ data [0x03, 0x1D, 0x07, 0x06, 0x2E, 0x2C, 0x29, 0x2D, 0x2E, 0x2E, 0x37, 0x3F, 0x00, 0x00, 0x02, 0x10]) ++
      (cmd 0x3A ++ data [0x05]) ++ (cmd 0x2A ++ data [0x00, 0x1A, 0x00, 0x69]) ++
      (cmd 0x2B ++ data [0x00, 0x01, 0x00, 0xA0]) ++ cmd 0x21 ++ cmd 0x13 ++ [.delay 10] ++ cmd 0x29 ++ [.delay 100] ∧
    (sent (exec .reset State.reset)).length = 198 := by decide +kernel

/-- The end state of V-P1. -/
theorem test_reset_state : gives (exec .reset State.reset) (fun t =>
    t.fsm == .ready && t.ds == ⟨80, 160, 26, 1, 0, true⟩ && t.lines == ⟨true, false, true, false⟩) = true := by
  decide +kernel

/-- V-P2: 206 events. -/
theorem test_construct : gives (exec (.construct 0) State.reset) (fun t =>
    t.trace.length == 206 && t.trace.drop 198 == cmd 0x36 ++ data [0xC8] && t.fsm == .ready &&
    t.ds == ⟨80, 160, 26, 1, 0, true⟩) = true := by decide +kernel

/-- V-P3. -/
theorem test_construct_illegal :
    gives (exec (.construct 4) State.reset) (· == State.reset.complete .invalidArgument .none) = true := by decide +kernel

/-- V-P4 and V-P6. -/
theorem test_setrot : gives (exec (.setrot 1) ready) (fun t =>
      t.trace == cmd 0x36 ++ data [0xA8] && t.ds == ⟨160, 80, 1, 26, 1, true⟩) = true ∧
    gives (exec (.setrot 3) ready) (fun t =>
      t.trace == cmd 0x36 ++ data [0x68] && t.ds == ⟨160, 80, 1, 26, 3, true⟩) = true := by decide +kernel

/-- V-P12 and V-P13. -/
theorem test_setinv : gives (exec (.setinv 0) ready) (fun t => t.trace == cmd 0x20 && !t.ds.inversion) = true ∧
    gives (exec (.setinv 1) ready) (fun t => t.trace == cmd 0x21 && t.ds.inversion) = true := by decide +kernel

/-- V-P15, V-P16 and V-P17. -/
theorem test_toggles : sent (exec .turnOn ready) = cmd 0x29 ∧ sent (exec .turnOff ready) = cmd 0x28 ∧
    gives (exec (.setbl 1) ready) (fun t => t.trace == [.bl true] && t.lines.bl) = true := by decide +kernel

/-- V-P18. -/
theorem test_setbl_absent :
    gives (exec (.setbl 1) { ready with cfg := { Cfg.t1 with hasBl := false } }) (fun t =>
      t.trace == [] && t.lines == ready.lines && ended .ok t) = true := by decide +kernel

/-- V-P19 and V-P20. -/
theorem test_notReady : exec .turnOn State.reset = .refused .notReady ∧
    received (exec (.measure [0x41, 0x42] f1) State.reset) = some ⟨.ok, .width 6⟩ := ⟨rfl, by decide +kernel⟩

/-- V-T1, V-T2 and V-T8. -/
theorem test_sendcmd : sent (exec (.sendcmd 0x2C) ready) = [.sel, .dc false, .tx 0x2C, .desel] ∧
    gives (exec (.sendcmd 0x29) (ready.setAnswers [.done, .done, .failed])) (fun t =>
      t.trace == [.sel, .dc false] && t.lines == ⟨false, false, false, false⟩ && ended .transportError t) = true := by
  decide +kernel

theorem test_senddata : sent (exec (.senddata [0x00, 0x1A, 0x00, 0x69]) ready) =
    [.sel, .dc true, .tx 0x00, .tx 0x1A, .tx 0x00, .tx 0x69, .desel] := by decide +kernel

/-- V-T4, V-T6, and 40_transport.md R146. -/
theorem test_lines : sent (exec .rstpulse ready) = [.rst false, .delay 50, .rst true, .delay 50] ∧
    sent (exec (.blset true) ready) = [.bl true] ∧ sent (exec (.delay 7) ready) = [.delay 7] := by decide +kernel

/-- V-P9 and V-P11. -/
theorem test_setwin : sent (exec (.setwin 0 0 159 79) ready1) =
      cmd 0x2A ++ data [0x00, 0x01, 0x00, 0xA0] ++ (cmd 0x2B ++ data [0x00, 0x1A, 0x00, 0x69]) ++ cmd 0x2C ∧
    (sent (exec (.setwin 0 0 79 0) { ready with ds := { ready.ds with colstart := 250 } })).take 11 =
      cmd 0x2A ++ data [0x00, 0xFA, 0x01, 0x49] := by decide +kernel

/-- V-C8, V-C7, V-C11 and V-C10. -/
theorem test_codec : codecEncode ⟨0x12, 0x34, 0x56⟩ = ⟨0x11, 0xAA⟩ ∧ codecEncode ⟨8, 4, 8⟩ = ⟨0x08, 0x21⟩ ∧
    codecDecode ⟨0x11, 0xAA⟩ = ⟨0x10, 0x34, 0x50⟩ ∧ codecDecode ⟨0xFF, 0xFF⟩ = ⟨248, 252, 248⟩ := by decide +kernel

/-- V-S2. -/
theorem test_fillrect : sent (exec (.fillrect 70 150 20 20 ⟨0, 255, 0⟩) ready) =
    cmd 0x2A ++ data [0x00, 0x60, 0x00, 0x69] ++ (cmd 0x2B ++ data [0x00, 0x97, 0x00, 0xA0]) ++ cmd 0x2C ++
      data (rep 100 ⟨0x07, 0xE0⟩) := by decide +kernel

/-- V-S3 and V-S4. -/
theorem test_drawpixel : sent (exec (.drawpixel 80 0 ⟨0, 0, 255⟩) ready) =
      cmd 0x2A ++ data [0x00, 0x69, 0x00, 0x69] ++ (cmd 0x2B ++ data [0x00, 0x01, 0x00, 0x01]) ++ cmd 0x2C ++
        data [0x00, 0x1F] ∧
    gives (exec (.drawpixel 81 0 ⟨0, 0, 255⟩) ready) (· == ready.complete .invalidArgument .none) = true := by
  decide +kernel

/-- The cell that V-S3 writes, by the observer (45_wire_observer.md R306). -/
theorem test_drawpixel_panel : gives (exec (.drawpixel 80 0 ⟨0, 0, 255⟩) ready) (fun t =>
    t.panel.gram.pixel 105 1 == some ⟨0x00, 0x1F⟩ && t.panel.gram.length == 2) = true := by decide +kernel

/-- V-S11. -/
theorem test_drawline : sent (exec (.drawline 150 79 20 ⟨255, 255, 255⟩) ready1) =
    cmd 0x2A ++ data [0x00, 0x97, 0x00, 0xA0] ++ (cmd 0x2B ++ data [0x00, 0x69, 0x00, 0x69]) ++ cmd 0x2C ++
      data (rep 10 ⟨0xFF, 0xFF⟩) := by decide +kernel

/-- V-S12 and V-S13. -/
theorem test_drawimage : sent (exec (.drawimage 1 2 2 1 [0x12, 0x34, 0x56, 0x78]) ready) =
      cmd 0x2A ++ data [0x00, 0x1B, 0x00, 0x1C] ++ (cmd 0x2B ++ data [0x00, 0x03, 0x00, 0x03]) ++ cmd 0x2C ++
        data [0x12, 0x34, 0x56, 0x78] ∧
    received (exec (.drawimage 79 0 2 1 [0x12, 0x34, 0x56, 0x78]) ready) = some ⟨.invalidArgument, .none⟩ := by
  decide +kernel

/-- The EDGE and STRICT lists of 95_test_vectors.md 2.4. -/
theorem test_edge : edgePolicy 80 160 ⟨80, 0, 1, 1⟩ = .ok ⟨79, 0, 1, 1⟩ ∧
    edgePolicy 80 160 ⟨81, 0, 1, 1⟩ = .error .invalidArgument ∧ edgePolicy 80 160 ⟨80, 160, 5, 5⟩ = .ok ⟨79, 159, 1, 1⟩ ∧
    edgePolicy 80 160 ⟨70, 0, 20, 10⟩ = .ok ⟨70, 0, 10, 10⟩ ∧
    edgePolicy 80 160 ⟨0, 0, 32767, 32767⟩ = .ok ⟨0, 0, 80, 160⟩ ∧
    edgePolicy 80 160 ⟨-1, 0, 1, 1⟩ = .error .invalidArgument ∧ edgePolicy 80 160 ⟨0, 0, 0, 5⟩ = .error .invalidArgument ∧
    edgePolicy 80 160 ⟨79, 159, 1, 1⟩ = .ok ⟨79, 159, 1, 1⟩ ∧
    edgePolicy 80 160 ⟨80, 161, 1, 1⟩ = .error .invalidArgument := by decide

theorem test_strict : strictCheck 80 160 ⟨0, 0, 80, 160⟩ = .ok () ∧
    strictCheck 80 160 ⟨0, 0, 81, 160⟩ = .error .invalidArgument ∧
    strictCheck 80 160 ⟨80, 0, 1, 1⟩ = .error .invalidArgument ∧ strictCheck 80 160 ⟨79, 159, 1, 1⟩ = .ok () ∧
    strictCheck 80 160 ⟨0, 0, 1, 161⟩ = .error .invalidArgument := by decide

/-- V-X20, V-X22 and V-X23. -/
theorem test_fonthdr : fontHeader f1 = .ok h1 ∧ fontHeader (f1.take 6) = .error .fontError ∧
    fontHeader [] = .error .fontError ∧ fontHeader [0, 0, 0x43, 0, 0x41, 0, 5] = .error .fontError ∧
    fontHeader [0, 0, 0x41, 0, 0x43, 0, 0] = .error .fontError := by decide +kernel

/-- V-X24 and V-X25. -/
theorem test_dirent : dirEntry Cfg.t1 f1 h1 0x41 = .ok (3, 19) ∧ dirEntry Cfg.t1 f1 h1 0x42 = .ok (2, 21) ∧
    dirEntry Cfg.t1 f1 h1 0x43 = .ok (1, 23) ∧ dirEntry Cfg.t1 f1 h1 0x40 = .error .glyphError ∧
    dirEntry Cfg.t1 f1 h1 0x44 = .error .glyphError := by decide +kernel

/-- V-X27, V-X28, V-X29 and V-X30. -/
theorem test_measure : measureText Cfg.t1 [] f1 = .ok 0 ∧ measureText Cfg.t1 [0x43, 0x42, 0x41] f1 = .ok 8 ∧
    measureText Cfg.t1 [0x43, 0x43] f1 = .ok 3 ∧ measureText Cfg.t1 [0x41, 0x44] f1 = .error .glyphError ∧
    measureText Cfg.t1 [0x41, 0x42, 0x43] (f1.take 18) = .error .fontError ∧
    measureText Cfg.t1 [0x41, 0x42, 0x43] (f1.take 19) = .ok 8 ∧ measureText Cfg.t1 [0x41] (f1.take 11) = .ok 3 := by
  decide +kernel

/-- The fields of `OP_TEXT` (30_encoding.md R102): bit 0 of the flags is the width's, 1 the height's, 2 the foreground's,
3 the background's; 0 none, 1 left, 2 center, 3 right. -/
theorem test_textOperands :
    textOperands 0x06 0xFFFF 3 9 7 2 ⟨1, 0, 0⟩ ⟨2, 0, 0⟩ [] [] =
      .ok ⟨-1, 3, none, some 7, .center, some ⟨1, 0, 0⟩, none, [], []⟩ ∧
    textOperands 0x09 0 3 9 7 3 ⟨1, 0, 0⟩ ⟨2, 0, 0⟩ [] [] =
      .ok ⟨0, 3, some 9, none, .right, none, some ⟨2, 0, 0⟩, [], []⟩ := by decide +kernel

/-- V-X2. -/
theorem test_drawtext : sent (exec (.drawtext 0x0F 0 0 10 7 3 ⟨255, 0, 0⟩ ⟨0, 0, 255⟩ [0x41, 0x42] f1) ready) =
    cmd 0x2A ++ data [0x00, 0x1A, 0x00, 0x23] ++ (cmd 0x2B ++ data [0x00, 0x01, 0x00, 0x07]) ++ cmd 0x2C ++
      data (([0, 0, 0, 0, 0, 0, 0, 0, 0, 0] ++ [0, 0, 0, 0, 0, 1, 0, 0, 1, 1] ++ [0, 0, 0, 0, 1, 0, 1, 0, 1, 0] ++
        [0, 0, 0, 0, 1, 1, 1, 0, 1, 1] ++ [0, 0, 0, 0, 1, 0, 1, 0, 1, 0] ++ [0, 0, 0, 0, 1, 0, 1, 0, 1, 1] ++
        [0, 0, 0, 0, 0, 0, 0, 0, 0, 0]).flatMap fun n => if n = 1 then [0xF8, 0x00] else [0x00, 0x1F]) := by decide +kernel

/-- V-X4: the area grows. -/
theorem test_drawtext_grows :
    sent (exec (.drawtext 0x03 0 0 4 3 3 ⟨0, 0, 0⟩ ⟨0, 0, 0⟩ [0x41, 0x42, 0x43] f1) ready) =
    cmd 0x2A ++ data [0x00, 0x1A, 0x00, 0x21] ++ (cmd 0x2B ++ data [0x00, 0x01, 0x00, 0x05]) ++ cmd 0x2C ++
      data (([0, 1, 0, 0, 1, 1, 0, 1] ++ [1, 0, 1, 0, 1, 0, 0, 1] ++ [1, 1, 1, 0, 1, 1, 0, 0] ++ [1, 0, 1, 0, 1, 0, 0, 1] ++
        [1, 0, 1, 0, 1, 1, 0, 1]).flatMap fun n => if n = 1 then [0xFF, 0xFF] else [0x00, 0x00]) := by decide +kernel

/-- V-X5, V-X12 to V-X15 and V-X31, by the layout. -/
theorem test_layout :
    ((TextOp.mk 2 3 (some 4) (some 8) .center none none [0x43] f1).layout Cfg.t1 ready.ds).toOption.map
      (fun ta => (ta.w, ta.h, (List.range 8).map fun r => areaPixel ta 1 r)) =
      some (4, 8, [black, white, white, black, white, white, black, black]) ∧
    (TextOp.mk 0 0 none none .left none none [] f1).layout Cfg.t1 ready.ds = .error .invalidArgument ∧
    (TextOp.mk 78 0 none none .left none none [0x41] f1).layout Cfg.t1 ready.ds = .error .invalidArgument ∧
    ((TextOp.mk 77 155 none none .left none none [0x41] f1).layout Cfg.t1 ready.ds).toOption.isSome = true ∧
    (TextOp.mk 77 156 none none .left none none [0x41] f1).layout Cfg.t1 ready.ds = .error .invalidArgument ∧
    (TextOp.mk 75 0 (some 4) (some 3) .left none none [0x41, 0x42, 0x43] f1).layout Cfg.t1 ready.ds =
      .error .invalidArgument := by decide +kernel

/-- V-X16, V-X17 and V-X18: the order of the errors. -/
theorem test_layout_errors :
    (TextOp.mk (-1) 0 none none .left none none [0x41] f1).layout Cfg.t1 ready.ds = .error .invalidArgument ∧
    (TextOp.mk 0 0 (some 0) none .left none none [0x41] f1).layout Cfg.t1 ready.ds = .error .invalidArgument ∧
    (TextOp.mk 0 0 none none .left none none [0x41, 0x42, 0x43] (f1.take 23)).layout Cfg.t1 ready.ds = .error .fontError ∧
    (TextOp.mk (-1) 0 none none .left none none [0x44] f1).layout Cfg.t1 ready.ds = .error .glyphError := by decide +kernel

/-- A text area that grows keeps its pixels in place (44_text.md R263). -/
theorem test_tagrow : areaGrow ⟨1, 2, [1, 2, 3, 4]⟩ 2 2 black = ⟨2, 2, [1, 2, 0, 0, 3, 4, 0, 0]⟩ := by decide +kernel

/-- The glyph 'C' of F1 (95_test_vectors.md 2.5): `##.##`. -/
theorem test_place : placeGlyph (areaAlloc 1 5 black) 0 0 1 5 23 white black f1 =
    .ok ⟨1, 5, [0xFF, 0xFF, 0xFF, 0xFF, 0, 0, 0xFF, 0xFF, 0xFF, 0xFF]⟩ := by decide +kernel

/-- The other wire commands as they stand in V-P1. -/
theorem test_wire : sent (exec .cmdColmod ready) = cmd 0x3A ++ data [0x05] ∧
    sent (exec (.cmdPwctr1 [0xA2, 0x02, 0x84]) ready) = cmd 0xC0 ++ data [0xA2, 0x02, 0x84] ∧
    sent (exec (.cmdCaset 0x1A 0x69) ready) = cmd 0x2A ++ data [0x00, 0x1A, 0x00, 0x69] ∧
    sent (exec .cmdSlpout ready) = cmd 0x11 := by decide +kernel

/-! ## Witnesses: states and operands that meet the hypotheses of the obligations -/

theorem witness_DecodeInvertsEncode : (Instr.drawimage 0x8000 1 2 1 [1, 2, 3, 4]).wf = true ∧
    (Instr.drawimage 0x8000 1 2 1 [1, 2, 3, 4]).isHost = true ∧ (Instr.reset).wf = true ∧ (Instr.reset).isHost = true := by
  decide

theorem witness_EncodeInvertsDecode : decode [0x04, 0x01, 0x02] = .ok (.setrot 1, [0x02]) := by decide +kernel

theorem witness_BytesThatSpellNothingAreRefused :
    (ready.setPort [0x07, 0x01]).port = 0x07 :: [0x01] ∧
    (∀ b ∈ ([0x07, 0x0F, 0x1A, 0xFF] : List Byte), hostOpOf b = none ∧
      ((0x07 ≤ b.toNat ∧ b.toNat ≤ 0x0F) ∨ 0x1A ≤ b.toNat)) ∧
    (∀ b ∈ ([0x00, 0x06, 0x10, 0x19] : List Byte), hostOpOf b ≠ none) ∧
    (Instr.setrot 1).wf = true ∧ encode (.setrot 1) = some [0x04, 0x01] ∧ [0x04] <+: ([0x04, 0x01] : List Byte) ∧
    (ready.setPort [0x04]).port = [0x04] := by decide +kernel

theorem witness_WireDecodeInvertsEncode : Cfg.t1.wf = true ∧ (Instr.cmdCaset 0x1A 0x169).isWire = true ∧
    decodeWire Cfg.t1 [0x36, 0xC8] = .ok (.cmdMadctl 0xC8) := by decide +kernel

theorem witness_StepRunsThePresentedOperation : (Instr.setrot 1).wf = true ∧ encode (.setrot 1) = some [0x04, 0x01] ∧
    (ready.setPort [0x04, 0x01, 0x02]).port = [0x04, 0x01] ++ [0x02] ∧ ready.port = [] := by decide

theorem witness_PowerOnMeetsTheInvariants : Cfg.t1.wf = true := wf_t1

theorem witness_StepKeepsInvariant : ∃ t, Inv (ready.setPort [0x04, 0x01]) ∧
    step (ready.setPort [0x04, 0x01]) = .next t ∧ t.trace ≠ [] := by
  obtain ⟨t, h1, h2⟩ := gives_next (o := step (ready.setPort [0x04, 0x01])) (p := fun t => !t.trace.isEmpty)
    (by decide +kernel)
  exact ⟨t, ⟨wf_t1, inv_ready.ds, rfl, fun _ => rfl, fun _ => .inr rfl⟩, h1, by intro h; simp [h] at h2⟩

theorem witness_StepKeepsCleanRun : ∃ t, CleanRun (ready.setPort [0x04, 0x01]) ∧
    step (ready.setPort [0x04, 0x01]) = .next t ∧ t.trace ≠ [] := by
  obtain ⟨t, h1, h2⟩ := gives_next (o := step (ready.setPort [0x04, 0x01])) (p := fun t => !t.trace.isEmpty)
    (by decide +kernel)
  exact ⟨t, ⟨nofun, rfl⟩, h1, by intro h; simp [h] at h2⟩

theorem witness_WireProgramIsFixedAtTheStart : ∃ t, exec .turnOn ready = .next t :=
  ⟨_, (gives_next (p := fun _ => true) (by decide +kernel)).choose_spec.1⟩

/-- One state for each clause: a plain operation, one that leaves `Uninitialized`, and a RESET that ends `OK`. -/
theorem witness_OnlyNamedOperationsWriteRegisters :
    (∃ t, exec .turnOn ready = .next t ∧ Ended .ok t) ∧
    (∃ t, exec (.encodeColour ⟨1, 2, 3⟩) State.reset = .next t ∧ t.fsm = .uninitialized) ∧
    (∃ t, exec .reset State.reset = .next t ∧ Ended .ok t) :=
  ⟨gives_ended (by decide +kernel), ⟨_, rfl, rfl⟩, gives_ended (by decide +kernel)⟩

theorem witness_NotReadyIsRefused : (Instr.turnOn).isHost = true ∧ State.reset.fsm ≠ .ready ∧
    (State.reset.setFsm .resetting).fsm ≠ .ready ∧ (State.reset.setFsm .initializing).fsm ≠ .ready := by decide

theorem witness_ErrorsChangeNothing :
    (∃ t, exec (.setrot 4) ready = .next t ∧ Ended .invalidArgument t) ∧
    (∃ t, exec (.measure [0x41] []) ready = .next t ∧ Ended .fontError t) ∧
    (∃ t, exec (.measure [0x44] f1) ready = .next t ∧ Ended .glyphError t) :=
  ⟨gives_ended (by decide +kernel), gives_ended (by decide +kernel), gives_ended (by decide +kernel)⟩

/-- A failure in the pulse, one at the first event after it, the last of the reset, the first past it, and one outside a
reset. -/
theorem witness_TransportErrorState :
    (∃ t, exec .reset (failing ready) = .next t ∧ Ended .transportError t) ∧
    (∃ t, exec .reset (ready.setAnswers (List.replicate 4 .done ++ [.failed])) = .next t ∧ Ended .transportError t) ∧
    (∃ t, exec (.construct 0) (ready.setAnswers (List.replicate 197 .done ++ [.failed])) = .next t ∧
      Ended .transportError t) ∧
    (∃ t, exec (.construct 0) (ready.setAnswers (List.replicate 198 .done ++ [.failed])) = .next t ∧
      Ended .transportError t) ∧
    (∃ t, exec .turnOn (failing ready) = .next t ∧ Ended .transportError t) ∧
    (pulseEvents Cfg.t1).length = 4 ∧ (resetEvents Cfg.t1).length = 198 :=
  ⟨gives_ended (by decide +kernel), gives_ended (by decide +kernel), gives_ended (by decide +kernel),
    gives_ended (by decide +kernel), gives_ended (by decide +kernel), by decide +kernel, by decide +kernel⟩

theorem witness_FaultMarkIsSticky :
    (∃ t, exec .turnOn (failing ready) = .next t ∧ Ended .transportError t ∧ t.faulted = true) ∧
    (∃ t, exec .turnOn (ready.setFaulted true) = .next t ∧ t.faulted = true) ∧
    (∃ t, exec .reset (ready.setFaulted true) = .next t ∧ t.faulted = false) := by
  refine ⟨?_, ?_, ?_⟩
  · obtain ⟨t, h1, h2⟩ := gives_next (o := exec .turnOn (failing ready))
      (p := fun t => ended .transportError t && t.faulted) (by decide +kernel)
    simp only [Bool.and_eq_true] at h2
    exact ⟨t, h1, ended_iff h2.1, h2.2⟩
  · exact gives_next (p := fun t => t.faulted) (by decide +kernel)
  · obtain ⟨t, h1, h2⟩ := gives_next (o := exec .reset (ready.setFaulted true)) (p := fun t => !t.faulted)
      (by decide +kernel)
    exact ⟨t, h1, by simpa using h2⟩

theorem witness_LinesAndObserverFollowTheTrace : ∃ t, exec .turnOn (failing ready) = .next t ∧ Ended .transportError t :=
  gives_ended (by decide +kernel)

theorem witness_IllegalOperandsRaise : 3 < (4 : Byte).toNat ∧ ready.fsm = .ready ∧ 1 < (2 : Byte).toNat ∧
    16 ≤ (0x10 : Byte).toNat ∧ 3 < (4 : Byte).toNat := by decide

theorem witness_SendcmdResult : performed ready.answers 4 = 4 := by decide

theorem witness_SenddataResult : performed ready.answers (([] : List Byte).length + 3) = ([] : List Byte).length + 3 := by
  decide

theorem witness_RstpulseAndDelayResult : ready.cfg.hasRst = true ∧ performed ready.answers 1 = 1 ∧
    ({ ready with cfg := { ready.cfg with hasRst := false } } : State).cfg.hasRst = false := by decide +kernel

theorem witness_BacklightResult : ready.fsm = .ready ∧ (0 : Byte).toNat ≤ 1 ∧ (1 : Byte).toNat ≤ 1 ∧
    performed ready.answers 1 = 1 := by decide

theorem witness_ResetResult :
    performed State.reset.answers (resetEvents Cfg.t1).length = (resetEvents Cfg.t1).length ∧
    performed (failing State.reset).answers (resetEvents Cfg.t1).length < (resetEvents Cfg.t1).length := by decide +kernel

theorem witness_ResetLeavesLinesAndPanel : State.reset.cfg.wf = true ∧
    ∃ t, exec .reset State.reset = .next t ∧ Ended .ok t := ⟨wf_t1, gives_ended (by decide +kernel)⟩

theorem witness_ConstructResult :
    performed State.reset.answers (resetEvents Cfg.t1 ++ frames (Cfg.t1.code .madctl) [(Cfg.t1.rot 3).madctl]).length =
      (resetEvents Cfg.t1 ++ frames (Cfg.t1.code .madctl) [(Cfg.t1.rot 3).madctl]).length := by decide +kernel

theorem witness_SetrotResult : ready.fsm = .ready ∧ ready.cfg.wf = true ∧
    (∃ t, exec (.setrot 0) ready = .next t ∧ Ended .ok t) ∧ (∃ t, exec (.setrot 3) ready = .next t ∧ Ended .ok t) :=
  ⟨rfl, wf_t1, gives_ended (by decide +kernel), gives_ended (by decide +kernel)⟩

theorem witness_SetinvResult : ready.fsm = .ready ∧ (0 : Byte).toNat ≤ 1 ∧ (1 : Byte).toNat ≤ 1 ∧ ready.cfg.wf = true ∧
    (∃ t, exec (.setinv 0) ready = .next t ∧ Ended .ok t) ∧ (∃ t, exec (.setinv 1) ready = .next t ∧ Ended .ok t) :=
  ⟨rfl, by decide, by decide, wf_t1, gives_ended (by decide +kernel), gives_ended (by decide +kernel)⟩

theorem witness_OnResult : ready.fsm = .ready ∧ ready.cfg.wf = true ∧ ∃ t, exec .turnOn ready = .next t ∧ Ended .ok t :=
  ⟨rfl, wf_t1, gives_ended (by decide +kernel)⟩

theorem witness_OffResult : ready.fsm = .ready ∧ ready.cfg.wf = true ∧ ∃ t, exec .turnOff ready = .next t ∧ Ended .ok t :=
  ⟨rfl, wf_t1, gives_ended (by decide +kernel)⟩

theorem witness_SetwinResult : Inv ready ∧ 79 < ready.ds.width.toNat ∧ 159 < ready.ds.height.toNat ∧ 65535 ≤ 65535 :=
  ⟨inv_ready, by decide⟩

/-- The whole screen, and its last pixel. -/
theorem witness_WritewinFillsTheWindow : Inv ready ∧ ready.NoFailure ∧
    (OnScreen ready ⟨0, 0, 80, 160⟩ ∧ ((List.replicate 25600 (0 : Byte)).length : Int) = 2 * 80 * 160) ∧
    (OnScreen ready ⟨79, 159, 1, 1⟩ ∧ (([0xF8, 0x00] : List Byte).length : Int) = 2 * 1 * 1) := by
  refine ⟨inv_ready, noFailure_ready, ⟨?_, by rw [List.length_replicate]; rfl⟩, ?_, rfl⟩
  · exact ⟨by decide, by decide, by decide, by decide, by decide, by decide⟩
  · exact ⟨by decide, by decide, by decide, by decide, by decide, by decide⟩

/-- Both outcomes at the far edge and one past it. -/
theorem witness_EdgeResult : received (exec (.edge 80 160 1 1) ready) = some ⟨.ok, .rect ⟨79, 159, 1, 1⟩⟩ ∧
    received (exec (.edge 81 160 1 1) ready) = some ⟨.invalidArgument, .none⟩ := by decide +kernel

theorem witness_EdgeAndStrictStayOnScreen : Inv ready ∧
    (∃ t, exec (.edge 80 160 1 1) ready = .next t ∧ EndedOk (.rect ⟨79, 159, 1, 1⟩) t) ∧
    (∃ t, exec (.strict 0 0 80 160) ready = .next t ∧ Ended .ok t) :=
  ⟨inv_ready, (gives_next (p := fun t => t.completion == some ⟨.ok, .rect ⟨79, 159, 1, 1⟩⟩) (by decide +kernel)).imp
    fun _ h => ⟨h.1, by simpa [EndedOk] using h.2⟩, gives_ended (by decide +kernel)⟩

theorem witness_StrictResult : received (exec (.strict 79 159 1 1) ready) = some ⟨.ok, .none⟩ ∧
    received (exec (.strict 80 159 1 1) ready) = some ⟨.invalidArgument, .none⟩ := by decide +kernel

theorem witness_SolidResult : 5 < 2 * 3 ∧
    received (exec (.solid 2 1 ⟨255, 0, 0⟩) ready) = some ⟨.ok, .bytes [0xF8, 0, 0xF8, 0]⟩ := by decide +kernel

theorem witness_FillrectResult : ready.fsm = .ready ∧
    edgePolicy ready.screenW ready.screenH ⟨(81 : Word).toInt, (0 : Word).toInt, (1 : Word).toInt, (1 : Word).toInt⟩ =
      .error .invalidArgument ∧
    edgePolicy ready.screenW ready.screenH ⟨(80 : Word).toInt, (160 : Word).toInt, (1 : Word).toInt, (1 : Word).toInt⟩ =
      .ok ⟨79, 159, 1, 1⟩ := by
  decide +kernel

theorem witness_DrawpixelResult : ready.fsm = .ready ∧ (ready.ds.width.toNat : Int) < (81 : Word).toInt ∧
    ¬ ((80 : Word).toInt < 0 ∨ (160 : Word).toInt < 0 ∨ (ready.ds.width.toNat : Int) < (80 : Word).toInt ∨
      (ready.ds.height.toNat : Int) < (160 : Word).toInt) ∧ (0x8000 : Word).toInt < 0 := by decide +kernel

theorem witness_DrawlineResult : ready.fsm = .ready ∧
    edgePolicy ready.screenW ready.screenH ⟨(0 : Word).toInt, (0 : Word).toInt, (0 : Word).toInt, 1⟩ =
      .error .invalidArgument ∧
    edgePolicy ready.screenW ready.screenH ⟨(80 : Word).toInt, (5 : Word).toInt, (3 : Word).toInt, 1⟩ =
      .ok ⟨79, 5, 1, 1⟩ := by decide +kernel

theorem witness_FillscreenAndClearResult : Inv ready1 ∧ ready1.fsm = .ready := ⟨inv_ready1, rfl⟩

/-- A rectangle one too wide, an image one byte too long, and one that is drawn. -/
theorem witness_DrawimageResult : ready.fsm = .ready ∧
    (79 : Word).toInt + (2 : Word).toInt > ready.ds.width.toNat ∧
    (([0, 0, 0] : List Byte).length : Int) ≠ 2 * (1 : Word).toInt * (1 : Word).toInt ∧
    ¬ ((79 : Word).toInt < 0 ∨ (159 : Word).toInt < 0 ∨ (1 : Word).toInt ≤ 0 ∨ (1 : Word).toInt ≤ 0 ∨
      (79 : Word).toInt + (1 : Word).toInt > ready.ds.width.toNat ∨
      (159 : Word).toInt + (1 : Word).toInt > ready.ds.height.toNat ∨
      (([0, 0] : List Byte).length : Int) ≠ 2 * (1 : Word).toInt * (1 : Word).toInt) := by
  decide +kernel

theorem witness_DrawingFillsItsRectangle : Inv ready ∧ ready.fsm = .ready ∧ ready.NoFailure ∧
    (fillColour .clear = some ⟨0, 0, 0⟩ ∧ drawnRect ready .clear = some ⟨0, 0, 80, 160⟩) ∧
    drawnRect ready (.fillscreen ⟨1, 2, 3⟩) = some ⟨0, 0, 80, 160⟩ ∧
    drawnRect ready (.fillrect 80 160 1 1 ⟨1, 2, 3⟩) = some ⟨79, 159, 1, 1⟩ ∧
    drawnRect ready (.drawpixel 80 160 ⟨1, 2, 3⟩) = some ⟨79, 159, 1, 1⟩ ∧
    drawnRect ready (.drawline 70 5 20 ⟨1, 2, 3⟩) = some ⟨70, 5, 10, 1⟩ ∧
    drawnRect ready (.drawimage 78 159 2 1 [1, 2, 3, 4]) = some ⟨78, 159, 2, 1⟩ ∧
    drawnRect ready (.drawtext 0 77 155 0 0 1 ⟨0, 0, 0⟩ ⟨0, 0, 0⟩ [0x41] f1) = some ⟨77, 155, 3, 5⟩ :=
  ⟨inv_ready, rfl, noFailure_ready, by decide +kernel⟩

theorem witness_NonDrawingKeepsTheFrameMemory : ready.cfg.wf = true ∧ mayStore .reset = false ∧
    ∃ t, exec .reset (failing ready) = .next t ∧ Ended .transportError t := ⟨wf_t1, rfl, gives_ended (by decide +kernel)⟩

theorem witness_DrawingStaysInItsRectangle : Inv ready ∧ (Instr.drawpixel 80 160 ⟨1, 2, 3⟩).isHost = true ∧
    (∃ t, exec (.drawpixel 80 160 ⟨1, 2, 3⟩) ready = .next t ∧ Ended .ok t) ∧
    drawnRect ready (.drawpixel 80 160 ⟨1, 2, 3⟩) = some ⟨79, 159, 1, 1⟩ ∧
    (∃ t, exec (.drawpixel 81 0 ⟨1, 2, 3⟩) ready = .next t ∧ Ended .invalidArgument t) ∧
    drawnRect ready (.drawpixel 81 0 ⟨1, 2, 3⟩) = none :=
  ⟨inv_ready, rfl, gives_ended (by decide +kernel), by decide +kernel, gives_ended (by decide +kernel),
    by decide +kernel⟩

/-- A panel that is write-armed in a window of one pixel. -/
def armed : State := { ready with panel := { ready.panel with lastcmd := some 0x2C, armed := true } }

theorem witness_RawStreamsStayInTheWindow :
    (Inv ready ∧ OnScreen ready ⟨79, 159, 1, 1⟩ ∧ ∃ t, exec (.writewin 79 159 1 1 [1, 2]) ready = .next t ∧ Ended .ok t) ∧
    (ready.panel.lastcmd ≠ some (ready.cfg.code .ramwr) ∧ ∃ t, exec (.senddata [1, 2]) ready = .next t ∧ Ended .ok t) ∧
    (armed.panel.xs ≤ armed.panel.px ∧ armed.panel.px ≤ armed.panel.xe ∧ armed.panel.ys ≤ armed.panel.py ∧
      armed.panel.py ≤ armed.panel.ye ∧ armed.panel.lastcmd = some (armed.cfg.code .ramwr) ∧ armed.cfg.wf = true ∧
      ∃ t, exec (.stream [1, 2]) armed = .next t ∧ Ended .ok t) ∧
    (ready.panel.xs ≤ ready.panel.xe ∧ ready.panel.ys ≤ ready.panel.ye ∧
      ∃ t, exec (.cmdRamwr [1, 2]) ready = .next t ∧ Ended .ok t) :=
  ⟨⟨inv_ready, ⟨by decide, by decide, by decide, by decide, by decide, by decide⟩, gives_ended (by decide +kernel)⟩,
    ⟨by decide, gives_ended (by decide +kernel)⟩,
    ⟨by decide, by decide, by decide, by decide, by decide, wf_t1, gives_ended (by decide +kernel)⟩,
    by decide, by decide, gives_ended (by decide +kernel)⟩

theorem witness_FonthdrResult : received (exec (.fonthdr (f1.take 6)) ready) = some ⟨.fontError, .none⟩ ∧
    received (exec (.fonthdr (f1.take 7)) ready) = some ⟨.ok, .header h1⟩ := by decide +kernel

/-- The first and last codes, one past them, and an entry cut by one byte. -/
theorem witness_DirentResult : received (exec (.dirent f1 h1 0x40) ready) = some ⟨.glyphError, .none⟩ ∧
    received (exec (.dirent f1 h1 0x41) ready) = some ⟨.ok, .glyph 3 19⟩ ∧
    received (exec (.dirent f1 h1 0x43) ready) = some ⟨.ok, .glyph 1 23⟩ ∧
    received (exec (.dirent f1 h1 0x44) ready) = some ⟨.glyphError, .none⟩ ∧
    received (exec (.dirent (f1.take 18) h1 0x43) ready) = some ⟨.fontError, .none⟩ := by decide +kernel

theorem witness_TextwidthResult :
    List.Forall₂ (fun code g => dirEntry ready.cfg f1 h1 code = .ok g) [0x41, 0x42] [(3, 19), (2, 21)] ∧
    dirEntry ready.cfg f1 h1 0x44 = .error .glyphError :=
  ⟨.cons (by decide +kernel) (.cons (by decide +kernel) .nil), by decide +kernel⟩

theorem witness_MeasureResult : fontHeader [] = .error .fontError ∧ fontHeader f1 = .ok h1 ∧
    textWidth ready.cfg f1 h1 [0x41, 0x42] = .ok 6 := by decide +kernel

/-- A growth, a size kept, and a well-formed area with a pixel. -/
theorem witness_TextAreaAllocAndGrow : (TextArea.mk 1 1 [1, 2]).wf = true ∧ (TextArea.mk 1 1 [1, 2]).w ≤ 2 ∧
    (TextArea.mk 1 1 [1, 2]).h ≤ 1 ∧ 0 < (TextArea.mk 1 1 [1, 2]).w ∧ 0 < (TextArea.mk 1 1 [1, 2]).h := by decide

/-- A bitmap whose last byte is the table's last, one byte past it, a glyph without rows, a well-formed area, and one
whose buffer is a byte short. -/
theorem witness_PlaceResult : (TextArea.mk 1 1 [1, 2]).wf = true ∧ 0 < 1 * 5 ∧
    23 + (1 * 5 - 1) / 8 < f1.length ∧ f1.length ≤ 24 + (1 * 5 - 1) / 8 ∧
    received (exec (.place ⟨1, 1, [1, 2]⟩ 0 0 2 0 99 white black f1) ready) = some ⟨.ok, .area ⟨2, 1, [1, 2, 0, 0]⟩⟩ ∧
    received (exec (.place ⟨1, 5, [1]⟩ 0 0 1 5 23 white black f1) ready) =
      some ⟨.ok, .area ⟨1, 5, [0xFF, 0xFF, 0xFF, 0xFF, 0, 0, 0xFF, 0xFF, 0xFF, 0xFF]⟩⟩ := by
  decide +kernel

theorem witness_TextOffsets : alignOffset .right 9 6 = 3 ∧ alignOffset .center 9 6 = 1 ∧ alignOffset .right 6 6 = 0 ∧
    alignOffset .center 4 8 = 0 ∧ rowOffset 8 5 = 1 ∧ rowOffset 3 5 = 0 := by decide

/-- The text of V-X4. -/
theorem witness_TextAreaHoldsItsGlyphs :
    (((TextOp.mk 0 0 (some 4) (some 3) .right none none [0x41, 0x42, 0x43] f1).layout Cfg.t1 ready.ds).toOption.map
      fun ta => (ta.w, ta.h)) = some (8, 5) := by decide +kernel

/-- Each outcome of the layout: drawn, a bad header, a bad character, a bad size, a bitmap cut short, an area that does
not fit. A glyph whose last byte is the table's last, and one past it. -/
theorem witness_DrawtextResult : dirEntry ready.cfg f1 h1 0x43 = .ok (1, 23) ∧ 23 + (1 * 5 - 1) / 8 < f1.length ∧
    (f1.take 23).length ≤ 23 + (1 * 5 - 1) / 8 ∧ ready.fsm = .ready ∧ (0x0F : Byte).toNat < 16 ∧
    ((3, .right) : Byte × Align) ∈ [(0, Align.none), (1, .left), (2, .center), (3, .right)] ∧
    received (exec (.drawtext 0x0F 0 0 10 7 3 ⟨255, 0, 0⟩ ⟨0, 0, 255⟩ [0x41] f1) ready) = some ⟨.ok, .none⟩ ∧
    received (exec (.drawtext 0x0F 0 0 0 7 3 ⟨255, 0, 0⟩ ⟨0, 0, 255⟩ [0x41] []) ready) = some ⟨.fontError, .none⟩ ∧
    received (exec (.drawtext 0x0F 0 0 0 7 3 ⟨255, 0, 0⟩ ⟨0, 0, 255⟩ [0x44] f1) ready) = some ⟨.glyphError, .none⟩ ∧
    received (exec (.drawtext 0x0F 0 0 0 7 3 ⟨255, 0, 0⟩ ⟨0, 0, 255⟩ [0x41] (f1.take 19)) ready) =
      some ⟨.invalidArgument, .none⟩ ∧
    received (exec (.drawtext 0x0F 80 0 10 7 3 ⟨255, 0, 0⟩ ⟨0, 0, 255⟩ [0x41] (f1.take 19)) ready) =
      some ⟨.fontError, .none⟩ ∧
    received (exec (.drawtext 0x0F 80 0 10 7 3 ⟨255, 0, 0⟩ ⟨0, 0, 255⟩ [0x41] f1) ready) =
      some ⟨.invalidArgument, .none⟩ := by decide +kernel

/-- An execution in which nothing is unread. -/
def start (s : State) : Execution := ⟨s, [], s.lines⟩

/-- Nothing presented and something presented, an ill-formed operation and one that is not the host's, a move of another
party, an operation issued and run, and one answer of each kind. -/
theorem witness_EachPartyDoesItsPart : (Instr.setrot 1).wf = true ∧ (Instr.setrot 1).isHost = true ∧
    (start ready).state.port = [] ∧ (start (ready.setPort [0x04])).state.port ≠ [] ∧ (Instr.solid 0 1 ⟨0, 0, 0⟩).wf = false ∧
    (Instr.rstpulse).isHost = false ∧ (Move.transport .done).party ≠ .engine ∧
    ((runMoves [.host (.setrot 1), .engine, .panel] (start ready)).map fun y => y.unread.length) = some 7 ∧
    (runMoves [.panel] (start ready)).isNone = true ∧ (start ready).unread = [] ∧
    (failing ready).answers = [.failed] ∧ (ready.setAnswers [.done]).answers = [.done] := by decide +kernel

theorem witness_WireCommandObserver : ready.cfg.wf = true ∧ ready.NoFailure ∧
    wireParts ready.cfg (.cmdCaset 1 2) = some (.caset, [0, 1, 0, 2]) ∧
    wireParts ready.cfg .cmdSwreset = some (.swreset, []) ∧
    wireParts ready.cfg (.cmdRamwr []) = some (.ramwr, []) ∧ (∃ t, exec (.cmdRamwr []) ready = .next t ∧ Ended .ok t) ∧
    ∃ t, exec (.cmdCaset 1 2) ready = .next t ∧ Ended .ok t :=
  ⟨wf_t1, noFailure_ready, rfl, rfl, rfl, gives_ended (by decide +kernel), gives_ended (by decide +kernel)⟩

end Sys2Proof.Tests
end

