-- ==== Sys2Proof/Proofs/Scope.lean ====
section
/-! The family of 00_scope.md: a step runs the operation presented (R10), what every step keeps, and what each party
does (R9). -/

namespace Sys2Proof

/-! ## The descriptor at the front of the port -/

theorem takeTextFont_append (txt : List Word) (font rest : List Byte) :
    takeTextFont txt.length font.length (codesBytes txt ++ (font ++ rest)) = some (txt, font, rest) := by
  simp [takeTextFont, takeCodes_append, takeBytes_append]

/-- The decoder reads the fields of a well-formed operation back from its descriptor, whatever bytes follow. -/
theorem decodeFields_of_encode {i : Instr} {d : List Byte} (hw : i.wf = true) (h : encode i = some d)
    (rest : List Byte) : ∃ k fs, d = HostOp.opcode k :: fs ∧ decodeFields k (fs ++ rest) = some (i, rest) := by
  cases i with
  | construct | reset | turnOn | turnOff | setrot | setbl | setinv | clear | fillscreen | encodeColour | decodeCode =>
    cases h; exact ⟨_, _, rfl, rfl⟩
  | fillrect | drawpixel | drawline =>
    cases h; exact ⟨_, _, rfl, by simp [decodeFields, wordBytes, colourBytes]⟩
  | drawimage x y w h img =>
    cases h
    have hl : img.length < 2 ^ 32 := by simpa [Instr.wf] using hw
    exact ⟨_, _, rfl, by
      simp [decodeFields, decodeImage, wordBytes, nat32Bytes, le32_nat32Bytes _ hl, takeBytes_append]⟩
  | drawtext fl x y w h al fg bg txt font =>
    cases h
    obtain ⟨ht, hf⟩ : txt.length < 2 ^ 16 ∧ font.length < 2 ^ 32 := by simpa [Instr.wf] using hw
    exact ⟨_, _, rfl, by
      simp [decodeFields, decodeText, wordBytes, colourBytes, nat16Bytes, nat32Bytes, le16_nat16Bytes _ ht,
        le32_nat32Bytes _ hf, takeTextFont_append]⟩
  | measure txt font =>
    cases h
    obtain ⟨ht, hf⟩ : txt.length < 2 ^ 16 ∧ font.length < 2 ^ 32 := by simpa [Instr.wf] using hw
    exact ⟨_, _, rfl, by
      simp [decodeFields, decodeMeasure, nat16Bytes, nat32Bytes, le16_nat16Bytes _ ht, le32_nat32Bytes _ hf,
        takeTextFont_append]⟩
  | _ => cases h

/-- A descriptor decodes to its operation and leaves the bytes that follow it. -/
theorem decode_encode_append {i : Instr} {d : List Byte} (hw : i.wf = true) (h : encode i = some d)
    (rest : List Byte) : decode (d ++ rest) = .ok (i, rest) := by
  obtain ⟨k, fs, rfl, hk⟩ := decodeFields_of_encode hw h rest
  rw [List.cons_append, decode_opcode, hk]

/-- Exactly the host operations and queries have a descriptor (30_encoding.md R101). -/
theorem encode_isSome (i : Instr) : (encode i).isSome = i.isHost := by cases i <;> rfl

namespace Machine

theorem step_presented {s : State} {i : Instr} {d rest : List Byte} (hw : i.wf = true) (h : encode i = some d)
    (hp : s.port = d ++ rest) : step s = exec i (s.setPort rest) :=
  step_of_decode (by rw [hp]; exact decode_encode_append hw h rest)

theorem step_idle {s : State} (h : s.port = []) : step s = .next s := by
  simp [step, fetch, h, decode]

/-! ## The frame memory stays canonical -/

theorem Panel.observe_wf {c : Cfg} {p : Panel} (dc : Bool) (e : WireEvent) (h : p.gram.wf = true) :
    (p.observe c dc e).gram.wf = true := by
  cases e with
  | tx b =>
    cases dc with
    | false => simpa [Panel.observe] using h
    | true => exact Panel.data_wf h
  | rst v => cases v <;> exact h
  | sel | desel | dc | bl | delay => exact h

theorem Panel.watch_wf {c : Cfg} {p : Panel} (dc : Bool) (es : List WireEvent) (h : p.gram.wf = true) :
    (p.watch c dc es).gram.wf = true := by
  induction es generalizing p dc with
  | nil => exact h
  | cons e es ih => exact ih _ (Panel.observe_wf dc e h)

/-! ## `DS` stays the record of its rotation -/

/-- The inversion flag is no part of the record. -/
theorem DsOk.setInversion {c : Cfg} {ds : DeviceState} (h : DsOk c ds) (v : Bool) :
    DsOk c { ds with inversion := v } := h

theorem Plan.dsDone_ok {c : Cfg} {ds : DeviceState} (pl : Plan) (hc : c.wf = true) (h : DsOk c ds) :
    DsOk c (pl.dsDone c ds) := by
  cases pl with
  | refuse | answer | program => exact h
  | reset | setinv => exact h.setInversion _
  | construct | setrot => exact dsOk_rotate hc _ _

theorem Plan.Stopped.ds_ok {pl : Plan} {s t : State} (hs : pl.Stopped s t) (h : DsOk s.cfg s.ds) :
    DsOk s.cfg t.ds := by
  unfold Plan.Stopped at hs
  split at hs
  · obtain ⟨-, hd, -⟩ | ⟨-, -, hd, -⟩ := hs
    · rwa [hd]
    · rw [hd]; exact h.setInversion _
  · rwa [hs.1]

/-! ## Chip-select is released after a whole program -/

/-- A whole operation leaves chip-select released if it was (10_state.md R31). -/
theorem planOf_keeps_cs (i : Instr) (c : Cfg) (ds : DeviceState) (f : Fsm) {l : Lines} (h : l.cs = true) :
    (((planOf i c ds f).events c).foldl Lines.drive l).cs = true := by
  obtain ⟨xs, hx, -⟩ := planOf_items i c ds f
  rw [hx, drive_items]
  exact Lines.read_cs h xs

/-- A whole RESET or CONSTRUCT releases chip-select, wherever a faulted run left it. -/
theorem Plan.resets_release_cs {c : Cfg} {pl : Plan} (hc : c.wf = true) (h : pl.resets = true) (l : Lines) :
    ((pl.events c).foldl Lines.drive l).cs = true := by
  have hr : ((resetEvents c).foldl Lines.drive l).cs = true := by
    rw [resetEvents_items, drive_items, Lines.read_reset hc]
  cases pl with
  | reset => exact hr
  | construct v =>
    rw [Plan.events, constructEvents, List.foldl_append, rotProgram_items, drive_items]
    exact Lines.read_cs hr _
  | refuse | answer | program | setrot | setinv => cases h

/-! ## The invariant -/

theorem Inv.setPort {s : State} (h : Inv s) (bs : List Byte) : Inv (s.setPort bs) :=
  ⟨h.cfg, h.ds, h.gram, h.lines, h.fsm⟩

theorem Inv.complete {s : State} (h : Inv s) (st : Status) (r : Result) : Inv (s.complete st r) :=
  ⟨h.cfg, h.ds, h.gram, h.lines, h.fsm⟩

/-- An operation that stopped at a failed event keeps the invariant: of a faulted run it asks nothing about the lines
and `fsm`. -/
theorem Inv.of_emits_faulted {es : List WireEvent} {s t : State} (hi : Inv s) (he : Emits es s t)
    (hd : DsOk s.cfg t.ds) (hf : t.faulted = true) : Inv t := by
  obtain ⟨-, -, hp, hc, -⟩ := he
  exact ⟨hc ▸ hi.cfg, hc ▸ hd, hp ▸ Panel.watch_wf _ _ hi.gram, by simp [hf], by simp [hf]⟩

/-- An operation performed whole keeps the invariant: one that resets ends a faulted run with chip-select released and
`fsm` in `Ready`, any other leaves the mark and `fsm` as they were. -/
theorem Inv.of_whole {i : Instr} {s t : State} (hi : Inv s)
    (he : Emits ((planOf i s.cfg s.ds s.fsm).events s.cfg) s t)
    (hd : t.ds = (planOf i s.cfg s.ds s.fsm).dsDone s.cfg s.ds)
    (hf : t.fsm = if (planOf i s.cfg s.ds s.fsm).resets then .ready else s.fsm)
    (hm : t.faulted = if (planOf i s.cfg s.ds s.fsm).resets then false else s.faulted) : Inv t := by
  obtain ⟨-, hl, hp, hc, -⟩ := he
  have hds : DsOk t.cfg t.ds := by rw [hc, hd]; exact Plan.dsDone_ok _ hi.cfg hi.ds
  have hgram : t.panel.gram.wf = true := hp ▸ Panel.watch_wf _ _ hi.gram
  cases hr : (planOf i s.cfg s.ds s.fsm).resets with
  | true =>
    rw [hr] at hf
    exact ⟨hc ▸ hi.cfg, hds, hgram, fun _ => hl ▸ Plan.resets_release_cs hi.cfg hr _, fun _ => .inr hf⟩
  | false =>
    simp only [hr, Bool.false_eq_true, if_false] at hf hm
    exact ⟨hc ▸ hi.cfg, hds, hgram, fun h => hl ▸ planOf_keeps_cs _ _ _ _ (hi.lines (hm ▸ h)),
      fun h => hf ▸ hi.fsm (hm ▸ h)⟩

theorem exec_keeps_inv {i : Instr} {s t : State} (hi : Inv s) (h : exec i s = .next t) : Inv t := by
  rw [exec_eq] at h
  obtain ⟨st, r, -, rfl⟩ | ⟨-, -, hs, hd, hf, hm, -⟩ | ⟨-, he, -, hm, -, hs⟩ := Plan.run_next h
  · exact hi.complete st r
  · exact hi.of_whole hs.1 hd hf hm
  · exact hi.of_emits_faulted he (hs.ds_ok hi.ds) hm

/-! ## The parties -/

theorem panelReceives_eq_some {x y : Execution} : panelReceives x = some y ↔ ∃ e es, x.unread = e :: es ∧
    ⟨x.state.setPanel (x.state.panel.observe x.state.cfg x.lines.dc e), es, x.lines.drive e⟩ = y := by
  unfold panelReceives
  split <;> rename_i h <;> simp [h]

/-- The host issues nothing ill-formed, nothing without a descriptor, and nothing while a descriptor is presented. -/
theorem hostIssues_eq_none {i : Instr} {x : Execution} (h : i.wf = false ∨ i.isHost = false ∨ x.state.port ≠ []) :
    hostIssues i x = none := by
  refine Option.eq_none_iff_forall_not_mem.mpr fun y hy => ?_
  obtain ⟨hp, hw, d, hd, -⟩ := hostIssues_eq_some.mp hy
  have hh : i.isHost = true := by rw [← encode_isSome, hd]; rfl
  obtain h | h | h := h
  · simp [hw] at h
  · simp [hh] at h
  · exact h hp

/-- The engine's step on a descriptor just presented is its operation in the state in which the host waits. -/
theorem step_present {s : State} {i : Instr} {d : List Byte} (hw : i.wf = true) (h : encode i = some d)
    (hp : s.port = []) : step (s.present d) = exec i { s with completion := none } := by
  rw [step_presented (rest := []) hw h (by simp), State.present, State.setPort, ← hp]

/-- The engine's move on an operation takes its descriptor and ends with a status for the host. -/
theorem engineRuns_ends {i : Instr} {x y : Execution} {s : State} (hs : step x.state = exec i s) (hp : s.port = [])
    (h : engineRuns x = some y) : y.state.port = [] ∧ ∃ st, Ended st y.state := by
  obtain ⟨-, t, ht, rfl⟩ := engineRuns_eq_some.mp h
  rw [hs] at ht
  obtain ⟨es, -, -, -, -, hport⟩ := exec_emits ht
  obtain ⟨st, hst⟩ := exec_ended ht
  exact ⟨hport.trans hp, st, hst⟩

/-- The host's move, the engine's on what was issued, and the status the host then has (00_scope.md R9). -/
theorem host_issues_and_engine_ends {i : Instr} {x : Execution} (hw : i.wf = true) (hh : i.isHost = true)
    (hp : x.state.port = []) : ∃ y, (Move.host i).run x = some y ∧
      y.state.completion = none ∧ step y.state = exec i { x.state with completion := none } ∧
      ∀ z, Move.engine.run y = some z → z.state.port = [] ∧ ∃ st, Ended st z.state := by
  obtain ⟨d, hd⟩ := Option.isSome_iff_exists.mp ((encode_isSome i).trans hh)
  have hs := step_present hw hd hp
  exact ⟨_, hostIssues_eq_some.mpr ⟨hp, hw, d, hd, rfl⟩, rfl, hs, fun z hz =>
    engineRuns_ends (s := { x.state with completion := none }) hs hp hz⟩

/-- What a move of the host, the transport or the panel leaves alone: each changes its own part only. -/
theorem run_frame {m : Move} {x y : Execution} (h : m.run x = some y) (hm : m.party ≠ .engine) :
    y.state.ds = x.state.ds ∧ y.state.fsm = x.state.fsm ∧ y.state.lines = x.state.lines ∧
    y.state.trace = x.state.trace ∧ y.state.faulted = x.state.faulted ∧ y.state.cfg = x.state.cfg ∧
    (m.party ≠ .panel → y.state.panel = x.state.panel ∧ y.unread = x.unread) ∧
    (m.party ≠ .transport → y.state.answers = x.state.answers) ∧
    (m.party ≠ .host → y.state.port = x.state.port ∧ y.state.completion = x.state.completion) := by
  cases m with
  | engine => exact absurd rfl hm
  | host i =>
    obtain ⟨-, -, d, -, rfl⟩ := hostIssues_eq_some.mp h
    exact ⟨rfl, rfl, rfl, rfl, rfl, rfl, fun _ => ⟨rfl, rfl⟩, fun _ => rfl, fun h => absurd rfl h⟩
  | transport a =>
    obtain rfl := Option.some.inj h
    exact ⟨rfl, rfl, rfl, rfl, rfl, rfl, fun _ => ⟨rfl, rfl⟩, fun h => absurd rfl h, fun _ => ⟨rfl, rfl⟩⟩
  | panel =>
    obtain ⟨e, es, -, rfl⟩ := panelReceives_eq_some.mp h
    exact ⟨rfl, rfl, rfl, rfl, rfl, rfl, fun h => absurd rfl h, fun _ => rfl, fun _ => ⟨rfl, rfl⟩⟩

/-- The engine's move leaves the panel alone, and its new events are those to be received. -/
theorem engineRuns_frame {x y : Execution} (h : engineRuns x = some y) :
    x.unread = [] ∧ y.state.panel = x.state.panel ∧ y.state.trace = x.state.trace ++ y.unread := by
  obtain ⟨hu, t, ht, rfl⟩ := engineRuns_eq_some.mp h
  obtain ⟨es, htr, -⟩ := step_emits ht
  exact ⟨hu, rfl, by simp [htr]⟩

/-- A failed event uses up its answer and changes nothing else; a performed one is recorded. -/
theorem emit_answered {e : WireEvent} {a : Answer} {as : List Answer} {s : State} (h : s.answers = a :: as) :
    (a = .failed → emit e s = .failed (s.setAnswers as)) ∧
    (a = .done → ∃ u, emit e s = .done u ∧ u.trace = s.trace ++ [e] ∧ u.lines = s.lines.drive e ∧ u.answers = as) := by
  rw [emit_cons e h]
  refine ⟨?_, ?_⟩ <;> rintro rfl
  · rfl
  · exact ⟨_, rfl, rfl, rfl, rfl⟩

end Machine

end Sys2Proof

open Sys2Proof Sys2Proof.Machine

/-- Settles O6: a descriptor decodes to its operation whatever bytes follow, and the fetch takes it off the port. -/
theorem stepRunsThePresentedOperation : Obligations.StepRunsThePresentedOperation :=
  ⟨fun _ _ _ _ hw h hp => step_presented hw h hp, fun _ h => step_idle h⟩

/-- Settles O9: a step idles, or runs one operation, whose plan answers at once, is performed whole, or stops with the
run marked; each of the three keeps the invariant. -/
theorem stepKeepsInvariant : Obligations.StepKeepsInvariant := by
  intro s t hi h
  obtain rfl | ⟨i, rest, -, hx⟩ := step_next h
  · exact hi
  · exact exec_keeps_inv (hi.setPort rest) hx

/-- Settles O60: the moves party by party. -/
theorem eachPartyDoesItsPart : Obligations.EachPartyDoesItsPart :=
  ⟨fun _ _ => ⟨hostIssues_eq_none, host_issues_and_engine_ends⟩,
   fun _ _ _ => run_frame,
   fun _ _ => engineRuns_frame,
   fun _ => panelReceives_nil,
   fun _ _ => step_eq_moves,
   fun _ _ _ _ => emit_answered,
   fun _ _ => ⟨_, rfl, rfl⟩⟩

end

