-- ==== Sys2Proof/Proofs/State.lean ====
section
/-! The family of 10_state.md: power-on (R38), who writes each register (R22 to R28), and that the trace, the lines and
the observer follow the wire program (R29, R31, R302). -/

namespace Sys2Proof

theorem Cfg.t1_wf : Cfg.t1.wf = true := by decide

/-- The full panel with the rotation-0 offsets has 16-bit bounds (00_scope.md R7). -/
theorem Cfg.wf_fullPanel {c : Cfg} (h : c.wf = true) :
    c.rot0.colstart.toNat + c.w0.toNat - 1 ≤ 65535 ∧ c.rot0.rowstart.toNat + c.h0.toNat - 1 ≤ 65535 := by
  obtain ⟨-, hx, hy⟩ : _ ∧ c.rot0.colstart.toNat + max c.w0.toNat c.h0.toNat - 1 ≤ 65535 ∧
    c.rot0.rowstart.toNat + max c.w0.toNat c.h0.toNat - 1 ≤ 65535 := Cfg.wf_rot h 0
  omega

namespace Machine

/-! ## Power-on -/

theorem inv_powerOn {c : Cfg} (h : c.wf = true) : Inv (State.powerOn c) :=
  ⟨h, ⟨rfl, rfl, rfl, rfl⟩, rfl, fun _ => rfl, fun _ => .inl rfl⟩

theorem cleanRun_powerOn (c : Cfg) : CleanRun (State.powerOn c) := ⟨nofun, rfl⟩

/-! ## The trace and the wire program -/

/-- Whatever a plan does, it performs the part of its wire program before the first failed event, and nothing else
(10_state.md R29). -/
theorem Plan.run_emits {pl : Plan} {s t : State} (h : pl.run s = .next t) :
    Emits ((pl.events s.cfg).take (pl.count s)) s t := by
  obtain ⟨st, r, rfl, rfl⟩ | ⟨-, hk, hs, -⟩ | ⟨-, he, -⟩ := Plan.run_next h
  · rw [Plan.events, List.take_nil]
    exact emits_nil ⟨rfl, rfl, rfl, rfl, rfl⟩
  · rw [hk, List.take_length]
    exact hs.1
  · exact he

/-! ## Who writes the registers -/

/-- A plan resets exactly if its operation does, unless the operation ends before its first event. -/
theorem Plan.fits.resets_eq {pl : Plan} {i : Instr} {f : Fsm} (h : pl.fits i f) (hn : ∀ st r, pl ≠ .answer st r) :
    pl.resets = resetsEngine i := by
  cases pl with
  | answer st r => exact absurd rfl (hn st r)
  | refuse | program => exact h.symm
  | reset => obtain rfl := h; rfl
  | construct => obtain ⟨r, rfl⟩ := h; rfl
  | setrot | setinv => obtain ⟨⟨r, rfl⟩, -⟩ := h; rfl

theorem Plan.fits.resets_eq_false {pl : Plan} {i : Instr} {f : Fsm} (h : pl.fits i f) (hi : resetsEngine i = false) :
    pl.resets = false := by
  cases pl with
  | answer => rfl
  | _ => exact (h.resets_eq nofun).trans hi

theorem Plan.fits.ne_setrot {pl : Plan} {i : Instr} {f : Fsm} (h : pl.fits i f) (hi : ∀ r, i ≠ .setrot r)
    (v : BitVec 2) : pl ≠ .setrot v := by
  rintro rfl
  obtain ⟨⟨r, hr⟩, -⟩ := h
  exact hi r hr

theorem Plan.fits.ne_setinv {pl : Plan} {i : Instr} {f : Fsm} (h : pl.fits i f) (hi : ∀ r, i ≠ .setinv r)
    (v : Bool) : pl ≠ .setinv v := by
  rintro rfl
  obtain ⟨⟨r, hr⟩, -⟩ := h
  exact hi r hr

theorem Plan.fits.ne_construct {pl : Plan} {i : Instr} {f : Fsm} (h : pl.fits i f) (hi : ∀ r, i ≠ .construct r)
    (v : BitVec 2) : pl ≠ .construct v := by
  rintro rfl
  obtain ⟨r, hr⟩ := h
  exact hi r hr

theorem resetsEngine_eq_true {i : Instr} : resetsEngine i = true ↔ i = .reset ∨ ∃ r, i = .construct r := by
  cases i <;> simp [resetsEngine]

theorem resetsEngine_eq_false {i : Instr} (h : i ≠ .reset) (hc : ∀ r, i ≠ .construct r) : resetsEngine i = false := by
  rw [← Bool.not_eq_true, resetsEngine_eq_true]
  rintro (rfl | ⟨r, rfl⟩)
  · exact h rfl
  · exact hc r rfl

theorem Plan.stopped_of_not_resets {pl : Plan} {s t : State} (hr : pl.resets = false) :
    pl.Stopped s t ↔ t.ds = s.ds ∧ t.fsm = s.fsm := by
  simp [Plan.Stopped, hr]

/-- A plan that stopped has written at most the inversion flag of `DS`: SETROT and SETINV write after their last event. -/
theorem Plan.Stopped.keeps_geometry {pl : Plan} {s t : State} (hs : pl.Stopped s t) :
    t.ds = { s.ds with inversion := t.ds.inversion } := by
  unfold Plan.Stopped at hs
  split at hs
  · obtain ⟨-, hd, -⟩ | ⟨-, -, hd, -⟩ := hs <;> rw [hd]
  · rw [hs.1]

/-- A reset that stopped is past `Uninitialized`. -/
theorem Plan.Stopped.fsm_ne_uninitialized {pl : Plan} {s t : State} (hs : pl.Stopped s t) (hr : pl.resets = true) :
    t.fsm ≠ .uninitialized := by
  rw [Plan.Stopped, if_pos hr] at hs
  obtain ⟨-, -, hf⟩ | ⟨-, -, -, hf⟩ := hs
  · rw [hf]
    split <;> nofun
  · rw [hf]
    nofun

/-- A plan that is neither SETROT's nor CONSTRUCT's writes at most the inversion flag of `DS`. -/
theorem Plan.run_keeps_geometry {pl : Plan} {s t : State} (h : pl.run s = .next t) (hr : ∀ v, pl ≠ .setrot v)
    (hc : ∀ v, pl ≠ .construct v) : t.ds = { s.ds with inversion := t.ds.inversion } := by
  obtain ⟨st, r, -, rfl⟩ | ⟨-, -, -, hd, -⟩ | ⟨-, -, -, -, -, hs⟩ := Plan.run_next h
  · rfl
  · rw [hd]
    cases pl with
    | refuse | answer | program | reset | setinv => rfl
    | construct v => exact absurd rfl (hc v)
    | setrot v => exact absurd rfl (hr v)
  · exact hs.keeps_geometry

/-- A plan that neither resets nor is SETINV's keeps the inversion flag. -/
theorem Plan.run_keeps_inversion {pl : Plan} {s t : State} (h : pl.run s = .next t) (hr : pl.resets = false)
    (hv : ∀ v, pl ≠ .setinv v) : t.ds.inversion = s.ds.inversion := by
  obtain ⟨st, r, -, rfl⟩ | ⟨-, -, -, hd, -⟩ | ⟨-, -, -, -, -, hs⟩ := Plan.run_next h
  · rfl
  · rw [hd]
    cases pl with
    | refuse | answer | program | setrot => rfl
    | setinv v => exact absurd rfl (hv v)
    | reset | construct => cases hr
  · rw [((Plan.stopped_of_not_resets hr).mp hs).1]

theorem Plan.run_keeps_fsm {pl : Plan} {s t : State} (h : pl.run s = .next t) (hr : pl.resets = false) :
    t.fsm = s.fsm := by
  obtain ⟨st, r, -, rfl⟩ | ⟨-, -, -, -, hf, -⟩ | ⟨-, -, -, -, -, hs⟩ := Plan.run_next h
  · rfl
  · simpa [hr] using hf
  · exact ((Plan.stopped_of_not_resets hr).mp hs).2

/-- No plan goes back to `Uninitialized`: a reset leaves one of the other three protocol states. -/
theorem Plan.run_uninitialized {pl : Plan} {s t : State} (h : pl.run s = .next t) (ht : t.fsm = .uninitialized) :
    s.fsm = .uninitialized := by
  cases hr : pl.resets with
  | false => rw [← Plan.run_keeps_fsm h hr, ht]
  | true =>
    exfalso
    obtain ⟨st, r, rfl, -⟩ | ⟨-, -, -, -, hf, -⟩ | ⟨-, -, -, -, -, hs⟩ := Plan.run_next h
    · cases hr
    · simp [hr, ht] at hf
    · exact hs.fsm_ne_uninitialized hr ht

/-- A RESET or CONSTRUCT that ends `OK` ends in `Ready` (41_protocol.md R165). -/
theorem exec_reset_ok_ready {i : Instr} {s t : State} (hi : resetsEngine i = true) (h : exec i s = .next t)
    (ho : Ended .ok t) : t.fsm = .ready := by
  have hfit := planOf_fits i s.cfg s.ds s.fsm
  rw [exec_eq] at h
  obtain ⟨st, r, hp, rfl⟩ | ⟨hn, -, -, -, hf, -⟩ | ⟨-, -, -, -, hc, -⟩ := Plan.run_next h
  · rw [hp] at hfit
    obtain ⟨-, -, hok⟩ := hfit
    rw [hok (complete_ended.mp ho).symm] at hi
    cases hi
  · rw [hf, hfit.resets_eq hn, hi, if_pos rfl]
  · cases transportError_status hc ho

/-! ## RESET without failure -/

/-- A RESET that ends `OK` has performed its whole sequence. -/
theorem exec_reset_ok_emits {s t : State} (h : exec .reset s = .next t) (ho : Ended .ok t) :
    Emits (itemEvents (resetItems s.cfg)) s t := by
  rw [exec_eq] at h
  obtain ⟨st, r, hp, -⟩ | ⟨-, -, hs, -⟩ | ⟨-, -, -, -, hc, -⟩ := Plan.run_next h
  · cases hp
  · exact resetEvents_items s.cfg ▸ hs.1
  · cases transportError_status hc ho

end Machine

end Sys2Proof

open Sys2Proof Sys2Proof.Machine

/-- Settles O11: the program is the plan's, which the operation, the straps, `DS` and `fsm` fix. -/
theorem wireProgramIsFixedAtTheStart : Obligations.WireProgramIsFixedAtTheStart := by
  intro i c ds f
  refine ⟨(planOf i c ds f).events c, ?_⟩
  rintro s t rfl rfl rfl h
  rw [exec_eq] at h
  exact (Plan.run_emits h).1

/-- Settles O12: a plan fits its operation, and each kind of plan writes its own registers only. -/
theorem onlyNamedOperationsWriteRegisters : Obligations.OnlyNamedOperationsWriteRegisters := by
  intro i s t h
  have hfit := planOf_fits i s.cfg s.ds s.fsm
  have hrun := exec_eq i s ▸ h
  refine ⟨fun hr hc => ?_, fun hv hc hi => ?_, fun hi hc => ?_, Plan.run_uninitialized hrun, fun hi => ?_⟩
  · rw [Plan.run_keeps_geometry hrun (hfit.ne_setrot hr) (hfit.ne_construct hc)]
    exact ⟨rfl, rfl, rfl, rfl, rfl⟩
  · exact Plan.run_keeps_inversion hrun (hfit.resets_eq_false (resetsEngine_eq_false hi hc)) (hfit.ne_setinv hv)
  · exact Plan.run_keeps_fsm hrun (hfit.resets_eq_false (resetsEngine_eq_false hi hc))
  · exact exec_reset_ok_ready (resetsEngine_eq_true.mpr hi) h

/-- Settles O17: it is what any plan emits. -/
theorem linesAndObserverFollowTheTrace : Obligations.LinesAndObserverFollowTheTrace := fun _ _ _ => exec_emits

/-- Settles O24: a RESET that ends `OK` has sent its whole sequence, of which the last six entries of a legal table decide
the lines and the observer, and which stores nothing. -/
theorem resetLeavesLinesAndPanel : Obligations.ResetLeavesLinesAndPanel := by
  intro s t hc h ho
  obtain ⟨-, hl, hp, -, -⟩ := exec_reset_ok_emits h ho
  rw [drive_items] at hl
  rw [watch_items] at hp
  obtain ⟨hx, hy⟩ := Cfg.wf_fullPanel hc
  obtain ⟨ha, hcmd, hinv, hdisp, hxs, hxe, hys, hye⟩ := Panel.readAll_reset (p := s.panel) hc hx hy
  refine ⟨hl.trans (Lines.read_reset hc _), ?_⟩
  unfold SameFrame
  rw [hp, Panel.readAll_gram (harmless_reset hc _)]
  exact ⟨ha, hcmd, hinv, hdisp, hxs, hxe, hys, hye, fun _ => rfl⟩

/-- Settles O7: the values are those of the definition of power-on. -/
theorem powerOnValues : Obligations.PowerOnValues :=
  ⟨fun _ => ⟨rfl, rfl, rfl, rfl, rfl, rfl, rfl, rfl⟩, rfl⟩

/-- Settles O8: power-on has the record of rotation 0 in `DS`, an empty frame memory, `CS` released and an empty trace. -/
theorem powerOnMeetsTheInvariants : Obligations.PowerOnMeetsTheInvariants :=
  ⟨fun c h => ⟨inv_powerOn h, cleanRun_powerOn c⟩, inv_powerOn Cfg.t1_wf, cleanRun_powerOn _⟩

end

