-- ==== Sys2Proof/Proofs/Memory.lean ====
section
/-! The family of 20_memory.md: where the operations store in the frame memory (R82, R83). -/

namespace Sys2Proof.Machine

/-! ## The plan of a drawing operation -/

/-- The plan of an operation that draws a rectangle writes that rectangle; of one that draws none it raises an error. -/
def Plan.Draws (c : Cfg) (ds : DeviceState) (pl : Plan) : Option Rect → Prop
  | none => ∃ e, pl = .raise e
  | some r => ∃ buf, pl = .program (writeProgram c ds r.x r.y r.w r.h buf)

theorem fillPlan_draws (c : Cfg) (ds : DeviceState) (q : Rect) (col : Colour) :
    (fillPlan c ds q col).Draws c ds (edgePolicy ds.width.toNat ds.height.toNat q).toOption := by
  unfold fillPlan
  cases edgePolicy ds.width.toNat ds.height.toNat q with
  | error e => exact ⟨e, rfl⟩
  | ok r => exact ⟨_, rfl⟩

theorem imagePlan_draws (s : State) (x y w h : Word) (img : List Byte) :
    (imagePlan s.cfg s.ds (coord x) (coord y) (coord w) (coord h) img).Draws s.cfg s.ds
      (drawnRect s (.drawimage x y w h img)) := by
  simp only [imagePlan, drawnRect, State.screenW, State.screenH]
  cases strictCheck s.ds.width.toNat s.ds.height.toNat ⟨coord x, coord y, coord w, coord h⟩ with
  | error e =>
    rw [Except.toOption, Option.map_none, ite_self]
    exact ⟨e, rfl⟩
  | ok u =>
    by_cases hl : (img.length : Int) = 2 * coord w * coord h
    · rw [if_pos hl]
      exact ⟨img, if_neg (not_not_intro hl)⟩
    · rw [if_neg hl]
      exact ⟨_, if_pos hl⟩

theorem textPlan_draws (s : State) (fl : Byte) (x y w h : Word) (al : Byte) (fg bg : Colour) (txt : List Word)
    (font : List Byte) :
    (textPlan s.cfg s.ds (textOperands fl x y w h al fg bg txt font)).Draws s.cfg s.ds
      (drawnRect s (.drawtext fl x y w h al fg bg txt font)) := by
  simp only [textPlan, drawnRect]
  cases textOperands fl x y w h al fg bg txt font with
  | error e => exact ⟨e, rfl⟩
  | ok o =>
    dsimp only
    cases o.layout s.cfg s.ds with
    | error e => exact ⟨e, rfl⟩
    | ok ta => exact ⟨ta.buf, rfl⟩

/-- A host operation that may store writes its rectangle or raises an error, behind the `Ready` requirement
(43_shapes.md R210, 44_text.md R270). -/
theorem planOf_draws {i : Instr} (s : State) (hh : i.isHost = true) (hm : mayStore i = true) :
    ∃ pl, planOf i s.cfg s.ds s.fsm = .whenReady s.fsm pl ∧ pl.Draws s.cfg s.ds (drawnRect s i) := by
  cases i with
  | clear | fillscreen | fillrect | drawpixel | drawline => exact ⟨_, rfl, fillPlan_draws _ _ _ _⟩
  | drawimage => exact ⟨_, rfl, imagePlan_draws _ _ _ _ _ _⟩
  | drawtext => exact ⟨_, rfl, textPlan_draws _ _ _ _ _ _ _ _ _ _ _⟩
  | senddata | stream | writewin | cmdRamwr => cases hh
  | _ => cases hm

theorem Plan.whenReady_run_next {s t : State} {pl : Plan} (h : (Plan.whenReady s.fsm pl).run s = .next t) :
    pl.run s = .next t := by
  unfold Plan.whenReady at h
  split at h
  · exact h
  · cases h

/-! ## The rectangle drawn -/

theorem drawnRect_of_not_mayStore {i : Instr} (s : State) (h : mayStore i = false) : drawnRect s i = none := by
  cases i with
  | clear | fillscreen | fillrect | drawpixel | drawline | drawimage | drawtext => cases h
  | _ => rfl

theorem eq_ok_of_toOption {α : Type} {x : Except Raise α} {a : α} (h : x.toOption = some a) : x = .ok a := by
  cases x with
  | error => cases h
  | ok => cases h; rfl

/-- The area a layout sends lies on the screen (44_text.md R269). -/
theorem TextOp.layout_onScreen {s : State} {o : TextOp} {ta : TextArea} (h : o.layout s.cfg s.ds = .ok ta) :
    OnScreen s ⟨o.x, o.y, ta.w, ta.h⟩ := by
  obtain ⟨-, hw, hh, hx, hy, hr, hb⟩ := TextOp.layout_spec h
  exact ⟨hx, hy, by simpa using hw, by simpa using hh, hr, hb⟩

/-- The rectangle a drawing operation writes lies on the screen (43_shapes.md R213). -/
theorem drawnRect_onScreen {i : Instr} {s : State} {r : Rect} (hi : Inv s) (h : drawnRect s i = some r) :
    OnScreen s r := by
  cases i with
  | clear | fillscreen | fillrect | drawpixel | drawline => exact edgePolicy_onScreen hi (eq_ok_of_toOption h)
  | drawimage =>
    simp only [drawnRect] at h
    split at h
    · obtain ⟨_, hs, rfl⟩ := Option.map_eq_some_iff.mp h
      exact strictCheck_onScreen (eq_ok_of_toOption hs)
    · cases h
  | drawtext =>
    simp only [drawnRect] at h
    split at h
    · cases h
    · obtain ⟨ta, hl, rfl⟩ := Option.map_eq_some_iff.mp h
      exact TextOp.layout_onScreen (eq_ok_of_toOption hl)
  | _ => cases h

/-! ## What an operation stores -/

/-- An operation that sends no pixel stream stores nothing: what was performed of its items is harmless. -/
theorem exec_sameFrame {i : Instr} {s t : State} (hc : s.cfg.wf = true) (hm : mayStore i = false)
    (h : exec i s = .next t) : SameFrame s t := by
  obtain ⟨xs, ys, hg, ht, hp⟩ := exec_panel h
  have hgram : t.panel.gram = s.panel.gram := by
    rw [hp, Panel.readAll_gram (ht.harmless (hg.harmless hc hm _))]
  intro a
  rw [hgram]

/-- What was performed of a write of a rectangle on the screen stores only there. -/
theorem Plan.write_sameOutsideRect {s t : State} {r : Rect} {buf : List Byte} (hi : Inv s) (ho : OnScreen s r)
    (h : (Plan.program (writeProgram s.cfg s.ds r.x r.y r.w r.h buf)).run s = .next t) : SameOutsideRect r s t := by
  obtain ⟨u, hu, hp⟩ := runProgram_performs (writeProgram s.cfg s.ds r.x r.y r.w r.h buf) s
  obtain rfl : u = t := by simpa [Plan.run, hu] using h
  obtain ⟨ys, ht, hpanel⟩ := hp.panel (writeProgram_items _ _ _ _ _ _ _)
  exact write_outside hi ho ht hpanel

theorem Plan.raise_sameFrame {s t : State} {e : Raise} (h : (Plan.raise e).run s = .next t) : SameFrame s t := by
  cases h
  exact fun _ => rfl

end Sys2Proof.Machine

open Sys2Proof Sys2Proof.Machine

/-- Settles O47: a host operation that may store writes its rectangle, of which any performed part stores only there, or
raises an error; any other sends nothing that stores. -/
theorem drawingStaysInItsRectangle : Obligations.DrawingStaysInItsRectangle := by
  intro i s t hi hh h
  cases hm : mayStore i with
  | false =>
    have hn := drawnRect_of_not_mayStore s hm
    exact ⟨fun r hr => absurd (hn.symm.trans hr) nofun, fun _ => exec_sameFrame hi.cfg hm h⟩
  | true =>
    obtain ⟨pl, hpl, hd⟩ := planOf_draws s hh hm
    rw [exec_eq, hpl] at h
    have hrun := Plan.whenReady_run_next h
    refine ⟨fun r hr => ?_, fun hn => ?_⟩
    · rw [hr] at hd
      obtain ⟨buf, rfl⟩ := hd
      have ho := drawnRect_onScreen hi hr
      exact ⟨ho, Plan.write_sameOutsideRect hi ho hrun⟩
    · rw [hn] at hd
      obtain ⟨e, rfl⟩ := hd
      exact Plan.raise_sameFrame hrun

end

section
/-! The family of 30_encoding.md: descriptors and wire commands are read back as what was written (R101 to R104, R107),
illegal operand values raise (R107 b), and what DRAWTEXT makes of its operands (R270). -/

/-! ## Host descriptors: decoding and encoding undo each other -/

namespace Sys2Proof

theorem takeTextFont_eq_some {tlen flen : Nat} {bs font rest : List Byte} {txt : List Word}
    (h : takeTextFont tlen flen bs = some (txt, font, rest)) :
    bs = codesBytes txt ++ (font ++ rest) ∧ txt.length = tlen ∧ font.length = flen := by
  unfold takeTextFont at h
  split at h
  next ht =>
    split at h
    next hf =>
      cases h
      obtain ⟨rfl, hl⟩ := takeCodes_eq_some ht
      obtain ⟨rfl, hl'⟩ := takeBytes_eq_some hf
      exact ⟨rfl, hl, hl'⟩
    next => cases h
  next => cases h

theorem le32_lt (a b c d : Byte) : le32 a b c d < 2 ^ 32 := by
  have := a.isLt
  have := b.isLt
  have := c.isLt
  have := d.isLt
  unfold le32
  omega

/-- What the length fields of `OP_TEXT` and `OP_MEAS` let a text and a font be (30_encoding.md R102). -/
theorem takeTextFont_fields {t0 t1 n0 n1 n2 n3 : Byte} {bs font rest : List Byte} {txt : List Word}
    (h : takeTextFont (le16 t0 t1).toNat (le32 n0 n1 n2 n3) bs = some (txt, font, rest)) :
    bs = codesBytes txt ++ (font ++ rest) ∧ (txt.length < 2 ^ 16 ∧ font.length < 2 ^ 32) ∧
    nat16Bytes txt.length = [t0, t1] ∧ nat32Bytes font.length = [n0, n1, n2, n3] := by
  obtain ⟨hb, ht, hf⟩ := takeTextFont_eq_some h
  rw [ht, hf]
  exact ⟨hb, ⟨(le16 t0 t1).isLt, le32_lt n0 n1 n2 n3⟩, nat16Bytes_le16 t0 t1, nat32Bytes_le32 n0 n1 n2 n3⟩

/-- A descriptor has the length R103 gives its operation. -/
theorem encode_length {i : Instr} {d : List Byte} (he : encode i = some d) : d.length = descriptorLength i := by
  cases i with
  | drawimage x y w h img => exact ((Laws.DescriptorShape.drawimage x y w h img).2 d he).1
  | drawtext fl x y w h al fg bg txt font =>
    exact ((Laws.DescriptorShape.drawtext fl x y w h al fg bg txt font).2 d he).1
  | measure txt font => exact ((Laws.DescriptorShape.measure txt font).2 d he).1
  | _ => cases he <;> rfl

/-- Only host operations and queries have a descriptor. -/
theorem isHost_of_encode {i : Instr} {d : List Byte} (he : encode i = some d) : i.isHost = true := by
  rw [← encode_isSome, he]
  rfl

/-- The fields read by `decodeImage` are those of a well-formed DRAWIMAGE. -/
theorem decodeImage_eq_some {fs rest : List Byte} {i : Instr} (h : decodeImage fs = some (i, rest)) :
    i.wf = true ∧ ∃ d, encode i = some (HostOp.opcode .drawimage :: d) ∧ fs = d ++ rest := by
  unfold decodeImage at h
  split at h
  next n0 n1 n2 n3 bs =>
    split at h
    next img r hi =>
      cases h
      obtain ⟨rfl, hl⟩ := takeBytes_eq_some hi
      refine ⟨decide_eq_true (hl ▸ le32_lt n0 n1 n2 n3), _, rfl, ?_⟩
      simp [wordBytes, hl, nat32Bytes_le32]
    next => cases h
  next => cases h

theorem decodeText_eq_some {fs rest : List Byte} {i : Instr} (h : decodeText fs = some (i, rest)) :
    i.wf = true ∧ ∃ d, encode i = some (HostOp.opcode .drawtext :: d) ∧ fs = d ++ rest := by
  unfold decodeText at h
  split at h
  next =>
    split at h
    next txt font r hi =>
      cases h
      obtain ⟨rfl, hw, ht, hf⟩ := takeTextFont_fields hi
      refine ⟨by simpa [Instr.wf] using hw, _, rfl, ?_⟩
      simp [wordBytes, colourBytes, ht, hf]
    next => cases h
  next => cases h

theorem decodeMeasure_eq_some {fs rest : List Byte} {i : Instr} (h : decodeMeasure fs = some (i, rest)) :
    i.wf = true ∧ ∃ d, encode i = some (HostOp.opcode .measure :: d) ∧ fs = d ++ rest := by
  unfold decodeMeasure at h
  split at h
  next =>
    split at h
    next txt font r hi =>
      cases h
      obtain ⟨rfl, hw, ht, hf⟩ := takeTextFont_fields hi
      refine ⟨by simpa [Instr.wf] using hw, _, rfl, ?_⟩
      simp [ht, hf]
    next => cases h
  next => cases h

/-- The fields that decode are those of a well-formed operation's descriptor, followed by what is left. -/
theorem decodeFields_eq_some {k : HostOp} {fs rest : List Byte} {i : Instr} (h : decodeFields k fs = some (i, rest)) :
    i.wf = true ∧ ∃ d, encode i = some (HostOp.opcode k :: d) ∧ fs = d ++ rest := by
  unfold decodeFields at h
  split at h
  case h_15 => exact decodeImage_eq_some h
  case h_16 => exact decodeText_eq_some h
  case h_17 => exact decodeMeasure_eq_some h
  all_goals cases h
  all_goals exact ⟨rfl, _, rfl, by simp [wordBytes, colourBytes]⟩

/-- Bytes that decode are the descriptor of a well-formed operation, followed by what is left. -/
theorem decode_eq_ok_iff {bs rest : List Byte} {i : Instr} : decode bs = .ok (i, rest) ↔
    i.wf = true ∧ i.isHost = true ∧ ∃ d, encode i = some d ∧ bs = d ++ rest := by
  constructor
  · intro h
    obtain ⟨k, fs, rfl, hf⟩ := decode_eq_ok h
    obtain ⟨hw, d, he, rfl⟩ := decodeFields_eq_some hf
    exact ⟨hw, isHost_of_encode he, _, he, rfl⟩
  · rintro ⟨hw, -, d, he, rfl⟩
    exact decode_encode_append hw he rest

/-- The reserved opcode bytes (30_encoding.md R101). -/
theorem hostOpOf_eq_none_iff (b : Byte) :
    hostOpOf b = none ↔ (0x07 ≤ b.toNat ∧ b.toNat ≤ 0x0F) ∨ 0x1A ≤ b.toNat := by
  revert b
  decide

/-- A descriptor cut short anywhere after its opcode byte does not decode: what it decoded to would have a descriptor of
its own at the front, and the whole would then decode to that and leave the rest. -/
theorem decode_cut {i : Instr} {d p : List Byte} (hw : i.wf = true) (he : encode i = some d) (hp : p <+: d)
    (hn : p ≠ []) (hd : p ≠ d) : decode p = .error .shortDescriptor := by
  obtain ⟨q, rfl⟩ := hp
  obtain ⟨k, fs, hk, -⟩ := decodeFields_of_encode hw he []
  obtain ⟨b, ps, rfl⟩ := List.exists_cons_of_ne_nil hn
  obtain rfl : b = k.opcode := (List.cons.inj hk).1
  have hdec := decode_opcode k ps
  cases hf : decodeFields k ps with
  | none => rw [hdec, hf]
  | some r =>
    exfalso
    obtain ⟨j, rest⟩ := r
    rw [hf] at hdec
    obtain ⟨hjw, -, dj, hj, hps⟩ := decode_eq_ok_iff.mp hdec
    have hi := decode_encode_append hw he []
    rw [hps, List.append_nil, List.append_assoc, decode_encode_append hjw hj] at hi
    obtain ⟨-, hq⟩ := List.append_eq_nil_iff.mp (Prod.mk.inj (Except.ok.inj hi)).2
    exact hd (by rw [hq, List.append_nil])

namespace Machine

theorem step_reserved {s : State} {b : Byte} {bs : List Byte} (hp : s.port = b :: bs) (hb : hostOpOf b = none) :
    step s = .refused (.reservedOpcode b) := by
  simp [step, fetch, hp, decode, hb]

theorem step_short {s : State} (h : decode s.port = .error .shortDescriptor) :
    step s = .refused .shortDescriptor := by
  simp [step, fetch, h]

end Machine

/-! ## Wire commands: decoding and encoding undo each other -/

/-- Under a legal configuration no two wire commands share a code (00_scope.md R7). -/
theorem wireCmdOf_code {c : Cfg} (hc : c.wf = true) (k : WireCmd) : wireCmdOf c (c.code k) = some k := by
  cases h : wireCmdOf c (c.code k) with
  | none => simpa using List.find?_eq_none.mp h k (WireCmd.mem_all k)
  | some j => rw [Cfg.code_inj hc (by simpa using List.find?_some h : c.code j = c.code k)]

theorem code_of_wireCmdOf {c : Cfg} {b : Byte} {k : WireCmd} (h : wireCmdOf c b = some k) : c.code k = b := by
  simpa using List.find?_some h

theorem encodeWire_of_parts {c : Cfg} {i : Instr} {k : WireCmd} {data : List Byte}
    (h : wireParts c i = some (k, data)) : encodeWire c i = some (c.code k :: data) := by
  simp [encodeWire, h]

/-- Exactly the wire commands have a name and data bytes (30_encoding.md R104). -/
theorem wireParts_isSome (c : Cfg) (i : Instr) : (wireParts c i).isSome = i.isWire := by cases i <;> rfl

/-- A wire command's data bytes are read back. -/
theorem wireInstr_of_parts {c : Cfg} {i : Instr} {k : WireCmd} {data : List Byte}
    (h : wireParts c i = some (k, data)) : wireInstr c k data = some i := by
  cases i with
  | cmdCaset | cmdRaset | cmdColmod => cases h; simp [wireInstr, be16Bytes]
  | _ => cases h <;> rfl

/-- Data bytes that read as a wire command are those it is sent with. -/
theorem parts_of_wireInstr {c : Cfg} {i : Instr} {k : WireCmd} {data : List Byte} (h : wireInstr c k data = some i) :
    wireParts c i = some (k, data) := by
  unfold wireInstr at h
  split at h
  case h_8 | h_9 => cases h; simp [wireParts, be16Bytes]
  case h_12 =>
    split at h
    next hb => cases h; rw [hb]; rfl
    next => cases h
  all_goals cases h
  all_goals rfl

theorem decodeWire_of_parts {c : Cfg} {i : Instr} {k : WireCmd} {data : List Byte} (hc : c.wf = true)
    (h : wireParts c i = some (k, data)) : decodeWire c (c.code k :: data) = .ok i := by
  simp [decodeWire, wireCmdOf_code hc, wireInstr_of_parts h]

/-- Bytes that read as a wire command are its code and the data bytes it is sent with. -/
theorem decodeWire_eq_ok {c : Cfg} {i : Instr} {bs : List Byte} (h : decodeWire c bs = .ok i) :
    ∃ k data, bs = c.code k :: data ∧ wireInstr c k data = some i := by
  unfold decodeWire at h
  split at h
  next => cases h
  next b data =>
    split at h
    next => cases h
    next k hk =>
      split at h
      next j hj =>
        cases h
        exact ⟨k, data, by rw [code_of_wireCmdOf hk], hj⟩
      next => cases h

/-- The data bytes of an address bound, in arithmetic (30_encoding.md R111). -/
theorem be16Bytes_eq (v : Word) : be16Bytes v = [BitVec.ofNat 8 (v.toNat / 256), BitVec.ofNat 8 v.toNat] := by
  simp only [be16Bytes, List.cons.injEq, and_true]
  constructor <;> apply BitVec.eq_of_toNat_eq
  · have := v.isLt
    rw [highByte_toNat, BitVec.toNat_ofNat]
    omega
  · rw [lowByte_toNat, BitVec.toNat_ofNat]

namespace Machine

/-- An operation that is one command with its data sends the command's frames (30_encoding.md R110). -/
theorem sends_of_exec {i : Instr} {s : State} {code : Byte} {data : List Byte}
    (h : exec i s = runProgram (commandProgram code data) s) : Sends i s code data := by
  rw [Sends, h, frames_eq]
  exact runProgram_performs _ s

/-- A wire command whose data bytes are two address bounds sends them high byte first. -/
theorem sends_bounds {i : Instr} {s : State} {code : Byte} {a b : Word}
    (h : exec i s = runProgram (commandProgram code (be16Bytes a ++ be16Bytes b)) s) : Sends i s code
      [BitVec.ofNat 8 (a.toNat / 256), BitVec.ofNat 8 a.toNat, BitVec.ofNat 8 (b.toNat / 256), BitVec.ofNat 8 b.toNat] := by
  have hs := sends_of_exec h
  rwa [be16Bytes_eq, be16Bytes_eq] at hs

/-! ## Illegal operands -/

theorem legalRotation_eq_none {r : Byte} (h : 3 < r.toNat) : legalRotation r = none := if_neg (by omega)

theorem legalBool_eq_none {v : Byte} (h : 1 < v.toNat) : legalBool v = none := by
  have h0 : v ≠ 0 := by rintro rfl; simp at h
  have h1 : v ≠ 1 := by rintro rfl; simp at h
  rw [legalBool, if_neg h0, if_neg h1]

theorem legalAlign_eq_none {b : Byte} (h : 3 < b.toNat) : legalAlign b = none := by
  unfold legalAlign
  split
  case h_5 => rfl
  all_goals omega

/-- The reserved flag bits are zero exactly if the flags byte is below 16. -/
theorem legalFlags_iff (b : Byte) : legalFlags b = true ↔ b.toNat < 16 := by
  revert b
  decide

/-- DRAWTEXT refuses reserved flag bits and an alignment above 3, whatever its other operands. -/
theorem textOperands_illegal {fl al : Byte} (h : 16 ≤ fl.toNat ∨ 3 < al.toNat) (x y w ht : Word) (fg bg : Colour)
    (txt : List Word) (font : List Byte) :
    textOperands fl x y w ht al fg bg txt font = .error .invalidArgument := by
  unfold textOperands
  obtain hf | ha := h
  · exact if_neg fun hl => absurd ((legalFlags_iff fl).mp hl) (by omega)
  · rw [legalAlign_eq_none ha, ite_self]

/-! ## DRAWTEXT: its operands, its layout and what it ends with -/

theorem legalAlign_of_mem {al : Byte} {a : Align}
    (h : (al, a) ∈ [((0 : Byte), Align.none), (1, .left), (2, .center), (3, .right)]) : legalAlign al = some a := by
  simp only [List.mem_cons, Prod.mk.injEq, List.not_mem_nil, or_false] at h
  obtain ⟨rfl, rfl⟩ | ⟨rfl, rfl⟩ | ⟨rfl, rfl⟩ | ⟨rfl, rfl⟩ := h <;> rfl

/-- Legal operands: the flag bits say which of the optional ones are present (30_encoding.md R102, R103). -/
theorem textOperands_legal {fl al : Byte} {a : Align} (hf : fl.toNat < 16) (ha : legalAlign al = some a)
    (x y w h : Word) (fg bg : Colour) (txt : List Word) (font : List Byte) :
    textOperands fl x y w h al fg bg txt font = .ok ⟨x.toInt, y.toInt, optional fl 0 w.toInt, optional fl 1 h.toInt, a,
      optional fl 2 fg, optional fl 3 bg, txt, font⟩ := by
  rw [textOperands, if_pos ((legalFlags_iff fl).mpr hf), ha]
  rfl

/-- An explicit size is bad exactly if it is present and not positive. -/
theorem badSize_optional (fl : Byte) (n : Nat) (v : Int) :
    badSize (optional fl n v) = true ↔ fl.getLsbD n = true ∧ v ≤ 0 := by
  unfold optional
  split <;> simp_all [badSize]

theorem TextOp.badGeometry_iff (o : TextOp) :
    o.badGeometry = true ↔ o.x < 0 ∨ o.y < 0 ∨ badSize o.w = true ∨ badSize o.h = true := by
  simp [TextOp.badGeometry, or_assoc]

theorem TextOp.outOfScreen_iff (o : TextOp) (ds : DeviceState) (ta : TextArea) : o.outOfScreen ds ta = true ↔
    ta.w = 0 ∨ ta.h = 0 ∨ o.x + ta.w > ds.width.toNat ∨ o.y + ta.h > ds.height.toNat := by
  simp [TextOp.outOfScreen, or_assoc]

theorem fontHeader_gh {font : List Byte} {hd : FontHdr} (h : fontHeader font = .ok hd) : hd.gh ≠ 0 := by
  unfold fontHeader at h
  split at h
  · split_ifs at h with _ hg
    cases h
    exact hg
  · cases h

section layout

variable {o : TextOp} {c : Cfg} {ds : DeviceState} {hd : FontHdr} {tw : Nat} {ta : TextArea} {e : Raise}

/-! ### The first error in step order (44_text.md R270, 60_exceptions.md R325) -/

theorem TextOp.layout_of_header_error (h : fontHeader o.font = .error e) : o.layout c ds = .error e := by
  simp [TextOp.layout, h]

theorem TextOp.layout_of_width_error (h : fontHeader o.font = .ok hd) (hw : textWidth c o.font hd o.txt = .error e) :
    o.layout c ds = .error e := by
  simp [TextOp.layout, h, hw]

variable (h : fontHeader o.font = .ok hd) (hw : textWidth c o.font hd o.txt = .ok tw)
include h hw

theorem TextOp.layout_of_badGeometry (hb : o.badGeometry = true) : o.layout c ds = .error .invalidArgument := by
  simp [TextOp.layout, h, hw, hb]

theorem TextOp.layout_of_compose_error (hb : ¬ o.badGeometry = true) (hc : o.compose c hd tw = .error e) :
    o.layout c ds = .error e := by
  simp [TextOp.layout, h, hw, hb, hc]

theorem TextOp.layout_of_outOfScreen (hb : ¬ o.badGeometry = true) (hc : o.compose c hd tw = .ok ta)
    (hs : o.outOfScreen ds ta = true) : o.layout c ds = .error .invalidArgument := by
  simp [TextOp.layout, h, hw, hb, hc, hs]

theorem TextOp.layout_of_compose (hb : ¬ o.badGeometry = true) (hc : o.compose c hd tw = .ok ta)
    (hs : ¬ o.outOfScreen ds ta = true) : o.layout c ds = .ok ta := by
  simp [TextOp.layout, h, hw, hb, hc, hs]

omit h

/-! ### The bitmap reads (44_text.md R264, 20_memory.md R61) -/

/-- The glyphs are placed when the table holds every bitmap that has columns. -/
theorem TextOp.compose_ok (hb : ∀ code ∈ o.txt, ∀ gw gb, dirEntry c o.font hd code = .ok (gw, gb) → gw ≠ 0 →
    gb + (gw * hd.gh.toNat - 1) / 8 < o.font.length) : ∃ ta, o.compose c hd tw = .ok ta := by
  obtain ⟨gs, hg⟩ := forall2_of_textWidth hw
  exact placeText_ok hg hb _ _

theorem TextOp.compose_short (hg : hd.gh ≠ 0) {code : Word} {gw gb : Nat} (hm : code ∈ o.txt)
    (hd' : dirEntry c o.font hd code = .ok (gw, gb)) (h0 : gw ≠ 0)
    (hs : o.font.length ≤ gb + (gw * hd.gh.toNat - 1) / 8) : o.compose c hd tw = .error .fontError := by
  obtain ⟨gs, hgs⟩ := forall2_of_textWidth hw
  exact placeText_short hgs hg hm hd' h0 hs _ _

theorem TextOp.compose_raises (hc : o.compose c hd tw = .error e) : e = .fontError := by
  obtain ⟨gs, hg⟩ := forall2_of_textWidth hw
  exact placeText_raises hg hc

end layout

section exec

variable {fl al : Byte} {x y w h : Word} {fg bg : Colour} {txt : List Word} {font : List Byte} {o : TextOp} {s : State}
  (hs : s.fsm = .ready) (ho : textOperands fl x y w h al fg bg txt font = .ok o)
include hs ho

theorem exec_drawtext : exec (.drawtext fl x y w h al fg bg txt font) s = (textPlan s.cfg s.ds (.ok o)).run s := by
  rw [exec_eq, planOf, ho, hs]
  rfl

theorem exec_drawtext_of_layout {ta : TextArea} (hl : o.layout s.cfg s.ds = .ok ta) :
    ∃ t, exec (.drawtext fl x y w h al fg bg txt font) s = .next t ∧
      Performs (writeProgram s.cfg s.ds o.x o.y ta.w ta.h ta.buf) s t := by
  rw [exec_drawtext hs ho, textPlan, hl]
  exact runProgram_performs _ s

theorem exec_drawtext_of_layout_error {e : Raise} (hl : o.layout s.cfg s.ds = .error e) :
    exec (.drawtext fl x y w h al fg bg txt font) s = .next (s.complete e.status .none) := by
  rw [exec_drawtext hs ho, textPlan, hl]
  rfl

end exec

end Machine

end Sys2Proof

open Sys2Proof Sys2Proof.Machine

/-- Settles O1: the decoder reads an operation's fields back from its descriptor. -/
theorem decodeInvertsEncode : Obligations.DecodeInvertsEncode := by
  intro i hw hh
  obtain ⟨d, he⟩ := Option.isSome_iff_exists.mp ((encode_isSome i).trans hh)
  exact ⟨d, he, encode_length he, decode_encode_append hw he⟩

/-- Settles O2: the fields each format reads are those its encoder writes. -/
theorem encodeInvertsDecode : Obligations.EncodeInvertsDecode := fun _ _ _ h => decode_eq_ok_iff.mp h

/-- Settles O3: no operation has a reserved opcode byte, and by the round trip no descriptor is a proper part of
another. -/
theorem bytesThatSpellNothingAreRefused : Obligations.BytesThatSpellNothingAreRefused :=
  ⟨fun _ b _ hp => ⟨hostOpOf_eq_none_iff b, fun hb => step_reserved hp ((hostOpOf_eq_none_iff b).mpr hb)⟩,
   fun _ _ _ _ hw he hpre hn hd hp => step_short (hp ▸ decode_cut hw he hpre hn hd)⟩

/-- Settles O4: the code names the command, and its data bytes are read back. -/
theorem wireDecodeInvertsEncode : Obligations.WireDecodeInvertsEncode := by
  refine ⟨fun c i hc hi => ?_, fun c i bs h => ?_⟩
  · obtain ⟨⟨k, data⟩, hk⟩ := Option.isSome_iff_exists.mp ((wireParts_isSome c i).trans hi)
    exact ⟨_, encodeWire_of_parts hk, decodeWire_of_parts hc hk⟩
  · obtain ⟨k, data, rfl, hi⟩ := decodeWire_eq_ok h
    have hk := parts_of_wireInstr hi
    exact ⟨encodeWire_of_parts hk, by rw [← wireParts_isSome c, hk]; rfl⟩

/-- Settles O57: legal operands make a `TextOp`, and the outcome is its layout's, which raises the first error in step
order. -/
theorem drawtextResult : Obligations.DrawtextResult := by
  intro fl al x y w h fg bg txt font s a hs hf ha o
  have ho : textOperands fl x y w h al fg bg txt font = .ok o := textOperands_legal hf (legalAlign_of_mem ha) ..
  have hbad : o.badGeometry = true ↔
      x.toInt < 0 ∨ y.toInt < 0 ∨ (fl.getLsbD 0 = true ∧ w.toInt ≤ 0) ∨ (fl.getLsbD 1 = true ∧ h.toInt ≤ 0) := by
    rw [← badSize_optional, ← badSize_optional]
    exact o.badGeometry_iff
  refine ⟨ho, fun ta hl => exec_drawtext_of_layout hs ho hl, fun e he => ?_, fun hd e hh he => ?_, fun hd tw hh hw => ?_⟩
  · obtain rfl := fontHeader_error he
    exact exec_drawtext_of_layout_error hs ho (TextOp.layout_of_header_error he)
  · exact exec_drawtext_of_layout_error hs ho (TextOp.layout_of_width_error hh he)
  rw [← hbad]
  refine ⟨fun hb => exec_drawtext_of_layout_error hs ho (TextOp.layout_of_badGeometry hh hw hb), fun hb =>
    ⟨TextOp.compose_ok (o := o) hw, fun _ hm _ _ => TextOp.compose_short (o := o) hw (fontHeader_gh hh) hm,
      fun ta hc h1 h2 h3 h4 => ?_, fun e he => ?_, fun ta hc hout => ?_⟩⟩
  · have hin : ¬ (ta.w = 0 ∨ ta.h = 0 ∨ x.toInt + ta.w > s.ds.width.toNat ∨ y.toInt + ta.h > s.ds.height.toNat) := by
      omega
    exact TextOp.layout_of_compose hh hw hb hc (mt (o.outOfScreen_iff s.ds ta).mp hin)
  · obtain rfl := TextOp.compose_raises hw he
    exact exec_drawtext_of_layout_error hs ho (TextOp.layout_of_compose_error hh hw hb he)
  · exact exec_drawtext_of_layout_error hs ho
      (TextOp.layout_of_outOfScreen hh hw hb hc ((o.outOfScreen_iff s.ds ta).mpr hout))

/-- Settles O5: each is the descriptor of its operation, with nothing left. -/
theorem spelledDescriptorsDecode : Obligations.SpelledDescriptorsDecode := by
  have whole {i : Instr} {d : List Byte} (hw : i.wf = true) (he : encode i = some d) : decode d = .ok (i, []) :=
    decode_eq_ok_iff.mpr ⟨hw, isHost_of_encode he, d, he, d.append_nil.symm⟩
  exact ⟨whole rfl rfl, whole rfl rfl, whole rfl rfl, whole rfl rfl, whole rfl rfl, whole rfl rfl⟩

/-- Settles O18: no legal value is read from an illegal operand, and the operation raises before its first event. -/
theorem illegalOperandsRaise : Obligations.IllegalOperandsRaise := by
  refine ⟨fun s r hr => ?_, fun s r hs hr => ?_, fun s v hs hv => ⟨?_, ?_⟩, fun s fl al x y w h fg bg txt font hs hi => ?_⟩
  · rw [exec_eq, planOf, legalRotation_eq_none hr]; rfl
  · rw [exec_eq, planOf, legalRotation_eq_none hr, hs]; rfl
  · rw [exec_eq, planOf, legalBool_eq_none hv, hs]; rfl
  · rw [exec_eq, planOf, legalBool_eq_none hv, hs]; rfl
  · rw [exec_eq, planOf, textOperands_illegal hi, hs]; rfl

/-- Settles O58: each of the 24 performs the program of its code and its data bytes. -/
theorem wireCommandFrames : Obligations.WireCommandFrames := fun _ =>
  ⟨sends_of_exec rfl, sends_of_exec rfl, sends_of_exec rfl, sends_of_exec rfl, sends_of_exec rfl, sends_of_exec rfl,
   sends_of_exec rfl, fun _ _ => sends_bounds rfl, fun _ _ => sends_bounds rfl, fun _ => sends_of_exec rfl,
   fun _ => sends_of_exec rfl, sends_of_exec rfl,
   fun _ => ⟨sends_of_exec rfl, sends_of_exec rfl, sends_of_exec rfl, sends_of_exec rfl, sends_of_exec rfl,
    sends_of_exec rfl, sends_of_exec rfl, sends_of_exec rfl, sends_of_exec rfl, sends_of_exec rfl, sends_of_exec rfl,
    sends_of_exec rfl⟩⟩

end

section
/-! The family of 40_transport.md: the micro-operations of the Transport Adapter (R141 to R148), and that a run without
transport failure keeps the trace in the grammar of R149. -/

namespace Sys2Proof.Machine

/-! ## A run without transport failure -/

/-- Without failure a plan sends all of its events, and no failure is to come. -/
theorem Plan.run_of_noFailure {pl : Plan} {s t : State} (hn : s.NoFailure) (h : pl.run s = .next t) :
    t.NoFailure ∧ t.trace = s.trace ++ pl.events s.cfg := by
  obtain ⟨st, r, rfl, rfl⟩ | ⟨-, -, ⟨he, ha⟩, -⟩ | ⟨hlt, -⟩ := Plan.run_next h
  · exact ⟨hn, (List.append_nil _).symm⟩
  · refine ⟨fun a hm => hn a ?_, he.1⟩
    rw [ha] at hm
    exact List.mem_of_mem_drop hm
  · exact absurd (performed_noFailure hn _) hlt.ne

theorem CleanRun.setPort {s : State} (h : CleanRun s) (bs : List Byte) : CleanRun (s.setPort bs) :=
  ⟨h.answers, h.trace⟩

/-- A host operation sends whole items in the order of the grammar. (A micro-operation need not: SENDDATA is a data bracket
without its command.) -/
theorem exec_keeps_cleanRun {i : Instr} {s t : State} (hi : i.isHost = true) (hc : CleanRun s)
    (h : exec i s = .next t) : CleanRun t := by
  obtain ⟨xs, hx, hg⟩ := planOf_items i s.cfg s.ds s.fsm
  obtain ⟨hn, ht⟩ := Plan.run_of_noFailure hc.answers (exec_eq i s ▸ h)
  refine ⟨hn, ?_⟩
  rw [ht, hx]
  exact traceOk_append hc.trace (hg.ordered hi)

/-! ## What a program of the adapter leaves -/

/-- Whatever the transport answers, a program sends its events before the first failed one. -/
theorem Performs.emits {es : List WireEvent} {s t : State} (h : Performs es s t) :
    Emits (es.take (performed s.answers es.length)) s t := by
  rcases Nat.lt_or_eq_of_le (performed_le s.answers es.length) with hk | hk
  · exact (h.failed hk).1
  · rw [hk, List.take_length]
    exact (h.ok hk).1.1

/-- An empty program leaves the lines and the observer as they were. -/
theorem Performs.nil_keeps {s t : State} (h : Performs [] s t) : t.lines = s.lines ∧ t.panel = s.panel := by
  obtain ⟨-, hl, hp, -⟩ : Emits [] s t := by simpa using h.emits
  exact ⟨hl, hp⟩

/-- An item performed whole leaves the levels of its item. -/
theorem Performs.lines_item {x : Item} {s t : State} (h : Performs x.events s t)
    (hk : performed s.answers x.events.length = x.events.length) : t.lines = s.lines.read x := by
  obtain ⟨⟨⟨-, hl, -⟩, -⟩, -⟩ := h.ok hk
  rw [hl, drive_item]

theorem dataFrame_length (bytes : List Byte) : (dataFrame bytes).length = bytes.length + 3 := by
  simp [dataFrame]

/-! ## The reset pulse -/

/-- Events of which the observer reads nothing leave it as it was. -/
theorem Panel.watch_eq_self {c : Cfg} {es : List WireEvent} (h : ∀ e ∈ es, ∀ dc (p : Panel), p.observe c dc e = p)
    (dc : Bool) (p : Panel) : p.watch c dc es = p := by
  induction es generalizing dc with
  | nil => rfl
  | cons e es ih =>
    show (p.observe c dc e).watch c _ es = p
    rw [h e List.mem_cons_self]
    exact ih (fun e he => h e (List.mem_cons_of_mem _ he)) _

/-- A program whose first event is performed has sent it and some of the others. -/
theorem Performs.emits_cons {e : WireEvent} {es : List WireEvent} {s t : State} (h : Performs (e :: es) s t)
    (hk : performed s.answers 1 = 1) : ∃ n, Emits (e :: es.take n) s t := by
  have he := h.emits
  rw [List.length_cons, Nat.add_comm, performed_append_full hk, Nat.add_comm, List.take_succ_cons] at he
  exact ⟨_, he⟩

/-- Once the line has gone low, no later event of the pulse changes the observer: it is as `RST(0)` leaves it
(45_wire_observer.md R302). -/
theorem Performs.panel_pulse {low high : Nat} {s t : State}
    (h : Performs [.rst false, .delay low, .rst true, .delay high] s t) (hk : performed s.answers 1 = 1) :
    t.panel = Panel.forgetWindow { s.panel with armed := false, lastcmd := none } := by
  obtain ⟨n, -, -, hp, -⟩ := h.emits_cons hk
  refine hp.trans (Panel.watch_eq_self (es := List.take n _) (fun e he dc p => ?_) _ _)
  have hm := List.mem_of_mem_take he
  simp only [List.mem_cons, List.not_mem_nil, or_false] at hm
  obtain rfl | rfl | rfl := hm <;> rfl

/-! ## The backlight -/

/-- SETBL of a legal operand in `Ready` is BLSET. -/
theorem exec_setbl {v : Byte} {s : State} (hs : s.fsm = .ready) (hv : v.toNat ≤ 1) :
    exec (.setbl v) s = runProgram (blProgram s.cfg (v == 1)) s := by
  rw [exec_eq, planOf, legalBool_eq v hv, hs]
  rfl

/-- The pin's event, when performed, sets the level; without the pin every level stays. -/
theorem Performs.lines_bl {c : Cfg} {v : Bool} {s t : State} (h : Performs (blProgram c v) s t)
    (hk : performed s.answers 1 = 1) :
    t.lines = { s.lines with bl := if c.hasBl = true then v else s.lines.bl } := by
  unfold blProgram at h
  split at h
  next hb =>
    rw [if_pos hb]
    exact h.lines_item (x := .bl v) hk
  next hb =>
    rw [if_neg hb]
    exact h.nil_keeps.1

end Sys2Proof.Machine

open Sys2Proof Sys2Proof.Machine

/-- Settles O10: a step idles, or runs an operation that has a descriptor, which sends whole items in the order of the
grammar. -/
theorem stepKeepsCleanRun : Obligations.StepKeepsCleanRun := by
  intro s t hc h
  obtain rfl | ⟨i, rest, hd, hx⟩ := step_next h
  · exact hc
  · obtain ⟨-, hi, -⟩ := decode_eq_ok_iff.mp hd
    exact exec_keeps_cleanRun hi (hc.setPort rest) hx

/-- Settles O21: both are one wire program; the observer reads of the pulse only the line going low. -/
theorem rstpulseAndDelayResult : Obligations.RstpulseAndDelayResult := by
  refine ⟨fun s => ?_, fun n s => runProgram_performs (delayProgram n) s⟩
  obtain ⟨t, ht, hp⟩ := runProgram_performs (rstPulse s.cfg) s
  refine ⟨t, ht, hp, fun hr hk => ?_, fun hr => ?_⟩
  · rw [rstPulse, if_pos hr] at hp
    rw [hp.panel_pulse hk]
    exact ⟨rfl, rfl, rfl, rfl, rfl⟩
  · rw [rstPulse, if_neg (by simp [hr])] at hp
    exact hp.nil_keeps.2

/-- Settles O19: it is one command bracket. -/
theorem sendcmdResult : Obligations.SendcmdResult := by
  intro code s
  obtain ⟨t, ht, hp⟩ := runProgram_performs (cmdFrame code) s
  exact ⟨t, ht, hp, hp.lines_item (x := .cmd code)⟩

/-- Settles O20: it is one data bracket. -/
theorem senddataResult : Obligations.SenddataResult := by
  intro bytes s
  obtain ⟨t, ht, hp⟩ := runProgram_performs (dataFrame bytes) s
  refine ⟨t, ht, hp, ?_⟩
  rw [← dataFrame_length]
  exact hp.lines_item (x := .data bytes)

/-- Settles O22: both are the program of the pin. -/
theorem backlightResult : Obligations.BacklightResult := by
  refine ⟨fun v s => runProgram_performs (blProgram s.cfg v) s, fun v s hs hv => ?_⟩
  obtain ⟨t, ht, hp⟩ := runProgram_performs (blProgram s.cfg (v == 1)) s
  exact ⟨t, (exec_setbl hs hv).trans ht, hp, hp.lines_bl⟩

end

section
/-! The family of 41_protocol.md: who is refused outside `Ready` (R160), reset and construction (R161, R162), rotation and
the toggles (R167, R173 to R175), and the window and the pixel stream (R169 to R171). -/

namespace Sys2Proof.Machine

/-! ## The `Ready` requirement -/

/-- An operation whose plan is no refusal is accepted. -/
theorem exec_isNext {i : Instr} {s : State} (h : ∀ r, planOf i s.cfg s.ds s.fsm ≠ .refuse r) :
    ∃ t, exec i s = .next t := by
  rw [exec_eq]
  exact Plan.run_isNext _ s h

theorem Plan.raise_ne_refuse (e : Raise) (r : Refusal) : Plan.raise e ≠ .refuse r := nofun

theorem Plan.result_ne_refuse {α : Type} (f : α → Result) (x : Except Raise α) (r : Refusal) :
    Plan.result f x ≠ .refuse r := by
  cases x <;> nofun

theorem exec_construct_isNext (r : Byte) (s : State) : ∃ t, exec (.construct r) s = .next t := by
  refine exec_isNext fun e => ?_
  rw [planOf]
  cases legalRotation r with
  | none => exact Plan.raise_ne_refuse _ e
  | some v => nofun

/-! ## How a whole program and one that stopped end -/

/-- A plan that sends without a reset performs its program and writes `DS` after its last event. -/
theorem Plan.run_performsThen {pl : Plan} {s : State} (hr : ∀ r, pl ≠ .refuse r) (ha : ∀ st r, pl ≠ .answer st r)
    (hn : pl.resets = false) :
    ∃ t, pl.run s = .next t ∧ PerformsThen (pl.events s.cfg) (pl.dsDone s.cfg s.ds) s t := by
  obtain ⟨t, ht⟩ := Plan.run_isNext pl s hr
  refine ⟨t, ht, ?_⟩
  obtain ⟨st, r, h, -⟩ | ⟨-, hk, hs, hd, hf, hm, ho⟩ | ⟨hk, he, hans, hm, hc, hs⟩ := Plan.run_next ht
  · exact absurd h (ha st r)
  · rw [hn] at hf hm
    exact ⟨hf, fun _ => ⟨hs, hd, hm, ho⟩, fun h => absurd hk h.ne⟩
  · obtain ⟨hd, hf⟩ := (Plan.stopped_of_not_resets hn).mp hs
    exact ⟨hf, fun h => absurd h hk.ne, fun _ => ⟨he, hans, hd, hm, hc⟩⟩

/-- An operation that only sends is one that writes back the `DS` it found. -/
theorem Performs.performsThen {es : List WireEvent} {s t : State} (h : Performs es s t) : PerformsThen es s.ds s t where
  fsm := h.fsm
  ok hk := by
    obtain ⟨hs, hm, ho⟩ := h.ok hk
    exact ⟨hs, h.ds, hm, ho⟩
  failed hk := by
    obtain ⟨he, ha, hm, hc⟩ := h.failed hk
    exact ⟨he, ha, h.ds, hm, hc⟩

/-- An operation that ended `OK` has sent its whole program and written `DS`. -/
theorem PerformsThen.sent_of_ok {es : List WireEvent} {ds : DeviceState} {s t : State} (h : PerformsThen es ds s t)
    (ho : Ended .ok t) : Sent es s t ∧ t.ds = ds := by
  rcases Nat.lt_or_eq_of_le (performed_le s.answers es.length) with hk | hk
  · obtain ⟨-, -, -, -, hc⟩ := h.failed hk
    cases transportError_status hc ho
  · obtain ⟨hs, hd, -⟩ := h.ok hk
    exact ⟨hs, hd⟩

/-- The observer of an operation that ended `OK` has read all of its items. -/
theorem PerformsThen.panel_of_ok {es : List WireEvent} {xs : List Item} {ds : DeviceState} {s t : State}
    (h : PerformsThen es ds s t) (hx : es = itemEvents xs) (ho : Ended .ok t) :
    t.panel = s.panel.readAll s.cfg xs := by
  obtain ⟨⟨⟨-, -, hp, -⟩, -⟩, -⟩ := h.sent_of_ok ho
  rw [hp, hx, watch_items]

/-- The same of an operation that sends one command. -/
theorem PerformsThen.panel_command {code : Byte} {ds : DeviceState} {s t : State}
    (h : PerformsThen (cmdFrame code) ds s t) (ho : Ended .ok t) : t.panel = s.panel.command s.cfg code :=
  h.panel_of_ok (xs := [.cmd code]) rfl ho

/-! ## What the operations send -/

theorem be16_ne_nil (v : Int) : be16 v ≠ [] := by
  unfold be16
  split <;> nofun

theorem frames_nil (code : Byte) : frames code [] = cmdFrame code := rfl

theorem frames_of_ne_nil {data : List Byte} (h : data ≠ []) (code : Byte) :
    frames code data = cmdFrame code ++ dataFrame data := by
  rw [frames, if_neg h]
  rfl

theorem rotProgram_eq (c : Cfg) (v : BitVec 2) : rotProgram c v = frames (c.code .madctl) [(c.rot v).madctl] :=
  (frames_of_ne_nil (List.cons_ne_nil _ _) _).symm

theorem winProgram_eq (c : Cfg) (ds : DeviceState) (x0 y0 x1 y1 : Int) :
    winProgram c ds x0 y0 x1 y1 =
      frames (c.code .caset) (be16 (x0 + ds.colstart.toNat) ++ be16 (x1 + ds.colstart.toNat)) ++
      frames (c.code .raset) (be16 (y0 + ds.rowstart.toNat) ++ be16 (y1 + ds.rowstart.toNat)) ++
      frames (c.code .ramwr) [] := by
  have hb (u v : Int) : be16 u ++ be16 v ≠ [] := List.append_ne_nil_of_left_ne_nil (be16_ne_nil u) _
  rw [frames_of_ne_nil (hb _ _), frames_of_ne_nil (hb _ _), frames_nil, winProgram]
  simp only [List.append_assoc]

theorem whenReady_performs {s : State} (hs : s.fsm = .ready) (es : List WireEvent) :
    ∃ t, whenReady s (runProgram es s) = .next t ∧ Performs es s t := by
  rw [whenReady_ready hs]
  exact runProgram_performs es s

theorem exec_construct_legal (v : BitVec 2) (s : State) :
    exec (.construct (v.setWidth 8)) s = (Plan.construct v).run s := by
  rw [exec_eq, planOf, legalRotation_setWidth]

theorem exec_setrot_legal {s : State} (hs : s.fsm = .ready) (v : BitVec 2) :
    exec (.setrot (v.setWidth 8)) s = (Plan.setrot v).run s := by
  rw [exec_eq, planOf, legalRotation_setWidth, hs]
  rfl

theorem exec_setinv_legal {s : State} (hs : s.fsm = .ready) {v : Byte} (hv : v.toNat ≤ 1) :
    exec (.setinv v) s = (Plan.setinv (v == 1)).run s := by
  rw [exec_eq, planOf, legalBool_eq v hv, hs]
  rfl

/-! ## What a command leaves alone -/

/-- Events that do not drive the backlight leave its level. -/
theorem Lines.drive_keeps_bl {es : List WireEvent} (h : ∀ v, .bl v ∉ es) (l : Lines) :
    (es.foldl Lines.drive l).bl = l.bl := by
  induction es generalizing l with
  | nil => rfl
  | cons e es ih =>
    rw [List.foldl_cons, ih fun v hv => h v (List.mem_cons_of_mem e hv)]
    cases e with
    | bl v => exact absurd List.mem_cons_self (h v)
    | _ => rfl

/-- An operation that sends one command leaves the backlight, wherever it stopped. -/
theorem Performs.command_keeps_bl {code : Byte} {s t : State} (h : Performs (cmdFrame code) s t) :
    t.lines.bl = s.lines.bl := by
  obtain ⟨-, hl, -⟩ := h.emits
  rw [hl, Lines.drive_keeps_bl fun v hv => ?_]
  have hm := List.mem_of_mem_take hv
  simp [cmdFrame] at hm

/-- An operation that sends one command other than software-reset leaves the observer's window, wherever it stopped. -/
theorem Performs.command_keeps_window {k : WireCmd} {s t : State} (hc : s.cfg.wf = true) (hk : k ≠ .swreset)
    (h : Performs (cmdFrame (s.cfg.code k)) s t) : t.panel.xs = s.panel.xs ∧ t.panel.xe = s.panel.xe ∧
    t.panel.ys = s.panel.ys ∧ t.panel.ye = s.panel.ye := by
  obtain ⟨ys, ht, hp⟩ := h.panel (xs := [.cmd (s.cfg.code k)]) rfl
  cases ht with
  | none => rw [hp]; exact ⟨rfl, rfl, rfl, rfl⟩
  | cons _ ht =>
    cases ht
    rw [hp]
    exact Panel.command_window fun e => hk (Cfg.code_inj hc e)

/-! ## The observer's mirrors (45_wire_observer.md R303, R304) -/

section mirrors

variable {c : Cfg} {p : Panel} (hc : c.wf = true)
include hc

/-- No command but memory-write arms the panel. -/
theorem Panel.command_disarms {k : WireCmd} (hk : k ≠ .ramwr) : (p.command c (c.code k)).armed = false := by
  simp [Cfg.code_eq hc, hk]

theorem Panel.command_dispon_disp : (p.command c (c.code .dispon)).disp = true := by
  simp [Panel.command, Cfg.code_eq hc]

theorem Panel.command_dispoff_disp : (p.command c (c.code .dispoff)).disp = false := by
  simp [Panel.command, Cfg.code_eq hc]

theorem Panel.command_inversion (v : Bool) : (p.command c (c.code (if v then .invon else .invoff))).inv = v := by
  cases v <;> simp [Panel.command, Cfg.code_eq hc]

/-- The frames of SETROT put the tuple's rotation byte in the panel and disarm it. -/
theorem Panel.readAll_rot (v : BitVec 2) :
    (p.readAll c (rotItems c v)).madctl = (c.rot v).madctl ∧ (p.readAll c (rotItems c v)).armed = false := by
  have hr : p.readAll c (rotItems c v) = (p.command c (c.code .madctl)).read c (.data [(c.rot v).madctl]) := rfl
  rw [hr, Panel.read_madctl hc (by simp) (by simp)]
  exact ⟨rfl, Panel.command_disarms hc nofun⟩

end mirrors

end Sys2Proof.Machine

open Sys2Proof Sys2Proof.Machine

/-- Settles O23: a reset is performed whole, or stops at the first failed event. -/
theorem resetResult : Obligations.ResetResult := by
  intro s
  obtain ⟨t, ht⟩ := Plan.run_isNext .reset s nofun
  refine ⟨t, (exec_eq .reset s).trans ht, ?_⟩
  obtain ⟨_, _, h, -⟩ | ⟨-, hk, hs, hd, hf, hm, ho⟩ | ⟨hk, he, -, -, hc, -⟩ := Plan.run_next ht
  · cases h
  · exact ⟨fun _ => ⟨hs, hf, hd, hm, ho⟩, fun h => absurd hk h.ne⟩
  · exact ⟨fun h => absurd h hk.ne, fun _ => ⟨he, _, hc⟩⟩

/-- Settles O25: CONSTRUCT performed whole is the reset's events and SETROT's, and SETROT writes every register of `DS` but
the inversion flag, which the reset wrote. -/
theorem constructResult : Obligations.ConstructResult := by
  intro v s
  rw [← rotProgram_eq]
  intro hall
  obtain ⟨t, ht⟩ := Plan.run_isNext (.construct v) s nofun
  refine ⟨t, (exec_construct_legal v s).trans ht, ?_⟩
  obtain ⟨_, _, h, -⟩ | ⟨-, -, hs, hd, hf, hm, ho⟩ | ⟨hk, -⟩ := Plan.run_next ht
  · cases h
  · exact ⟨hs, hf, hd, hm, ho⟩
  · exact absurd hall hk.ne

/-- Settles O26: the plan of SETROT sends the two frames and then writes `DS`; the observer reads them as the rotation
command with its byte. -/
theorem setrotResult : Obligations.SetrotResult := by
  intro v s hs
  obtain ⟨t, ht, hp⟩ := Plan.run_performsThen (pl := .setrot v) (s := s) nofun nofun rfl
  refine ⟨t, (exec_setrot_legal hs v).trans ht, rotProgram_eq s.cfg v ▸ hp, fun hc ho => ?_⟩
  obtain ⟨hmad, harm⟩ := Panel.readAll_rot (p := s.panel) hc v
  obtain ⟨hswap, -⟩ := Cfg.wf_rot hc v
  rw [hp.panel_of_ok (rotProgram_items s.cfg v) ho, (hp.sent_of_ok ho).2]
  refine ⟨hmad, harm, ?_⟩
  simp only [Plan.dsDone, DeviceState.rotate, hswap, decide_eq_true_eq]
  split <;> rfl

/-- Settles O27: the plan of SETINV sends its frame and then writes the flag; the mirror is the command's. -/
theorem setinvResult : Obligations.SetinvResult := by
  intro v s hs hv
  obtain ⟨t, ht, hp⟩ := Plan.run_performsThen (pl := .setinv (v == 1)) (s := s) nofun nofun rfl
  have hcode : s.cfg.code (if v == 1 then .invon else .invoff) =
      if v = 1 then s.cfg.code .invon else s.cfg.code .invoff := by
    rw [apply_ite s.cfg.code]
    simp
  refine ⟨t, (exec_setinv_legal hs hv).trans ht, hcode ▸ hp, fun hc ho => ?_⟩
  rw [hp.panel_command ho]
  exact ⟨Panel.command_inversion hc _, Panel.command_disarms hc (by split <;> nofun)⟩

/-- Settles O28: in `Ready` ON is one command frame. -/
theorem onResult : Obligations.OnResult := by
  intro s hs
  obtain ⟨t, ht, hp⟩ := whenReady_performs hs (cmdFrame (s.cfg.code .dispon))
  refine ⟨t, ht, hp, hp.command_keeps_bl, fun hc ho => ?_⟩
  rw [hp.performsThen.panel_command ho]
  exact ⟨Panel.command_dispon_disp hc, Panel.command_disarms hc nofun⟩

/-- Settles O29: in `Ready` OFF is one command frame, of which the observer reads the command or nothing. -/
theorem offResult : Obligations.OffResult := by
  refine ⟨fun rest => rfl, fun s hs => ?_⟩
  obtain ⟨t, ht, hp⟩ := whenReady_performs hs (cmdFrame (s.cfg.code .dispoff))
  refine ⟨t, ht, hp, hp.command_keeps_bl, fun hc => ?_⟩
  obtain ⟨hxs, hxe, hys, hye⟩ := hp.command_keeps_window (k := .dispoff) hc nofun
  refine ⟨exec_sameFrame (i := .turnOff) hc rfl ht, hxs, hxe, hys, hye, fun ho => ?_⟩
  rw [hp.performsThen.panel_command ho]
  exact ⟨Panel.command_dispoff_disp hc, Panel.command_disarms hc nofun⟩

/-- Settles O30: SETWIN is one wire program; a legal configuration keeps every panel coordinate of the screen in 16
bits. -/
theorem setwinResult : Obligations.SetwinResult := by
  refine ⟨fun x0 y0 x1 y1 s => ?_, be16_nat, fun x y s hi hx hy => ?_⟩
  · rw [← winProgram_eq]
    exact runProgram_performs (winProgram s.cfg s.ds x0 y0 x1 y1) s
  · obtain ⟨-, -, -, -, hw, hh⟩ := screen_bounds hi
    omega

/-- Settles O31: STREAM is the program of its data bracket, WRITEWIN that of SETWIN and then of STREAM. -/
theorem streamAndWritewinResult : Obligations.StreamAndWritewinResult := by
  refine ⟨fun buf s => runProgram_performs (dataFrame buf) s, fun x y w h buf s => ?_⟩
  obtain ⟨t, ht, hp⟩ := runProgram_performs (writeProgram s.cfg s.ds x y w h buf) s
  rw [writeProgram, winProgram_eq] at hp
  exact ⟨t, ht, hp⟩

/-- Settles O13: every other host operation stands behind the `Ready` requirement, and no plan of the five is a refusal. -/
theorem notReadyIsRefused : Obligations.NotReadyIsRefused := by
  refine ⟨fun i s hh hs hreset hconstruct hmeasure hencode hdecode => ?_, fun i s hi => ?_⟩
  · cases i with
    | reset => exact absurd rfl hreset
    | construct r => exact absurd rfl (hconstruct r)
    | measure txt font => exact absurd rfl (hmeasure txt font)
    | encodeColour c => exact absurd rfl (hencode c)
    | decodeCode hi lo => exact absurd rfl (hdecode hi lo)
    | turnOn | turnOff | setrot | setbl | setinv | clear | fillscreen | fillrect | drawpixel | drawline | drawimage
    | drawtext => exact whenReady_refused hs _
    | _ => cases hh
  · obtain rfl | ⟨r, rfl⟩ | ⟨txt, font, rfl⟩ | ⟨c, rfl⟩ | ⟨hi, lo, rfl⟩ := hi
    · exact exec_isNext nofun
    · exact exec_construct_isNext r s
    · exact exec_isNext (Plan.result_ne_refuse _ _)
    · exact exec_isNext nofun
    · exact exec_isNext nofun

end

section
/-! The family of 42_codec.md: the code of a colour (R200), the colour of a code (R201), and the laws of the two (R202). -/

namespace Sys2Proof.Machine

/-! ## The top bits of a value -/

/-- Masking with the ones from bit `k` on clears the low `k` bits. -/
theorem and_onesFrom_toNat {w : Nat} (v : BitVec w) (k : Nat) :
    (v &&& BitVec.allOnes w <<< k).toNat = v.toNat / 2 ^ k * 2 ^ k := by
  have hv : v &&& BitVec.allOnes w <<< k = v >>> k <<< k := by
    ext i hi
    by_cases hk : i < k
    · simp [hk]
    · simp [hk, hi, show k + (i - k) = i by omega]
  have hle : v.toNat / 2 ^ k * 2 ^ k < 2 ^ w := (Nat.div_mul_le_self _ _).trans_lt v.isLt
  rw [hv, BitVec.toNat_shiftLeft, BitVec.toNat_ushiftRight, Nat.shiftLeft_eq, Nat.shiftRight_eq_div_pow,
    Nat.mod_eq_of_lt hle]

theorem and_F8_toNat (v : Byte) : (v &&& 0xF8#8).toNat = v.toNat / 8 * 8 := and_onesFrom_toNat v 3

theorem and_FC_toNat (v : Byte) : (v &&& 0xFC#8).toNat = v.toNat / 4 * 4 := and_onesFrom_toNat v 2

/-- A value of fewer than `k` bits fits below the bits from `k` on. -/
theorem and_onesFrom_or_toNat {w k : Nat} (v : BitVec w) {u : BitVec w} (hu : u.toNat < 2 ^ k) :
    (v &&& BitVec.allOnes w <<< k ||| u).toNat = v.toNat / 2 ^ k * 2 ^ k + u.toNat := by
  rw [BitVec.toNat_or, and_onesFrom_toNat, Nat.mul_comm, Nat.two_pow_add_eq_or_of_lt hu]

theorem ushiftRight_eq_iff {w : Nat} {u v : BitVec w} {k : Nat} :
    u >>> k = v >>> k ↔ u.toNat / 2 ^ k = v.toNat / 2 ^ k := by
  rw [← BitVec.toNat_inj, BitVec.toNat_ushiftRight, BitVec.toNat_ushiftRight, Nat.shiftRight_eq_div_pow,
    Nat.shiftRight_eq_div_pow]

/-! ## The two bytes of a code (R200) -/

theorem highByte_eq_ofNat (v : Word) : highByte v = BitVec.ofNat 8 (v.toNat / 256) := by
  rw [← highByte_toNat, BitVec.ofNat_toNat, BitVec.setWidth_eq]

theorem lowByte_eq_ofNat (v : Word) : lowByte v = BitVec.ofNat 8 (v.toNat % 256) := by
  rw [← lowByte_toNat, BitVec.ofNat_toNat, BitVec.setWidth_eq]

theorem highByte_colourCode (c : Colour) : highByte (colourCode c) = (c.r &&& 0xF8#8) ||| (c.g >>> 5) := by
  have hg : (c.g >>> 5).toNat = c.g.toNat / 32 := by simp [Nat.shiftRight_eq_div_pow]
  have hlt : (c.g >>> 5).toNat < 2 ^ 3 := by omega
  apply BitVec.eq_of_toNat_eq
  rw [highByte_toNat, colourCode_toNat, show 0xF8#8 = BitVec.allOnes 8 <<< 3 from rfl, and_onesFrom_or_toNat _ hlt, hg]
  omega

theorem lowByte_colourCode (c : Colour) : lowByte (colourCode c) = ((c.g <<< 3) &&& 0xE0#8) ||| (c.b >>> 3) := by
  have hg : (c.g <<< 3).toNat = c.g.toNat * 8 % 256 := by simp [Nat.shiftLeft_eq]
  have hb : (c.b >>> 3).toNat = c.b.toNat / 8 := by simp [Nat.shiftRight_eq_div_pow]
  have hlt : (c.b >>> 3).toNat < 2 ^ 5 := by omega
  apply BitVec.eq_of_toNat_eq
  rw [lowByte_toNat, colourCode_toNat, show 0xE0#8 = BitVec.allOnes 8 <<< 5 from rfl, and_onesFrom_or_toNat _ hlt, hg, hb]
  omega

/-! ## Encoding and decoding (R202) -/

theorem codecEncode_eq_ofNat (c : Colour) :
    codecEncode c = ⟨BitVec.ofNat 8 ((colourCode c).toNat / 256), BitVec.ofNat 8 ((colourCode c).toNat % 256)⟩ := by
  rw [← highByte_eq_ofNat, ← lowByte_eq_ofNat, codecEncode]

/-- The two bytes carry the whole code. -/
theorem codecEncode_toNat (c : Colour) :
    (codecEncode c).hi.toNat * 256 + (codecEncode c).lo.toNat = (colourCode c).toNat := by
  rw [codecEncode, highByte_toNat, lowByte_toNat]
  omega

theorem codecEncode_eq_iff {c d : Colour} : codecEncode c = codecEncode d ↔ colourCode c = colourCode d := by
  refine ⟨fun h => BitVec.eq_of_toNat_eq ?_, fun h => ?_⟩
  · rw [← codecEncode_toNat, ← codecEncode_toNat, h]
  · rw [codecEncode, codecEncode, h]

/-- The code is its three fields side by side, so two codes agree exactly when each field does. -/
theorem colourCode_eq_iff {c d : Colour} :
    colourCode c = colourCode d ↔ c.r >>> 3 = d.r >>> 3 ∧ c.g >>> 2 = d.g >>> 2 ∧ c.b >>> 3 = d.b >>> 3 := by
  rw [← BitVec.toNat_inj, colourCode_toNat, colourCode_toNat, ushiftRight_eq_iff, ushiftRight_eq_iff, ushiftRight_eq_iff]
  omega

theorem colour_eq_of_toNat {c d : Colour} (hr : c.r.toNat = d.r.toNat) (hg : c.g.toNat = d.g.toNat)
    (hb : c.b.toNat = d.b.toNat) : c = d := by
  obtain ⟨r, g, b⟩ := c
  obtain rfl : r = d.r := BitVec.eq_of_toNat_eq hr
  obtain rfl : g = d.g := BitVec.eq_of_toNat_eq hg
  obtain rfl : b = d.b := BitVec.eq_of_toNat_eq hb
  rfl

theorem codecDecode_codecEncode (c : Colour) :
    codecDecode (codecEncode c) = ⟨c.r &&& 0xF8#8, c.g &&& 0xFC#8, c.b &&& 0xF8#8⟩ := by
  obtain ⟨hr, hg, hb⟩ := codecDecode_toNat (codecEncode c)
  rw [codecEncode_toNat, colourCode_toNat] at hr hg hb
  apply colour_eq_of_toNat
  · rw [hr, and_F8_toNat]
    omega
  · rw [hg, and_FC_toNat]
    omega
  · rw [hb, and_F8_toNat]
    omega

theorem colourCode_codecDecode (p : PixelCode) : colourCode (codecDecode p) = le16 p.lo p.hi := by
  obtain ⟨hr, hg, hb⟩ := codecDecode_toNat p
  apply BitVec.eq_of_toNat_eq
  rw [colourCode_toNat, le16_toNat, hr, hg, hb]
  omega

theorem codecEncode_codecDecode (p : PixelCode) : codecEncode (codecDecode p) = p := by
  rw [codecEncode, colourCode_codecDecode, highByte_le16, lowByte_le16]

end Sys2Proof.Machine

open Sys2Proof Sys2Proof.Machine

/-- Settles O33: the code is `colourCode`, whose bytes are the answer in every state. -/
theorem encodeResult : Obligations.EncodeResult := by
  refine ⟨fun r g b rest => decode_opcode .encodeColour (r :: g :: b :: rest), fun r g b s => ?_⟩
  have hexec : exec (.encodeColour ⟨r, g, b⟩) s = .next (s.complete .ok (.code (codecEncode ⟨r, g, b⟩))) := rfl
  refine ⟨(colourCode ⟨r, g, b⟩).toNat, colourCode_toNat _, (colourCode _).isLt, ?_, ?_, ?_⟩
  · rw [hexec, codecEncode_eq_ofNat]
  · rw [← highByte_eq_ofNat, highByte_colourCode]
  · rw [← lowByte_eq_ofNat, lowByte_colourCode]

/-- Settles O34: the colour is `codecDecode` of the two bytes in every state. -/
theorem decodeResult : Obligations.DecodeResult :=
  fun hi lo _ => ⟨codecDecode ⟨hi, lo⟩, rfl, codecDecode_toNat ⟨hi, lo⟩⟩

/-- Settles O35: the code is the three kept fields side by side, and decoding puts them back. -/
theorem codecLaws : Obligations.CodecLaws :=
  ⟨codecDecode_codecEncode, codecEncode_codecDecode, fun _ _ => codecEncode_eq_iff.trans colourCode_eq_iff⟩

end

section
/-! The family of 43_shapes.md: the edge policy and the strict check (R211 to R213), solid buffers (R214), and the shape
operations (R220 to R229). -/

namespace Sys2Proof.Machine

/-! ## What the edge policy and the strict check answer -/

/-- An answer `OK` is the answer of a computation that returned a value. -/
theorem Plan.result_run_ok {α : Type} {f : α → Result} {x : Except Raise α} {s t : State}
    (h : (Plan.result f x).run s = .next t) (ho : Ended .ok t) : ∃ a, x = .ok a ∧ t = s.complete .ok (f a) := by
  cases x with
  | ok a => cases h; exact ⟨a, rfl, rfl⟩
  | error e =>
    cases h
    rw [complete_ended] at ho
    cases e <;> cases ho

theorem edgePolicy_of_exec_ok {x y w h : Int} {r : Rect} {s t : State} (he : exec (.edge x y w h) s = .next t)
    (ho : EndedOk (.rect r) t) : edgePolicy s.screenW s.screenH ⟨x, y, w, h⟩ = .ok r := by
  rw [exec_eq] at he
  obtain ⟨r', hr, rfl⟩ := Plan.result_run_ok he ⟨_, ho⟩
  cases ho
  exact hr

theorem strictCheck_of_exec_ok {x y w h : Int} {s t : State} (he : exec (.strict x y w h) s = .next t)
    (ho : Ended .ok t) : strictCheck s.screenW s.screenH ⟨x, y, w, h⟩ = .ok () := by
  rw [exec_eq] at he
  obtain ⟨_, hr, -⟩ := Plan.result_run_ok he ho
  exact hr

/-! ## The edge policy on the shapes' rectangles -/

/-- One pixel is left from the clamped origin on, so a size of 1 is not truncated. -/
theorem truncate_one (x w0 : Int) : min 1 (w0 - min x (w0 - 1)) = 1 := by omega

/-- A run one pixel high stays one pixel high (43_shapes.md R224). -/
theorem edgePolicy_height_one {w0 h0 x y w : Int} {r : Rect} (h : edgePolicy w0 h0 ⟨x, y, w, 1⟩ = .ok r) :
    r.h = 1 := by
  rw [edgePolicy_eq] at h
  split at h
  · cases h
  · cases h
    exact truncate_one y h0

/-- A single pixel is rejected or clamped, and never truncated (43_shapes.md R222). -/
theorem edgePolicy_pixel (w0 h0 x y : Int) :
    edgePolicy w0 h0 ⟨x, y, 1, 1⟩ =
      if x < 0 ∨ y < 0 ∨ w0 < x ∨ h0 < y then .error .invalidArgument
      else .ok ⟨min x (w0 - 1), min y (h0 - 1), 1, 1⟩ := by
  have hone : ¬ (1 : Int) ≤ 0 := by omega
  simp only [edgePolicy_eq, truncate_one, hone, false_or]

/-- The whole screen is returned as it is (43_shapes.md R228, decision D16). -/
theorem edgePolicy_wholeScreen {s : State} (hi : Inv s) :
    edgePolicy s.screenW s.screenH ⟨0, 0, s.screenW, s.screenH⟩ = .ok ⟨0, 0, s.screenW, s.screenH⟩ := by
  obtain ⟨hw, hh, -⟩ := screen_bounds hi
  have hw : 1 ≤ s.screenW := Int.ofNat_le.mpr hw
  have hh : 1 ≤ s.screenH := Int.ofNat_le.mpr hh
  rw [edgePolicy_eq, if_neg (by dsimp only; omega)]
  simp only [Except.ok.injEq, Rect.mk.injEq]
  omega

/-! ## Solid buffers -/

/-- The buffer of a rectangle that EDGE returns has a code for each of its pixels. -/
theorem solidBuffer_of_edge {w0 h0 : Int} {q r : Rect} (h : edgePolicy w0 h0 q = .ok r) (c : Colour) :
    solidBuffer r.w.toNat r.h.toNat c = rep (r.w * r.h).toNat (codecEncode c) := by
  obtain ⟨hw, hh⟩ := edgePolicy_pos h
  rw [solidBuffer, Int.toNat_mul (by omega) (by omega)]

theorem rep_same (n : Nat) (b : Byte) : rep n ⟨b, b⟩ = List.replicate (2 * n) b := by
  rw [Nat.mul_comm]
  exact List.flatten_replicate_replicate (n := n) (m := 2) (a := b)

/-- Black is the code of two zero bytes (43_shapes.md R229). -/
theorem codecEncode_black : codecEncode ⟨0, 0, 0⟩ = ⟨0, 0⟩ := by decide

/-! ## What the shape operations do in `Ready` -/

section solid

variable {s : State} {q : Rect}

theorem fillProgram_of_edge_error {e : Raise} (h : edgePolicy s.screenW s.screenH q = .error e) (c : Colour) :
    fillProgram q c s = .next (s.complete .invalidArgument .none) := by
  obtain rfl := edgePolicy_error h
  rw [fillProgram, h]
  rfl

theorem fillProgram_of_edge_ok {r : Rect} (h : edgePolicy s.screenW s.screenH q = .ok r) (c : Colour) :
    ∃ t, fillProgram q c s = .next t ∧
      Performs (writeProgram s.cfg s.ds r.x r.y r.w r.h (solidBuffer r.w.toNat r.h.toNat c)) s t := by
  rw [fillProgram, h]
  exact runProgram_performs _ s

end solid

section ready

variable {s : State} (hs : s.fsm = .ready)
include hs

theorem exec_fillrect (x y w h : Word) (c : Colour) :
    exec (.fillrect x y w h c) s = fillProgram ⟨x.toInt, y.toInt, w.toInt, h.toInt⟩ c s := whenReady_ready hs _

theorem exec_drawpixel (x y : Word) (c : Colour) :
    exec (.drawpixel x y c) s = fillProgram ⟨x.toInt, y.toInt, 1, 1⟩ c s := whenReady_ready hs _

theorem exec_drawline (x y len : Word) (c : Colour) :
    exec (.drawline x y len c) s = fillProgram ⟨x.toInt, y.toInt, len.toInt, 1⟩ c s := whenReady_ready hs _

theorem exec_fillscreen (c : Colour) :
    exec (.fillscreen c) s = fillProgram ⟨0, 0, s.screenW, s.screenH⟩ c s := whenReady_ready hs _

/-- FILLSCREEN of a legal machine writes every pixel of the screen (43_shapes.md R228). -/
theorem exec_fillscreen_performs (hi : Inv s) (c : Colour) : ∃ t, exec (.fillscreen c) s = .next t ∧
    Performs (writeProgram s.cfg s.ds 0 0 s.ds.width.toNat s.ds.height.toNat
      (rep (s.ds.width.toNat * s.ds.height.toNat) (codecEncode c))) s t := by
  rw [exec_fillscreen hs]
  exact fillProgram_of_edge_ok (edgePolicy_wholeScreen hi) c

theorem exec_drawimage (x y w h : Word) (img : List Byte) :
    exec (.drawimage x y w h img) s = (imagePlan s.cfg s.ds x.toInt y.toInt w.toInt h.toInt img).run s := by
  rw [exec_eq, planOf, hs]
  rfl

end ready

/-- DRAWIMAGE in closed form: the strict check and the length check reject alike (43_shapes.md R226). -/
theorem imagePlan_eq (c : Cfg) (ds : DeviceState) (x y w h : Int) (img : List Byte) :
    imagePlan c ds x y w h img =
      if x < 0 ∨ y < 0 ∨ w ≤ 0 ∨ h ≤ 0 ∨ x + w > ds.width.toNat ∨ y + h > ds.height.toNat ∨
          (img.length : Int) ≠ 2 * w * h then .raise .invalidArgument
      else .program (writeProgram c ds x y w h img) := by
  rw [imagePlan, strictCheck_eq]
  by_cases hb : x < 0 ∨ y < 0 ∨ w ≤ 0 ∨ h ≤ 0 ∨ x + w > ds.width.toNat ∨ y + h > ds.height.toNat
  · rw [if_pos hb]
    exact (if_pos (by tauto)).symm
  · rw [if_neg hb]
    exact if_congr (by tauto) rfl rfl

end Sys2Proof.Machine

open Sys2Proof Sys2Proof.Machine

/-- Settles O36: EDGE answers its closed form. -/
theorem edgeResult : Obligations.EdgeResult := by
  intro x y w h s
  rw [exec_eq, planOf, edgePolicy_eq]
  split_ifs <;> rfl

/-- Settles O38: STRICT answers its closed form. -/
theorem strictResult : Obligations.StrictResult := by
  intro x y w h s
  rw [exec_eq, planOf, strictCheck_eq]
  split_ifs <;> rfl

/-- Settles O37: an answer `OK` is that of the edge policy or of the strict check, and both lie on the screen. -/
theorem edgeAndStrictStayOnScreen : Obligations.EdgeAndStrictStayOnScreen := fun _ _ _ _ _ _ hi =>
  ⟨fun _ he ho => edgePolicy_onScreen hi (edgePolicy_of_exec_ok he ho),
   fun he ho => strictCheck_onScreen (strictCheck_of_exec_ok he ho)⟩

/-- Settles O39: the buffer is the code repeated. -/
theorem solidResult : Obligations.SolidResult := fun w h c _ =>
  ⟨solidBuffer w h c, rfl, (rep_length _ _).trans (Nat.mul_assoc 2 w h).symm, rep_get (w * h) (codecEncode c)⟩

/-- Settles O40: in `Ready` FILLRECT fills what EDGE makes of its rectangle. -/
theorem fillrectResult : Obligations.FillrectResult := by
  intro x y w h c s hs
  rw [exec_fillrect hs]
  refine ⟨fun e he => fillProgram_of_edge_error he c, fun r hr => ?_⟩
  rw [← solidBuffer_of_edge hr]
  exact fillProgram_of_edge_ok hr c

/-- Settles O41: in `Ready` DRAWPIXEL fills one pixel, which EDGE rejects or clamps. -/
theorem drawpixelResult : Obligations.DrawpixelResult := by
  intro x y c s hs
  rw [exec_drawpixel hs]
  have hedge := edgePolicy_pixel s.screenW s.screenH x.toInt y.toInt
  split
  next hr => exact fillProgram_of_edge_error (hedge.trans (if_pos hr)) c
  next hr => exact fillProgram_of_edge_ok (hedge.trans (if_neg hr)) c

/-- Settles O42: in `Ready` DRAWLINE fills a rectangle whose height EDGE leaves at 1. -/
theorem drawlineResult : Obligations.DrawlineResult := by
  intro x y len c s hs
  rw [exec_drawline hs]
  refine ⟨fun e he => fillProgram_of_edge_error he c, fun r hr => ?_⟩
  have hbuf := solidBuffer_of_edge hr c
  have hfill := fillProgram_of_edge_ok hr c
  rwa [hbuf, edgePolicy_height_one hr, Int.mul_one] at hfill

/-- Settles O43: EDGE returns the whole screen as it is, and CLEAR is FILLSCREEN of black, whose code is two zeros. -/
theorem fillscreenAndClearResult : Obligations.FillscreenAndClearResult := by
  refine ⟨fun c s hi hs => exec_fillscreen_performs hs hi c, fun s => rfl, fun s hi hs => ?_⟩
  have hfill := exec_fillscreen_performs hs hi ⟨0, 0, 0⟩
  rwa [codecEncode_black, rep_same, ← Nat.mul_assoc] at hfill

/-- Settles O44: in `Ready` DRAWIMAGE runs its closed form. -/
theorem drawimageResult : Obligations.DrawimageResult := by
  intro x y w h img s hs
  rw [exec_drawimage hs, imagePlan_eq]
  split_ifs
  · rfl
  · exact runProgram_performs _ s

end

section
/-! The family of 44_text.md: the font header and directory (R251, R253), measuring (R252, R254), the text area (R262,
R263), placing a glyph (R264), the starting offsets (R261) and the area DRAWTEXT sends (R270). -/

namespace Sys2Proof.Machine

/-! ## The directory entry in closed form -/

theorem dirEntry_out {c : Cfg} {font : List Byte} {h : FontHdr} {code : Word}
    (hout : code.toNat < h.first.toNat ∨ h.last.toNat < code.toNat) :
    dirEntry c font h code = .error .glyphError := if_pos hout

/-- The entry of a code in the range is there when the table holds its last byte (20_memory.md R70). -/
theorem dirEntry_ok {c : Cfg} {font : List Byte} {h : FontHdr} {code : Word}
    (hin : ¬ (code.toNat < h.first.toNat ∨ h.last.toNat < code.toNat)) (hlen : dirAddr c h code + 4 ≤ font.length) :
    dirEntry c font h code = .ok ((font.getD (dirAddr c h code) 0).toNat, bitmapBase c h +
      ((font.getD (dirAddr c h code + 1) 0).toNat + 256 * (font.getD (dirAddr c h code + 2) 0).toNat +
        65536 * (font.getD (dirAddr c h code + 3) 0).toNat)) := by
  have read (k : Nat) (hk : k < 4) : fontRead font (dirAddr c h code + k) = .ok (font.getD (dirAddr c h code + k) 0) :=
    fontRead_lt (by omega)
  have read0 := read 0 (by decide)
  rw [Nat.add_zero] at read0
  rw [dirEntry, if_neg hin, read0, read 1 (by decide), read 2 (by decide), read 3 (by decide), ← le24_eq]

/-- A table that ends before the last byte of an entry does not hold the entry. -/
theorem dirEntry_short {c : Cfg} {font : List Byte} {h : FontHdr} {code : Word}
    (hin : ¬ (code.toNat < h.first.toNat ∨ h.last.toNat < code.toNat)) (hlen : font.length < dirAddr c h code + 4) :
    dirEntry c font h code = .error .fontError := by
  have hlast : fontRead font (dirAddr c h code + 3) = .error .fontError := fontRead_ge (by omega)
  rw [dirEntry, if_neg hin]
  split
  next hread => exact absurd (hlast.symm.trans hread) nofun
  next => rfl

/-! ## The operations that compute and answer -/

section answers

variable {α : Type} {i : Instr} {s : State} {f : α → Result} {x : Except Raise α}
  (hp : planOf i s.cfg s.ds s.fsm = .result f x)
include hp

theorem exec_of_result_ok {a : α} (hx : x = .ok a) : exec i s = .next (s.complete .ok (f a)) := by
  rw [exec_eq, hp, hx]; rfl

theorem exec_of_result_error {e : Raise} (hx : x = .error e) : exec i s = .next (s.complete e.status .none) := by
  rw [exec_eq, hp, hx]; rfl

end answers

/-- Under a good header MEASURE computes what TEXTWIDTH does (44_text.md R254). -/
theorem measureText_of_header {c : Cfg} {font : List Byte} {h : FontHdr} (hh : fontHeader font = .ok h)
    (txt : List Word) : measureText c txt font = textWidth c font h txt := by
  rw [measureText, hh]

theorem measureText_of_header_error {c : Cfg} {font : List Byte} {e : Raise} (hh : fontHeader font = .error e)
    (txt : List Word) : measureText c txt font = .error e := by
  rw [measureText, hh]

/-- MEASURE answers as TEXTWIDTH does (44_text.md R254). -/
theorem exec_measure_of_header {s : State} {font : List Byte} {h : FontHdr} (hh : fontHeader font = .ok h)
    (txt : List Word) : exec (.measure txt font) s = exec (.textwidth txt font h) s := by
  rw [exec_eq, exec_eq, planOf, planOf, measureText_of_header hh]

/-! ## Starting offsets -/

theorem alignOffset_right_of_le {bw tw : Int} (h : tw ≤ bw) : (alignOffset .right bw tw : Int) + tw = bw := by
  simp only [alignOffset]; omega

theorem alignOffset_right_of_lt {bw tw : Int} (h : bw < tw) : alignOffset .right bw tw = 0 := by
  simp only [alignOffset]; omega

/-- A row is centred as a text is (44_text.md R261). -/
theorem alignOffset_center (bw tw : Int) : alignOffset .center bw tw = rowOffset bw tw := rfl

theorem rowOffset_of_le {bh gh : Int} (h : gh ≤ bh) :
    2 * (rowOffset bh gh : Int) ≤ bh - gh ∧ bh - gh ≤ 2 * (rowOffset bh gh : Int) + 1 := by
  simp only [rowOffset]; omega

theorem rowOffset_of_lt {bh gh : Int} (h : bh < gh) : rowOffset bh gh = 0 := by
  simp only [rowOffset]; omega

end Sys2Proof.Machine

open Sys2Proof Sys2Proof.Machine

/-- Settles O50: out of the range, cut short by the table's end, or read from its four bytes. -/
theorem direntResult : Obligations.DirentResult := by
  intro font h code s e
  split_ifs with hout hlen
  · exact exec_of_result_error rfl (dirEntry_out hout)
  · exact exec_of_result_error rfl (dirEntry_short hout hlen)
  · exact exec_of_result_ok (i := .dirent font h code) (s := s) rfl (dirEntry_ok hout (Nat.le_of_not_lt hlen))

/-- Settles O51: the width is the closed form of the entries, or the first error in text order. -/
theorem textwidthResult : Obligations.TextwidthResult :=
  ⟨fun _ _ _ => exec_of_result_ok rfl rfl, fun _ _ _ _ _ hg => exec_of_result_ok rfl (textWidth_ok hg),
   fun _ _ _ _ _ _ _ _ hg he => exec_of_result_error rfl (textWidth_error hg he)⟩

/-- Settles O52: a bad header is a `FontError`, and under a good one MEASURE is TEXTWIDTH. -/
theorem measureResult : Obligations.MeasureResult := by
  refine fun txt font s => ⟨fun e he => ?_, fun h hh => exec_measure_of_header hh txt, fun h n hh hw => ?_⟩
  · obtain rfl := fontHeader_error he
    exact exec_of_result_error rfl (measureText_of_header_error he txt)
  · exact exec_of_result_ok rfl ((measureText_of_header hh txt).trans hw)

/-- Settles O53: the areas are `areaAlloc` and `areaResize`, and a well-formed area's pixels are its buffer's. -/
theorem textAreaAllocAndGrow : Obligations.TextAreaAllocAndGrow :=
  ⟨fun w h bg _ => ⟨areaAlloc w h bg, rfl, rfl, rfl, areaAlloc_wf w h bg, areaAlloc_pixel w h bg⟩,
   fun ta nw nh bg _ => ⟨areaResize ta nw nh bg, rfl, areaResize_spec ta nw nh bg⟩,
   fun _ _ _ hwf => areaPixel_wf hwf⟩

/-- Settles O54: nothing is placed, the bitmap reads raise, or the area is grown and stamped. -/
theorem placeResult : Obligations.PlaceResult := by
  refine fun ta cx cy gw gh gbase fg bg font s => ⟨fun h0 => ?_, fun hn hs => ?_, fun hw hb => ?_⟩
  · exact exec_of_result_ok rfl (h0 ▸ placeGlyph_zero ta cx cy gh gbase fg bg font)
  · exact exec_of_result_error rfl (placeGlyph_error hn hs)
  · obtain ⟨ta', hp, hspec⟩ := placeGlyph_ok (ta := ta) (cx := cx) (cy := cy) (fg := fg) (bg := bg) hw hb
    exact ⟨ta', exec_of_result_ok rfl hp, hspec⟩

/-- Settles O56: the area is the allocated box with the text placed into it, and outside the glyphs the box
and its growth are background. -/
theorem textAreaHoldsItsGlyphs : Obligations.TextAreaHoldsItsGlyphs := by
  intro o c ds ta hl
  obtain ⟨h, tw, hh, hw, -, hc, -⟩ := TextOp.layout_ok hl
  obtain ⟨hwf, hw1, hh1, hx, hy, hxw, hyh⟩ := TextOp.layout_spec hl
  obtain ⟨gs, hg⟩ := forall2_of_textWidth hw
  have htw : tw = (gs.map Prod.fst).sum + o.txt.length - 1 := Except.ok.inj (hw.symm.trans (textWidth_ok hg))
  have hp := placeText_spec hg (areaAlloc_wf _ _ _) hc
  refine ⟨h, gs, tw, hh, hg, htw, hwf, hw1, hh1, hx, hy, hxw, hyh, hp.w, hp.h, hp.glyph, fun p q hpw hqh hn => ?_,
    hp.grewW, hp.grewH⟩
  rw [hp.rest p q hpw hqh hn]
  split
  next hbox => exact areaAlloc_pixel _ _ _ p q hbox.1 hbox.2
  next => rfl

/-- Settles O49: the header's closed form. -/
theorem fonthdrResult : Obligations.FonthdrResult := by
  intro font s first last
  rw [exec_eq, planOf, fontHeader_eq]
  split_ifs <;> rfl

/-- Settles O55: right and center by the surplus, which center and the row halve alike. -/
theorem textOffsets : Obligations.TextOffsets := by
  intro bw tw
  rw [alignOffset_center]
  exact ⟨rfl, rfl, alignOffset_right_of_le, rowOffset_of_le, rowOffset_of_le,
    fun hlt => ⟨alignOffset_right_of_lt hlt, rowOffset_of_lt hlt, rowOffset_of_lt hlt⟩⟩

end

section
/-! The family of 45_wire_observer.md: the window and its stream (R305, R306), what stores nothing (R303, R304), and what
the observer makes of a wire command alone (R303, R304, log 11). -/

namespace Sys2Proof.Machine

/-! ## A rectangle filled (45_wire_observer.md R306) -/

/-- The pixel of a row-major buffer of rows of `w` pixels. -/
def bufferPixel (buf : List Byte) (w col row : Nat) : PixelCode :=
  ⟨buf.getD (2 * (row * w + col)) 0, buf.getD (2 * (row * w + col) + 1) 0⟩

/-- The operation ended `OK`, every cell of the rectangle holds its pixel, and every other byte of the frame memory is as
it was. -/
structure FillsRect (r : Rect) (pixel : Nat → Nat → PixelCode) (s t : State) : Prop where
  ok    : EndedOk .none t
  cells : ∀ x y : Nat, x < r.w.toNat → y < r.h.toNat →
    t.panel.gram.pixel (BitVec.ofNat 16 (s.ds.colstart.toNat + r.x.toNat + x))
      (BitVec.ofNat 16 (s.ds.rowstart.toNat + r.y.toNat + y)) = some (pixel x y)
  rest  : SameOutsideRect r s t

theorem FillsRect.congr {r : Rect} {pixel pixel' : Nat → Nat → PixelCode} {s t : State} (h : FillsRect r pixel s t)
    (heq : ∀ x y, x < r.w.toNat → y < r.h.toNat → pixel x y = pixel' x y) : FillsRect r pixel' s t :=
  ⟨h.ok, fun x y hx hy => heq x y hx hy ▸ h.cells x y hx hy, h.rest⟩

/-- A cell's coordinate, counted from a word. -/
theorem ofNat_toNat_add (v : Word) (n : Nat) : BitVec.ofNat 16 (v.toNat + n) = v + BitVec.ofNat 16 n := by
  rw [BitVec.ofNat_add, BitVec.ofNat_toNat, BitVec.setWidth_eq]

section write

variable {s t : State} {r : Rect} {buf : List Byte} (hi : Inv s) (ho : OnScreen s r)
  (hb : (buf.length : Int) = 2 * r.w * r.h) (hn : s.NoFailure)
include hi ho hb hn

/-- On the screen every panel coordinate is a 16-bit value, so a write performed whole fills its cells. -/
theorem Performs.fillsRect (h : Performs (writeProgram s.cfg s.ds r.x r.y r.w r.h buf) s t) :
    FillsRect r (bufferPixel buf r.w.toNat) s t := by
  obtain ⟨hok, -, -, -, -, hcells, hrest, -⟩ := h.fills hi ho hb hn
  obtain ⟨-, -, -, -, hcols, hrows⟩ := screen_bounds hi
  obtain ⟨hx, hy, hw, hh, hxw, hyh⟩ := ho
  refine ⟨hok, fun x y hlx hly => hcells _ _ x y hlx hly ?_ ?_, hrest⟩ <;>
    rw [BitVec.toNat_ofNat, Nat.mod_eq_of_lt (by omega)]

end write

/-! ## The buffers of the drawing operations -/

theorem solidBuffer_length {r : Rect} (hw : 0 ≤ r.w) (hh : 0 ≤ r.h) (c : Colour) :
    ((solidBuffer r.w.toNat r.h.toNat c).length : Int) = 2 * r.w * r.h := by
  rw [solidBuffer, rep_length, Int.mul_assoc]
  push_cast
  rw [Int.toNat_of_nonneg hw, Int.toNat_of_nonneg hh]

theorem bufferPixel_solid {w h x y : Nat} (c : Colour) (hx : x < w) (hy : y < h) :
    bufferPixel (solidBuffer w h c) w x y = codecEncode c := by
  obtain ⟨hhi, hlo⟩ := rep_get (w * h) (codecEncode c) _ (cell_lt hx hy)
  rw [bufferPixel, solidBuffer, List.getD_eq_getElem?_getD, List.getD_eq_getElem?_getD, hhi, hlo]
  rfl

/-! ## The drawing operations -/

section drawing

variable {s : State} {r : Rect} (hi : Inv s) (hs : s.fsm = .ready) (hn : s.NoFailure)

include hs in
/-- A solid operation in `Ready` fills what EDGE makes of its rectangle (43_shapes.md R210). -/
theorem exec_of_fillColour {i : Instr} {c : Colour} (hc : fillColour i = some c) :
    ∃ q, exec i s = fillProgram q c s ∧ drawnRect s i = (edgePolicy s.screenW s.screenH q).toOption := by
  cases i with
  | clear | fillscreen | fillrect | drawpixel | drawline => cases hc; exact ⟨_, whenReady_ready hs _, rfl⟩
  | _ => cases hc

include hs in
/-- DRAWIMAGE of an image of the rectangle's size, on the screen, passes both checks (43_shapes.md R226). -/
theorem exec_drawimage_performs {x y w h : Word} {img : List Byte}
    (ho : OnScreen s ⟨x.toInt, y.toInt, w.toInt, h.toInt⟩) (hl : (img.length : Int) = 2 * w.toInt * h.toInt) :
    ∃ t, exec (.drawimage x y w h img) s = .next t ∧
      Performs (writeProgram s.cfg s.ds x.toInt y.toInt w.toInt h.toInt img) s t := by
  obtain ⟨hx, hy, hw, hh, hxw, hyh⟩ := ho
  dsimp only at hx hy hw hh hxw hyh
  rw [exec_drawimage hs, imagePlan_eq, if_neg (by omega)]
  exact runProgram_performs _ s

/-- DRAWIMAGE draws only a rectangle of the image's size (43_shapes.md R226). -/
theorem drawnRect_drawimage {x y w h : Word} {img : List Byte} (hr : drawnRect s (.drawimage x y w h img) = some r) :
    (img.length : Int) = 2 * w.toInt * h.toInt ∧ r = ⟨x.toInt, y.toInt, w.toInt, h.toInt⟩ := by
  simp only [drawnRect] at hr
  split at hr
  next hl =>
    obtain ⟨-, -, hrect⟩ := Option.map_eq_some_iff.mp hr
    exact ⟨hl, hrect.symm⟩
  next => cases hr

include hi hs hn

theorem exec_solid_fillsRect {i : Instr} {c : Colour} (hc : fillColour i = some c) (hr : drawnRect s i = some r) :
    ∃ t, exec i s = .next t ∧ FillsRect r (fun _ _ => codecEncode c) s t := by
  have ho := drawnRect_onScreen hi hr
  have ⟨_, _, hw, hh, _⟩ := ho
  obtain ⟨q, he, hq⟩ := exec_of_fillColour hs hc
  obtain ⟨t, ht, hp⟩ := fillProgram_of_edge_ok (eq_ok_of_toOption (hq.symm.trans hr)) c
  have hf := hp.fillsRect hi ho (solidBuffer_length (by omega) (by omega) c) hn
  exact ⟨t, he.trans ht, hf.congr fun _ _ => bufferPixel_solid c⟩

theorem exec_drawimage_fillsRect {x y w h : Word} {img : List Byte}
    (hr : drawnRect s (.drawimage x y w h img) = some r) : r = ⟨x.toInt, y.toInt, w.toInt, h.toInt⟩ ∧
    ∃ t, exec (.drawimage x y w h img) s = .next t ∧ FillsRect r (bufferPixel img r.w.toNat) s t := by
  have ho := drawnRect_onScreen hi hr
  obtain ⟨hl, rfl⟩ := drawnRect_drawimage hr
  obtain ⟨t, ht, hp⟩ := exec_drawimage_performs hs ho hl
  exact ⟨rfl, t, ht, hp.fillsRect hi ho hl hn⟩

theorem exec_drawtext_fillsRect {fl al : Byte} {x y w h : Word} {fg bg : Colour} {txt : List Word} {font : List Byte}
    (hr : drawnRect s (.drawtext fl x y w h al fg bg txt font) = some r) :
    ∃ (o : TextOp) (ta : TextArea), textOperands fl x y w h al fg bg txt font = .ok o ∧
      o.layout s.cfg s.ds = .ok ta ∧ r = ⟨o.x, o.y, ta.w, ta.h⟩ ∧
      ∃ t, exec (.drawtext fl x y w h al fg bg txt font) s = .next t ∧ FillsRect r (areaPixel ta) s t := by
  have ho := drawnRect_onScreen hi hr
  simp only [drawnRect] at hr
  split at hr
  next => cases hr
  next o hop =>
    obtain ⟨ta, hl, rfl⟩ := Option.map_eq_some_iff.mp hr
    have hl := eq_ok_of_toOption hl
    obtain ⟨hwf, -⟩ := TextOp.layout_spec hl
    have hb : (ta.buf.length : Int) = 2 * (ta.w : Int) * ta.h := by exact_mod_cast (TextArea.wf_iff ta).mp hwf
    obtain ⟨t, ht, hp⟩ := exec_drawtext_of_layout hs hop hl
    refine ⟨o, ta, hop, hl, rfl, t, ht, (hp.fillsRect hi ho hb hn).congr fun a b ha hb => ?_⟩
    exact (areaPixel_wf hwf ha hb).symm

end drawing

/-! ## A data bracket or a command cut short -/

/-- What was performed of a data bracket is read as some of its first bytes. -/
theorem Truncated.data_bytes {bs : List Byte} {ys : List Item} (h : Truncated ys [.data bs]) (c : Cfg) (p : Panel) :
    ∃ n, p.readAll c ys = p.read c (.data (bs.take n)) := by
  cases h with
  | none => exact ⟨0, rfl⟩
  | bytes n => exact ⟨n, rfl⟩
  | cons _ h => cases h; exact ⟨bs.length, by rw [List.take_length]; rfl⟩

/-- What was performed of a command with its data is read as nothing, or as the command and some of its first bytes. -/
theorem Truncated.command_bytes {code : Byte} {bs : List Byte} {ys : List Item} (h : Truncated ys (commandItems code bs))
    (c : Cfg) (p : Panel) :
    p.readAll c ys = p ∨ ∃ n, p.readAll c ys = (p.command c code).read c (.data (bs.take n)) := by
  cases h with
  | none => exact .inl rfl
  | cons _ h =>
    refine .inr ?_
    split at h
    next => cases h; exact ⟨0, rfl⟩
    next => exact h.data_bytes c (p.command c code)

/-- A command with its data, read whole. -/
theorem Panel.readAll_command (c : Cfg) (p : Panel) (code : Byte) (data : List Byte) :
    p.readAll c (commandItems code data) = (p.command c code).read c (.data data) := by
  have h := Panel.readAll_entry (c := c) (p := p) ⟨code, data, 0⟩
  rwa [entryItems, Panel.readAll_append, Panel.readAll_delay] at h

/-! ## What a lone stream and a wire command perform -/

theorem performs_of_runProgram {es : List WireEvent} {s t : State} (h : runProgram es s = .next t) :
    Performs es s t := by
  obtain ⟨u, hu, hp⟩ := runProgram_performs es s
  cases hu.symm.trans h
  exact hp

/-- The plan of a wire command is its code and its data; nothing else has a name and data. -/
theorem planOf_of_parts {c : Cfg} {i : Instr} {k : WireCmd} {data : List Byte} (h : wireParts c i = some (k, data))
    (ds : DeviceState) (f : Fsm) : planOf i c ds f = .program (commandProgram (c.code k) data) := by
  cases i <;> cases h <;> rfl

/-- A wire command performs the frames of its code and its data (30_encoding.md R110). -/
theorem wire_performs {i : Instr} {k : WireCmd} {data : List Byte} {s t : State}
    (hw : wireParts s.cfg i = some (k, data)) (h : exec i s = .next t) :
    Performs (commandProgram (s.cfg.code k) data) s t := by
  rw [exec_eq, planOf_of_parts hw] at h
  exact performs_of_runProgram h

/-- Whatever the transport answers, the observer has read nothing of a wire command, or the command and some of its data
bytes. -/
theorem wire_panel {i : Instr} {k : WireCmd} {data : List Byte} {s t : State}
    (hw : wireParts s.cfg i = some (k, data)) (h : exec i s = .next t) : t.panel = s.panel ∨
    ∃ n, t.panel = (s.panel.command s.cfg (s.cfg.code k)).read s.cfg (.data (data.take n)) := by
  obtain ⟨ys, ht, hp⟩ := (wire_performs hw h).panel (commandProgram_items _ _)
  rw [hp]
  exact ht.command_bytes s.cfg s.panel

/-- A wire command sent without failure is read whole. -/
theorem wire_panel_of_noFailure {i : Instr} {k : WireCmd} {data : List Byte} {s t : State} (hn : s.NoFailure)
    (hw : wireParts s.cfg i = some (k, data)) (h : exec i s = .next t) :
    t.panel = (s.panel.command s.cfg (s.cfg.code k)).read s.cfg (.data data) := by
  obtain ⟨⟨⟨-, -, hp, -⟩, -⟩, -⟩ := (wire_performs hw h).ok (performed_noFailure hn _)
  rw [hp, commandProgram_items, watch_items, Panel.readAll_command]

/-- Whatever the transport answers, the observer has read some of the bytes of a lone data bracket. -/
theorem dataFrame_panel {i : Instr} {bs : List Byte} {s t : State} (hi : i = .senddata bs ∨ i = .stream bs)
    (h : exec i s = .next t) : ∃ n, t.panel = s.panel.read s.cfg (.data (bs.take n)) := by
  have he : exec i s = runProgram (dataFrame bs) s := by rcases hi with rfl | rfl <;> rfl
  have hperf := performs_of_runProgram (he.symm.trans h)
  obtain ⟨ys, ht, hp⟩ := hperf.panel (xs := [.data bs]) (List.append_nil _).symm
  rw [hp]
  exact ht.data_bytes s.cfg s.panel

/-! ## Where a stream stores -/

section stream

variable {c : Cfg} {p : Panel} (hc : c.wf = true)
include hc

/-- Data bytes after memory-write store only in the window, when the pointer stands in it. -/
theorem Panel.read_data_outside (hl : p.lastcmd = some (c.code .ramwr)) (h1 : p.xs ≤ p.px) (h2 : p.px ≤ p.xe)
    (h3 : p.ys ≤ p.py) (h4 : p.py ≤ p.ye) (bs : List Byte) :
    GramOutside p.xs.toNat (p.xe.toNat + 1) p.ys.toNat (p.ye.toNat + 1) p.gram (p.read c (.data bs)).gram :=
  (Panel.stream_within hc hl ⟨rfl, rfl, rfl, rfl, h1, h2, h3, h4⟩ bs).2

/-- Memory-write puts the pointer in the window, and its data bytes store only there. -/
theorem Panel.ramwr_data_outside (hx : p.xs ≤ p.xe) (hy : p.ys ≤ p.ye) (bs : List Byte) :
    GramOutside p.xs.toNat (p.xe.toNat + 1) p.ys.toNat (p.ye.toNat + 1) p.gram
      ((p.command c (c.code .ramwr)).read c (.data bs)).gram := by
  rw [Panel.command_ramwr]
  exact Panel.read_data_outside (p := { p.latch c (c.code .ramwr) with px := p.xs, py := p.ys }) hc rfl
    (BitVec.le_refl _) hx (BitVec.le_refl _) hy bs

end stream

/-! ## What the observer makes of a command (45_wire_observer.md R303, R304) -/

section command

variable {c : Cfg} {p : Panel} (hc : c.wf = true)
include hc

theorem code_beq (k j : WireCmd) : (c.code k == c.code j) = (k == j) :=
  Bool.eq_iff_iff.mpr (by simp only [beq_iff_eq, Cfg.code_eq hc])

/-- What a command other than software-reset sets besides what every command does. -/
theorem Panel.command_eq {k : WireCmd} (hk : k ≠ .swreset) : p.command c (c.code k) =
    { p.latch c (c.code k) with
      inv := if k = .invon then true else if k = .invoff then false else p.inv
      disp := if k = .dispon then true else if k = .dispoff then false else p.disp
      px := if k = .ramwr then p.xs else p.px
      py := if k = .ramwr then p.ys else p.py } := by
  cases k with
  | swreset => exact absurd rfl hk
  | _ => simp [Panel.command, Panel.latch, Cfg.code_eq hc]

theorem Panel.command_lastcmd_ne {k j : WireCmd} (h : k ≠ j) :
    (p.command c (c.code k)).lastcmd ≠ some (c.code j) := by
  rw [Panel.command_lastcmd]
  exact fun e => h (Cfg.code_inj hc (Option.some.inj e))

omit hc in
/-- Column-address-set with its four data bytes sets the columns. -/
theorem Panel.caset_bounds (a b : Word) :
    ((p.command c (c.code .caset)).read c (.data (be16Bytes a ++ be16Bytes b))).xs = a ∧
    ((p.command c (c.code .caset)).read c (.data (be16Bytes a ++ be16Bytes b))).xe = b := by
  have hr := Panel.read_caset (c := c) (p := p.command c (c.code .caset)) (by simp) (by simp) (highByte a) (lowByte a)
    (highByte b) (lowByte b)
  rw [le16_split, le16_split] at hr
  exact ⟨congrArg Panel.xs hr, congrArg Panel.xe hr⟩

/-- Row-address-set with its four data bytes sets the rows. -/
theorem Panel.raset_bounds (a b : Word) :
    ((p.command c (c.code .raset)).read c (.data (be16Bytes a ++ be16Bytes b))).ys = a ∧
    ((p.command c (c.code .raset)).read c (.data (be16Bytes a ++ be16Bytes b))).ye = b := by
  have hr := Panel.read_raset (p := p.command c (c.code .raset)) hc (by simp) (by simp) (highByte a) (lowByte a)
    (highByte b) (lowByte b)
  rw [le16_split, le16_split] at hr
  exact ⟨congrArg Panel.ys hr, congrArg Panel.ye hr⟩

end command

end Sys2Proof.Machine

open Sys2Proof Sys2Proof.Machine

/-- Settles O46: what was performed of the operation's items sends no data byte to an armed panel. -/
theorem nonDrawingKeepsTheFrameMemory : Obligations.NonDrawingKeepsTheFrameMemory := fun _ _ _ => exec_sameFrame

/-- Settles O32: the window's stream fills the window row by row, and the last pixel sends the pointer back. -/
theorem writewinFillsTheWindow : Obligations.WritewinFillsTheWindow := by
  intro r buf s hi ho hb hn
  obtain ⟨t, ht, hp⟩ := runProgram_performs (writeProgram s.cfg s.ds r.x r.y r.w r.h buf) s
  obtain ⟨hok, hxs, hxe, hys, hye, -, hrest, harmed, hpx, hpy, hhalf⟩ := hp.fills hi ho hb hn
  refine ⟨t, ht, hok, hxs, hxe, hys, hye, fun col row hcol hrow => ?_, hrest, harmed, hpx, hpy, hhalf⟩
  have hcell := (hp.fillsRect hi ho hb hn).cells col row hcol hrow
  rwa [← hxs, ← hys, ofNat_toNat_add, ofNat_toNat_add] at hcell

/-- Settles O45: each drawing operation writes the buffer of its rectangle's pixels. -/
theorem drawingFillsItsRectangle : Obligations.DrawingFillsItsRectangle := by
  intro i r s hi hs hn hr
  cases i with
  | clear | fillscreen | fillrect | drawpixel | drawline =>
    obtain ⟨t, ht, hok, hcells, hrest⟩ := exec_solid_fillsRect hi hs hn rfl hr
    exact ⟨t, _, ht, hok, hcells, hrest, fun col hcol _ _ => by cases hcol; rfl, nofun, nofun⟩
  | drawimage =>
    obtain ⟨hrect, t, ht, hok, hcells, hrest⟩ := exec_drawimage_fillsRect hi hs hn hr
    refine ⟨t, _, ht, hok, hcells, hrest, nofun, fun x y w h img he => ?_, nofun⟩
    cases he
    exact ⟨hrect, fun _ _ => rfl⟩
  | drawtext =>
    obtain ⟨o, ta, hop, hl, hrect, t, ht, hok, hcells, hrest⟩ := exec_drawtext_fillsRect hi hs hn hr
    refine ⟨t, _, ht, hok, hcells, hrest, nofun, nofun, fun fl al x y w h fg bg txt font he => ?_⟩
    cases he
    exact ⟨o, ta, hop, hl, hrect, fun _ _ _ _ => rfl⟩
  | _ => cases hr

/-- Settles O48: what was performed of a stream is some of its first bytes, and they store at the pointer, which stays in
the window. -/
theorem rawStreamsStayInTheWindow : Obligations.RawStreamsStayInTheWindow := by
  refine ⟨fun r buf s t hi ho _ h => Plan.write_sameOutsideRect hi ho (exec_eq _ s ▸ h), fun i bs s t hb h => ?_,
    fun px s t hc hx hy h => ?_⟩
  · obtain ⟨n, hp⟩ := dataFrame_panel hb h
    refine ⟨fun hl a => ?_, fun h1 h2 h3 h4 hl hc a ha => ?_⟩
    · rw [hp, Panel.read, Panel.foldData_gram hl]
    · rw [hp]
      exact Panel.read_data_outside hc hl h1 h2 h3 h4 _ a ha
  · intro a ha
    obtain hp | ⟨n, hp⟩ := wire_panel (k := .ramwr) rfl h
    · rw [hp]
    · rw [hp]
      exact Panel.ramwr_data_outside hc hx hy _ a ha

/-- Settles O59: the observer reads the command and then all of its data bytes, which change only what R304 gives to their
command. -/
theorem wireCommandObserver : Obligations.WireCommandObserver := by
  intro i k data s t hc hn hw h
  have hp := wire_panel_of_noFailure hn hw h
  have hd : Same s.cfg (s.panel.command s.cfg (s.cfg.code k)) t.panel data := hp ▸ fold_same hc data
  have hne {j : WireCmd} := Panel.command_lastcmd_ne (p := s.panel) hc (k := k) (j := j)
  refine ⟨?_, ?_, ?_, fun hk => ?_, fun hk => ?_, ?_, ?_, ?_, ?_⟩
  · rw [hp, Panel.read, Panel.foldData_lastcmd, Panel.command_lastcmd]
  · rw [hd.params, Panel.command_params, List.nil_append]
  · rw [hd.armed, Panel.command_armed, code_beq hc]
  · have he := Panel.command_eq (p := s.panel) hc hk
    refine ⟨by rw [hd.inv, he], by rw [hd.disp, he], fun hm => ?_, fun hm => ?_, fun hm => ?_, fun hm => ?_⟩
    · rw [hd.mad (hne hm), he]; rfl
    · obtain ⟨h1, h2⟩ := hd.xs (hne hm)
      rw [h1, h2, he]
      exact ⟨rfl, rfl⟩
    · obtain ⟨h1, h2⟩ := hd.ys (hne hm)
      rw [h1, h2, he]
      exact ⟨rfl, rfl⟩
    · obtain ⟨h1, h2, -⟩ := hd.pt (hne hm)
      rw [h1, h2, he]
      exact ⟨if_neg hm, if_neg hm⟩
  · rw [(hd.pt (hne hk)).2.2, Panel.command_half]
  · rintro rfl
    cases hw
    rw [hp, Panel.command_ramwr]
    exact ⟨rfl, rfl, rfl⟩
  · rintro b rfl
    cases hw
    rw [hp, Panel.read_madctl hc (by simp) (by simp)]
  · rintro a b rfl
    cases hw
    rw [hp]
    exact Panel.caset_bounds a b
  · rintro a b rfl
    cases hw
    rw [hp]
    exact Panel.raset_bounds hc a b

end

section
/-! The family of 60_exceptions.md: what an error raised before the first event leaves (R326), what a `TransportError`
leaves (R328), and the mark of a faulted run (R329). -/

namespace Sys2Proof.Machine

/-! ## How an operation ends -/

/-- An operation ends in one of three ways: it answers with no event emitted and nothing else changed; it performs its whole
program; or an event of its program fails. -/
theorem exec_ends {i : Instr} {s t : State} (h : exec i s = .next t) :
    (∃ st r, (Plan.answer st r).fits i s.fsm ∧ t = s.complete st r) ∨
    (EndedOk .none t ∧ t.faulted = if resetsEngine i then false else s.faulted) ∨
    (t.completion = some ⟨.transportError, .none⟩ ∧ t.faulted = true ∧
      ∃ pl : Plan, pl.fits i s.fsm ∧ pl.resets = resetsEngine i ∧ pl.Stopped s t) := by
  have hfit := planOf_fits i s.cfg s.ds s.fsm
  rw [exec_eq] at h
  obtain ⟨st, r, hp, ht⟩ | ⟨hn, -, -, -, -, hm, ho⟩ | ⟨hlt, -, -, hm, hc, hs⟩ := Plan.run_next h
  · exact .inl ⟨st, r, hp ▸ hfit, ht⟩
  · exact .inr (.inl ⟨ho, by rw [hm, hfit.resets_eq hn]⟩)
  · have hn (st : Status) (r : Result) : planOf i s.cfg s.ds s.fsm ≠ .answer st r := by
      intro hp
      rw [hp] at hlt
      exact Nat.not_lt_zero _ hlt
    exact .inr (.inr ⟨hc, hm, _, hfit, hfit.resets_eq hn, hs⟩)

/-- An operation that ends with a `TransportError` has marked the run, and has stopped in its plan. -/
theorem exec_transportError {i : Instr} {s t : State} (h : exec i s = .next t) (he : Ended .transportError t) :
    t.faulted = true ∧ ∃ pl : Plan, pl.fits i s.fsm ∧ pl.resets = resetsEngine i ∧ pl.Stopped s t := by
  obtain ⟨st, r, ⟨hst, -, -⟩, rfl⟩ | ⟨ho, -⟩ | ⟨-, hm, hpl⟩ := exec_ends h
  · exact absurd (complete_ended.mp he).symm hst
  · cases ho.status he
  · exact ⟨hm, hpl⟩

/-! ## Where a reset stops -/

/-- A reset of which an event failed has stopped in the pulse or after it, with `DS` as it was (60_exceptions.md R328). -/
theorem Plan.Stopped.in_reset {pl : Plan} {s t : State} (hs : pl.Stopped s t) (hr : pl.resets = true)
    (hk : performed s.answers (resetEvents s.cfg).length < (resetEvents s.cfg).length) :
    t.ds = s.ds ∧
    t.fsm = if performed s.answers (resetEvents s.cfg).length < (pulseEvents s.cfg).length then .resetting
      else .initializing := by
  rw [Plan.Stopped, if_pos hr] at hs
  obtain ⟨-, hreg⟩ | ⟨hfull, -⟩ := hs
  · exact hreg
  · exact absurd hfull hk.ne

/-- A plan that stopped after a whole reset is CONSTRUCT's, and has written what the reset writes. -/
theorem Plan.Stopped.past_reset {pl : Plan} {s t : State} (hs : pl.Stopped s t) (hr : pl.resets = true)
    (hk : performed s.answers (resetEvents s.cfg).length = (resetEvents s.cfg).length) :
    (∃ v, pl = .construct v) ∧ t.ds = { s.ds with inversion := true } ∧ t.fsm = .ready := by
  rw [Plan.Stopped, if_pos hr] at hs
  obtain ⟨hlt, -⟩ | ⟨-, hreg⟩ := hs
  · exact absurd hk hlt.ne
  · exact hreg

end Sys2Proof.Machine

open Sys2Proof Sys2Proof.Machine

/-- Settles O14: only an answer given before the first event has one of the three statuses. -/
theorem errorsChangeNothing : Obligations.ErrorsChangeNothing := by
  intro i s t st h he hst
  have hne : st ≠ .ok ∧ st ≠ .transportError := by obtain rfl | rfl | rfl := hst <;> decide
  obtain ⟨st', r, ⟨-, hnone, -⟩, rfl⟩ | ⟨ho, -⟩ | ⟨hc, -⟩ := exec_ends h
  · obtain rfl := complete_ended.mp he
    rw [hnone hne.1]
  · exact absurd (ho.status he) hne.1
  · exact absurd (transportError_status hc he) hne.2

/-- Settles O15: the plan stopped in its reset, past it, or without one. -/
theorem transportErrorState : Obligations.TransportErrorState := by
  intro i s t h he
  obtain ⟨hm, pl, hfit, hpl, hs⟩ := exec_transportError h he
  refine ⟨hm, fun hi hk => ?_, fun hi hk => ?_, fun hi hc => ?_⟩
  · exact hs.in_reset (hpl.trans (resetsEngine_eq_true.mpr hi)) hk
  · obtain ⟨⟨v, rfl⟩, hreg⟩ := hs.past_reset (hpl.trans (resetsEngine_eq_true.mpr hi)) hk
    exact ⟨hfit, hreg⟩
  · exact (Plan.stopped_of_not_resets (hpl.trans (resetsEngine_eq_false hi hc))).mp hs

/-- Settles O16: an answer keeps the mark, a whole program keeps it or is a reset and clears it, and a failed event sets
it. -/
theorem faultMarkIsSticky : Obligations.FaultMarkIsSticky := by
  intro i s t h
  refine ⟨fun he => (exec_transportError h he).1, fun ht => ?_, fun hs ht => ?_⟩
  · obtain ⟨st, r, -, rfl⟩ | ⟨-, hm⟩ | ⟨hc, -⟩ := exec_ends h
    · exact .inl ht
    · rw [ht] at hm
      split at hm
      · cases hm
      · exact .inl hm.symm
    · exact .inr ⟨_, hc⟩
  · obtain ⟨st, r, -, rfl⟩ | ⟨ho, hm⟩ | ⟨-, hm, -⟩ := exec_ends h
    · cases hs.symm.trans ht
    · rw [ht, hs] at hm
      split at hm
      next hi => exact ⟨resetsEngine_eq_true.mp hi, _, ho⟩
      next => cases hm
    · cases hm.symm.trans ht

end
